-- ==== Sys2Proof/Word.lean ====
section
/-! DEFINITION. The plain data types of the block: words, bytes and addresses (R4, R5), the register
names (R10, R11), the instruction value (R12) and the outcome of an operation (R7, R102 to R105). -/

namespace Sys2Proof

/-- A 16-bit instruction or data word (R4, R5), a `u16`. -/
abbrev Word := BitVec 16

/-- The unit of memory, a `u8` (R5). -/
abbrev Byte := BitVec 8

/-- An address, a `u16` in 0x0000..0xFFFF (R5). -/
abbrev Addr := BitVec 16

/-- The eight integer-register names (R10).
They are names carried in instruction values; no register contents exist (R16). -/
inductive IntRegister where
  | I0 | I1 | I2 | I3 | I4 | I5 | I6 | I7
deriving DecidableEq, Repr

/-- The four ratio-register names (R11), names only (R16). -/
inductive RatioRegister where
  | Q0 | Q1 | Q2 | Q3
deriving DecidableEq, Repr

/-- One operand value of an instruction (R12).
An immediate is an `i8`; that it lies in -128..127 is a check (`immInRange`), not a matter of type. -/
inductive Operand where
  | int (r : IntRegister)
  | ratio (q : RatioRegister)
  | imm (m : Int)
deriving DecidableEq, Repr

/-- An instruction value over any catalog (R12): format tag, opcode, and operand values in field order.
Two values are equal when all three agree. Which values are instructions of a catalog is
`Catalog.admits`. -/
structure Instruction where
  tag  : Nat
  op   : Nat
  vals : List Operand
deriving DecidableEq, Repr

/-- The kinds of `DecodeError` (R104). -/
inductive DecodeError where
  | unknownOpcode (tag op : Nat)
  | noFormat
deriving DecidableEq, Repr

/-- The kinds of `DeviceRegistrationError` (R105). -/
inductive DeviceRegistrationError where
  | overflow
  | overlap
deriving DecidableEq, Repr

/-- Every error value an operation may return (R103 to R105).
An `AddressError` carries nothing. -/
inductive Error where
  | address
  | registration (k : DeviceRegistrationError)
  | decode (k : DecodeError)
deriving DecidableEq, Repr

/-- `Ok(v)` or `Err(e)`, the two outcomes of every operation (R7, R102). -/
inductive Result (α : Type) where
  | ok (v : α)
  | err (e : Error)
deriving DecidableEq, Repr

/-- The result with its `Ok` value mapped; an error passes through. -/
def Result.map {α β : Type} (f : α → β) : Result α → Result β
  | .ok v => .ok (f v)
  | .err e => .err e

end Sys2Proof
end

