-- ==== Sys2Proof/Config.lean ====
section
/-! DEFINITION. The parameters of the block (R6): the shape of a format catalog (R38, R39), the two
open choices `MUX_ADDR_MODE` (D7) and `WORD_WRITE_FAIL_EFFECT` (D6), and the one free value (I5). -/

namespace Sys2Proof

/-- The three kinds of operand field (R38). -/
inductive FieldKind where
  | intReg
  | ratioReg
  | imm8
deriving DecidableEq, Repr

/-- One format of a catalog, its six parts (R39).
`pfx` is `P_F`, `pfxWidth` is `p_F`, `opWidth` is `o_F`, and `ops` lists the legal opcodes `Op_F`. -/
structure Format where
  tag      : Nat
  pfx      : Nat
  pfxWidth : Nat
  opWidth  : Nat
  ops      : List Nat
  fields   : List FieldKind
deriving DecidableEq, Repr

/-- The parameter `CATALOG` (R9, R39). -/
abbrev Catalog := List Format

/-- `MUX_ADDR_MODE` (R31, R93): the address a routed device receives. -/
inductive MuxAddrMode where
  | raw
  | offset
deriving DecidableEq, Repr

/-- `WORD_WRITE_FAIL_EFFECT` (R88): what a failing `write_word` may have written. -/
inductive WordWriteFailEffect where
  | nothing
  | lowMayBeWritten
deriving DecidableEq, Repr

/-- The block's parameters (R6).
They are fixed for the whole life of the block (R9): no operation writes them. -/
structure Config where
  catalog  : Catalog
  addrMode : MuxAddrMode
  failEffect : WordWriteFailEffect
deriving DecidableEq, Repr

/-- FREE VALUE (R88, I5; log entry 5): whether the k-th failing word write of a run under
`LOW_MAY_BE_WRITTEN` has written its low byte. It has no body, so nothing can be proved of it. -/
opaque Config.lowByteWritten : Nat → Bool

end Sys2Proof
end

