-- ==== Sys2Proof/Syntax.lean ====
section
/-! DEFINITION. The instructions of the opcode table, one constructor per row of
spec/opcode_table.json (the reference catalog REF13, R54). -/

namespace Sys2Proof

/-- The typed instruction value (R12) of the reference catalog: constructor `f<k>op<n>` is the row
`F<k>.OP<n>`, with its operands in field order. -/
inductive Instr where
  -- F0 IntImm (R70)
  | f0op0 (a : IntRegister) (m : Int)
  | f0op1 (a : IntRegister) (m : Int)
  | f0op2 (a : IntRegister) (m : Int)
  -- F1 RatioImm (R71)
  | f1op0 (q : RatioRegister) (m : Int)
  | f1op1 (q : RatioRegister) (m : Int)
  | f1op2 (q : RatioRegister) (m : Int)
  | f1op3 (q : RatioRegister) (m : Int)
  | f1op4 (q : RatioRegister) (m : Int)
  -- F2 Imm (R72)
  | f2op0 (m : Int)
  | f2op1 (m : Int)
  | f2op2 (m : Int)
  | f2op3 (m : Int)
  | f2op4 (m : Int)
  | f2op5 (m : Int)
  -- F3 IntIntInt (R73)
  | f3op0 (a : IntRegister) (b : IntRegister) (c : IntRegister)
  | f3op1 (a : IntRegister) (b : IntRegister) (c : IntRegister)
  | f3op2 (a : IntRegister) (b : IntRegister) (c : IntRegister)
  | f3op3 (a : IntRegister) (b : IntRegister) (c : IntRegister)
  | f3op4 (a : IntRegister) (b : IntRegister) (c : IntRegister)
  | f3op5 (a : IntRegister) (b : IntRegister) (c : IntRegister)
  | f3op6 (a : IntRegister) (b : IntRegister) (c : IntRegister)
  | f3op7 (a : IntRegister) (b : IntRegister) (c : IntRegister)
  | f3op8 (a : IntRegister) (b : IntRegister) (c : IntRegister)
  | f3op9 (a : IntRegister) (b : IntRegister) (c : IntRegister)
  -- F4 RatioRatioRatio (R74)
  | f4op0 (q : RatioRegister) (r : RatioRegister) (u : RatioRegister)
  | f4op1 (q : RatioRegister) (r : RatioRegister) (u : RatioRegister)
  | f4op2 (q : RatioRegister) (r : RatioRegister) (u : RatioRegister)
  | f4op3 (q : RatioRegister) (r : RatioRegister) (u : RatioRegister)
  | f4op4 (q : RatioRegister) (r : RatioRegister) (u : RatioRegister)
  | f4op5 (q : RatioRegister) (r : RatioRegister) (u : RatioRegister)
  | f4op6 (q : RatioRegister) (r : RatioRegister) (u : RatioRegister)
  | f4op7 (q : RatioRegister) (r : RatioRegister) (u : RatioRegister)
  -- F5 IntInt (R75)
  | f5op0 (a : IntRegister) (b : IntRegister)
  | f5op1 (a : IntRegister) (b : IntRegister)
  | f5op2 (a : IntRegister) (b : IntRegister)
  | f5op3 (a : IntRegister) (b : IntRegister)
  | f5op4 (a : IntRegister) (b : IntRegister)
  | f5op5 (a : IntRegister) (b : IntRegister)
  | f5op6 (a : IntRegister) (b : IntRegister)
  | f5op7 (a : IntRegister) (b : IntRegister)
  | f5op8 (a : IntRegister) (b : IntRegister)
  | f5op9 (a : IntRegister) (b : IntRegister)
  | f5op10 (a : IntRegister) (b : IntRegister)
  | f5op11 (a : IntRegister) (b : IntRegister)
  -- F6 IntRatio (R76)
  | f6op0 (a : IntRegister) (q : RatioRegister)
  | f6op1 (a : IntRegister) (q : RatioRegister)
  | f6op2 (a : IntRegister) (q : RatioRegister)
  | f6op3 (a : IntRegister) (q : RatioRegister)
  -- F7 RatioInt (R77)
  | f7op0 (q : RatioRegister) (a : IntRegister)
  | f7op1 (q : RatioRegister) (a : IntRegister)
  | f7op2 (q : RatioRegister) (a : IntRegister)
  | f7op3 (q : RatioRegister) (a : IntRegister)
  -- F8 RatioRatio (R78)
  | f8op0 (q : RatioRegister) (r : RatioRegister)
  | f8op1 (q : RatioRegister) (r : RatioRegister)
  | f8op2 (q : RatioRegister) (r : RatioRegister)
  | f8op3 (q : RatioRegister) (r : RatioRegister)
  | f8op4 (q : RatioRegister) (r : RatioRegister)
  | f8op5 (q : RatioRegister) (r : RatioRegister)
  -- F9 Int (R79)
  | f9op0 (a : IntRegister)
  | f9op1 (a : IntRegister)
  | f9op2 (a : IntRegister)
  | f9op3 (a : IntRegister)
  | f9op4 (a : IntRegister)
  | f9op5 (a : IntRegister)
  | f9op6 (a : IntRegister)
  | f9op7 (a : IntRegister)
  -- F10 Ratio (R80)
  | f10op0 (q : RatioRegister)
  | f10op1 (q : RatioRegister)
  | f10op2 (q : RatioRegister)
  | f10op3 (q : RatioRegister)
  -- F11 IntIntRatio (R81)
  | f11op0 (a : IntRegister) (b : IntRegister) (q : RatioRegister)
  | f11op1 (a : IntRegister) (b : IntRegister) (q : RatioRegister)
  -- F12 Nullary (R82)
  | f12op0
  | f12op1
  | f12op2
  | f12op3
deriving DecidableEq, Repr

end Sys2Proof
end

