-- ==== Sys2Proof/WellFormed.lean ====
section
/-! DEFINITION. When an instruction is well-formed: its immediate, where it has one, is an `i8` (R12,
R52). Registers and opcodes are closed types, so nothing else can be wrong with a term. -/

namespace Sys2Proof

/-- The immediate is in the range of an `i8`, -128..127 (R52). -/
def immInRange (m : Int) : Bool := decide (-128 ≤ m) && decide (m ≤ 127)

/-- The instruction is a value the catalog REF13 has (R12). -/
def Instr.wf : Instr → Bool
  | .f0op0 _ m => immInRange m
  | .f0op1 _ m => immInRange m
  | .f0op2 _ m => immInRange m
  | .f1op0 _ m => immInRange m
  | .f1op1 _ m => immInRange m
  | .f1op2 _ m => immInRange m
  | .f1op3 _ m => immInRange m
  | .f1op4 _ m => immInRange m
  | .f2op0 m => immInRange m
  | .f2op1 m => immInRange m
  | .f2op2 m => immInRange m
  | .f2op3 m => immInRange m
  | .f2op4 m => immInRange m
  | .f2op5 m => immInRange m
  | .f3op0 _ _ _ => true
  | .f3op1 _ _ _ => true
  | .f3op2 _ _ _ => true
  | .f3op3 _ _ _ => true
  | .f3op4 _ _ _ => true
  | .f3op5 _ _ _ => true
  | .f3op6 _ _ _ => true
  | .f3op7 _ _ _ => true
  | .f3op8 _ _ _ => true
  | .f3op9 _ _ _ => true
  | .f4op0 _ _ _ => true
  | .f4op1 _ _ _ => true
  | .f4op2 _ _ _ => true
  | .f4op3 _ _ _ => true
  | .f4op4 _ _ _ => true
  | .f4op5 _ _ _ => true
  | .f4op6 _ _ _ => true
  | .f4op7 _ _ _ => true
  | .f5op0 _ _ => true
  | .f5op1 _ _ => true
  | .f5op2 _ _ => true
  | .f5op3 _ _ => true
  | .f5op4 _ _ => true
  | .f5op5 _ _ => true
  | .f5op6 _ _ => true
  | .f5op7 _ _ => true
  | .f5op8 _ _ => true
  | .f5op9 _ _ => true
  | .f5op10 _ _ => true
  | .f5op11 _ _ => true
  | .f6op0 _ _ => true
  | .f6op1 _ _ => true
  | .f6op2 _ _ => true
  | .f6op3 _ _ => true
  | .f7op0 _ _ => true
  | .f7op1 _ _ => true
  | .f7op2 _ _ => true
  | .f7op3 _ _ => true
  | .f8op0 _ _ => true
  | .f8op1 _ _ => true
  | .f8op2 _ _ => true
  | .f8op3 _ _ => true
  | .f8op4 _ _ => true
  | .f8op5 _ _ => true
  | .f9op0 _ => true
  | .f9op1 _ => true
  | .f9op2 _ => true
  | .f9op3 _ => true
  | .f9op4 _ => true
  | .f9op5 _ => true
  | .f9op6 _ => true
  | .f9op7 _ => true
  | .f10op0 _ => true
  | .f10op1 _ => true
  | .f10op2 _ => true
  | .f10op3 _ => true
  | .f11op0 _ _ _ => true
  | .f11op1 _ _ _ => true
  | .f12op0 => true
  | .f12op1 => true
  | .f12op2 => true
  | .f12op3 => true

end Sys2Proof
end

