-- ==== Sys2Proof/Decode.lean ====
section
/-! DEFINITION. The register-code converters (R57 to R61) and the codec of the reference catalog REF13:
`decode` from a 16-bit word to a typed instruction or a decode error (R62 to R66, R70 to R82), and
after it `encode`, written from the same encodings (R67). The codec over any catalog is
Machine/Codec.lean. -/

namespace Sys2Proof

/-- `w[lo+n-1 : lo]`, the unsigned value of `n` bits of `w` from bit `lo` up (R7). -/
def field (w : Word) (lo n : Nat) : Nat := w.toNat / 2 ^ lo % 2 ^ n

/-- `sext_8(v)` (R7): the `i8` whose two's-complement bit pattern is `v`. -/
def sext8 (v : Byte) : Int := if v.toNat < 128 then v.toNat else v.toNat - 256

/-- The bit pattern `m mod 256` of an immediate (R52). -/
def immBits (m : Int) : Byte := BitVec.ofNat 8 (m % 256).toNat

/-- The word whose byte at the lower address is `lo` and at the higher address `hi` (R22). -/
def wordOfBytes (lo hi : Byte) : Word := hi ++ lo

/-- `lo8(v)` (R7). -/
def lo8 (v : Word) : Byte := BitVec.ofNat 8 (v.toNat % 256)

/-- `hi8(v)` (R7). -/
def hi8 (v : Word) : Byte := BitVec.ofNat 8 (v.toNat / 256)

/-- `IntRegister::code(r)`, a `u3` (R57). -/
def IntRegister.code : IntRegister → BitVec 3
  | .I0 => 0 | .I1 => 1 | .I2 => 2 | .I3 => 3 | .I4 => 4 | .I5 => 5 | .I6 => 6 | .I7 => 7

/-- `IntRegister::from_code(x)`: the register with code `x`, none for every `x >= 8` (R58). -/
def IntRegister.fromCode (x : Byte) : Option IntRegister :=
  match x.toNat with
  | 0 => some .I0 | 1 => some .I1 | 2 => some .I2 | 3 => some .I3
  | 4 => some .I4 | 5 => some .I5 | 6 => some .I6 | 7 => some .I7
  | _ => none

/-- `RatioRegister::code(q)`, a `u2` (R59). -/
def RatioRegister.code : RatioRegister → BitVec 2
  | .Q0 => 0 | .Q1 => 1 | .Q2 => 2 | .Q3 => 3

/-- `RatioRegister::from_code(x)`: the register with code `x`, none for every `x >= 4` (R60). -/
def RatioRegister.fromCode (x : Byte) : Option RatioRegister :=
  match x.toNat with
  | 0 => some .Q0 | 1 => some .Q1 | 2 => some .Q2 | 3 => some .Q3
  | _ => none

/-- Read an `IntReg` field at bit `lo` and go on with the register (R51, R65).
The error branch is the one R62 requires; a 3-bit field never takes it. -/
def readInt (w : Word) (lo tag op : Nat) (next : IntRegister → Result Instr) : Result Instr :=
  match IntRegister.fromCode (BitVec.ofNat 8 (field w lo 3)) with
  | some r => next r
  | none => .err (.decode (.unknownOpcode tag op))

/-- Read a `RatioReg` field at bit `lo` and go on with the register (R51, R65).
The error branch is the one R62 requires; a 2-bit field never takes it. -/
def readRatio (w : Word) (lo tag op : Nat) (next : RatioRegister → Result Instr) : Result Instr :=
  match RatioRegister.fromCode (BitVec.ofNat 8 (field w lo 2)) with
  | some q => next q
  | none => .err (.decode (.unknownOpcode tag op))

/-- The immediate of an `Imm8` field at bit `lo` (R52). -/
def readImm (w : Word) (lo : Nat) : Int := sext8 (BitVec.ofNat 8 (field w lo 8))

/-- The legal opcodes of F0 IntImm (R70). -/
def opsF0 : Nat → Option (IntRegister → Int → Instr)
  | 0 => some .f0op0
  | 1 => some .f0op1
  | 2 => some .f0op2
  | _ => none

/-- Decode a word of F0 IntImm (R70): opcode `w[12:11]`, checked before any operand (R64). -/
def decodeF0 (w : Word) : Result Instr :=
  let op := field w 11 2
  match opsF0 op with
  | none => .err (.decode (.unknownOpcode 0 op))
  | some build => readInt w 8 0 op fun a => .ok (build a (readImm w 0))

/-- The legal opcodes of F1 RatioImm (R71). -/
def opsF1 : Nat → Option (RatioRegister → Int → Instr)
  | 0 => some .f1op0
  | 1 => some .f1op1
  | 2 => some .f1op2
  | 3 => some .f1op3
  | 4 => some .f1op4
  | _ => none

/-- Decode a word of F1 RatioImm (R71): opcode `w[12:10]`, checked before any operand (R64). -/
def decodeF1 (w : Word) : Result Instr :=
  let op := field w 10 3
  match opsF1 op with
  | none => .err (.decode (.unknownOpcode 1 op))
  | some build => readRatio w 8 1 op fun q => .ok (build q (readImm w 0))

/-- The legal opcodes of F2 Imm (R72). -/
def opsF2 : Nat → Option (Int → Instr)
  | 0 => some .f2op0
  | 1 => some .f2op1
  | 2 => some .f2op2
  | 3 => some .f2op3
  | 4 => some .f2op4
  | 5 => some .f2op5
  | _ => none

/-- Decode a word of F2 Imm (R72): opcode `w[12:8]`, checked before any operand (R64). -/
def decodeF2 (w : Word) : Result Instr :=
  let op := field w 8 5
  match opsF2 op with
  | none => .err (.decode (.unknownOpcode 2 op))
  | some build => .ok (build (readImm w 0))

/-- The legal opcodes of F3 IntIntInt (R73). -/
def opsF3 : Nat → Option (IntRegister → IntRegister → IntRegister → Instr)
  | 0 => some .f3op0
  | 1 => some .f3op1
  | 2 => some .f3op2
  | 3 => some .f3op3
  | 4 => some .f3op4
  | 5 => some .f3op5
  | 6 => some .f3op6
  | 7 => some .f3op7
  | 8 => some .f3op8
  | 9 => some .f3op9
  | _ => none

/-- Decode a word of F3 IntIntInt (R73): opcode `w[12:9]`, checked before any operand (R64). -/
def decodeF3 (w : Word) : Result Instr :=
  let op := field w 9 4
  match opsF3 op with
  | none => .err (.decode (.unknownOpcode 3 op))
  | some build => readInt w 6 3 op fun a => readInt w 3 3 op fun b => readInt w 0 3 op fun c => .ok (build a b c)

/-- The legal opcodes of F4 RatioRatioRatio (R74). -/
def opsF4 : Nat → Option (RatioRegister → RatioRegister → RatioRegister → Instr)
  | 0 => some .f4op0
  | 1 => some .f4op1
  | 2 => some .f4op2
  | 3 => some .f4op3
  | 4 => some .f4op4
  | 5 => some .f4op5
  | 6 => some .f4op6
  | 7 => some .f4op7
  | _ => none

/-- Decode a word of F4 RatioRatioRatio (R74): opcode `w[12:6]`, checked before any operand (R64). -/
def decodeF4 (w : Word) : Result Instr :=
  let op := field w 6 7
  match opsF4 op with
  | none => .err (.decode (.unknownOpcode 4 op))
  | some build => readRatio w 4 4 op fun q => readRatio w 2 4 op fun r => readRatio w 0 4 op fun u => .ok (build q r u)

/-- The legal opcodes of F5 IntInt (R75). -/
def opsF5 : Nat → Option (IntRegister → IntRegister → Instr)
  | 0 => some .f5op0
  | 1 => some .f5op1
  | 2 => some .f5op2
  | 3 => some .f5op3
  | 4 => some .f5op4
  | 5 => some .f5op5
  | 6 => some .f5op6
  | 7 => some .f5op7
  | 8 => some .f5op8
  | 9 => some .f5op9
  | 10 => some .f5op10
  | 11 => some .f5op11
  | _ => none

/-- Decode a word of F5 IntInt (R75): opcode `w[12:6]`, checked before any operand (R64). -/
def decodeF5 (w : Word) : Result Instr :=
  let op := field w 6 7
  match opsF5 op with
  | none => .err (.decode (.unknownOpcode 5 op))
  | some build => readInt w 3 5 op fun a => readInt w 0 5 op fun b => .ok (build a b)

/-- The legal opcodes of F6 IntRatio (R76). -/
def opsF6 : Nat → Option (IntRegister → RatioRegister → Instr)
  | 0 => some .f6op0
  | 1 => some .f6op1
  | 2 => some .f6op2
  | 3 => some .f6op3
  | _ => none

/-- Decode a word of F6 IntRatio (R76): opcode `w[11:5]`, checked before any operand (R64). -/
def decodeF6 (w : Word) : Result Instr :=
  let op := field w 5 7
  match opsF6 op with
  | none => .err (.decode (.unknownOpcode 6 op))
  | some build => readInt w 2 6 op fun a => readRatio w 0 6 op fun q => .ok (build a q)

/-- The legal opcodes of F7 RatioInt (R77). -/
def opsF7 : Nat → Option (RatioRegister → IntRegister → Instr)
  | 0 => some .f7op0
  | 1 => some .f7op1
  | 2 => some .f7op2
  | 3 => some .f7op3
  | _ => none

/-- Decode a word of F7 RatioInt (R77): opcode `w[11:5]`, checked before any operand (R64). -/
def decodeF7 (w : Word) : Result Instr :=
  let op := field w 5 7
  match opsF7 op with
  | none => .err (.decode (.unknownOpcode 7 op))
  | some build => readRatio w 3 7 op fun q => readInt w 0 7 op fun a => .ok (build q a)

/-- The legal opcodes of F8 RatioRatio (R78). -/
def opsF8 : Nat → Option (RatioRegister → RatioRegister → Instr)
  | 0 => some .f8op0
  | 1 => some .f8op1
  | 2 => some .f8op2
  | 3 => some .f8op3
  | 4 => some .f8op4
  | 5 => some .f8op5
  | _ => none

/-- Decode a word of F8 RatioRatio (R78): opcode `w[10:4]`, checked before any operand (R64). -/
def decodeF8 (w : Word) : Result Instr :=
  let op := field w 4 7
  match opsF8 op with
  | none => .err (.decode (.unknownOpcode 8 op))
  | some build => readRatio w 2 8 op fun q => readRatio w 0 8 op fun r => .ok (build q r)

/-- The legal opcodes of F9 Int (R79). -/
def opsF9 : Nat → Option (IntRegister → Instr)
  | 0 => some .f9op0
  | 1 => some .f9op1
  | 2 => some .f9op2
  | 3 => some .f9op3
  | 4 => some .f9op4
  | 5 => some .f9op5
  | 6 => some .f9op6
  | 7 => some .f9op7
  | _ => none

/-- Decode a word of F9 Int (R79): opcode `w[10:3]`, checked before any operand (R64). -/
def decodeF9 (w : Word) : Result Instr :=
  let op := field w 3 8
  match opsF9 op with
  | none => .err (.decode (.unknownOpcode 9 op))
  | some build => readInt w 0 9 op fun a => .ok (build a)

/-- The legal opcodes of F10 Ratio (R80). -/
def opsF10 : Nat → Option (RatioRegister → Instr)
  | 0 => some .f10op0
  | 1 => some .f10op1
  | 2 => some .f10op2
  | 3 => some .f10op3
  | _ => none

/-- Decode a word of F10 Ratio (R80): opcode `w[10:2]`, checked before any operand (R64). -/
def decodeF10 (w : Word) : Result Instr :=
  let op := field w 2 9
  match opsF10 op with
  | none => .err (.decode (.unknownOpcode 10 op))
  | some build => readRatio w 0 10 op fun q => .ok (build q)

/-- The legal opcodes of F11 IntIntRatio (R81). -/
def opsF11 : Nat → Option (IntRegister → IntRegister → RatioRegister → Instr)
  | 0 => some .f11op0
  | 1 => some .f11op1
  | _ => none

/-- Decode a word of F11 IntIntRatio (R81): opcode `w[9:8]`, checked before any operand (R64). -/
def decodeF11 (w : Word) : Result Instr :=
  let op := field w 8 2
  match opsF11 op with
  | none => .err (.decode (.unknownOpcode 11 op))
  | some build => readInt w 5 11 op fun a => readInt w 2 11 op fun b => readRatio w 0 11 op fun q => .ok (build a b q)

/-- The legal opcodes of F12 Nullary (R82). -/
def opsF12 : Nat → Option Instr
  | 0 => some .f12op0
  | 1 => some .f12op1
  | 2 => some .f12op2
  | 3 => some .f12op3
  | _ => none

/-- Decode a word of F12 Nullary (R82): opcode `w[9:0]`, checked before any operand (R64). -/
def decodeF12 (w : Word) : Result Instr :=
  let op := field w 0 10
  match opsF12 op with
  | none => .err (.decode (.unknownOpcode 12 op))
  | some build => .ok build

/-- `decode(w)` under REF13 (R62): the format by its prefix (R49, R54), then the opcode, then the
operands from left to right (R66). The order of the tests does not matter (R63), and the last branch
is never taken (R48). -/
def decode (w : Word) : Result Instr :=
  if field w 13 3 = 0b000 then decodeF0 w
  else if field w 13 3 = 0b001 then decodeF1 w
  else if field w 13 3 = 0b010 then decodeF2 w
  else if field w 13 3 = 0b011 then decodeF3 w
  else if field w 13 3 = 0b100 then decodeF4 w
  else if field w 13 3 = 0b101 then decodeF5 w
  else if field w 12 4 = 0b1100 then decodeF6 w
  else if field w 12 4 = 0b1101 then decodeF7 w
  else if field w 11 5 = 0b11100 then decodeF8 w
  else if field w 11 5 = 0b11101 then decodeF9 w
  else if field w 11 5 = 0b11110 then decodeF10 w
  else if field w 10 6 = 0b111110 then decodeF11 w
  else if field w 10 6 = 0b111111 then decodeF12 w
  else .err (.decode .noFormat)

/-- `decode` of an instruction word's two bytes as memory holds them: little-endian, the byte with the
prefix at the higher address (R23). -/
def decodeBytes (lo hi : Byte) : Result Instr := decode (wordOfBytes lo hi)

/-- The instruction the decoder reads from an instruction word numbered as spec/opcode_table.json
numbers its bits; bits above `nbits` are 0. Every instruction is one 16-bit word (R49). -/
def decodeTableWord (nbits w : Nat) : Option Instr :=
  let v := w % 2 ^ nbits
  match decodeBytes (BitVec.ofNat 8 v) (BitVec.ofNat 8 (v / 256)) with
  | .ok i => some i
  | .err _ => none

/-- The word of F0 IntImm (R70): prefix, opcode and operands from the most-significant bit down (R37). -/
def wordF0 (op : BitVec 2) (a : IntRegister) (m : Int) : Word :=
  0b000#3 ++ op ++ a.code ++ immBits m

/-- The word of F1 RatioImm (R71): prefix, opcode and operands from the most-significant bit down (R37). -/
def wordF1 (op : BitVec 3) (q : RatioRegister) (m : Int) : Word :=
  0b001#3 ++ op ++ q.code ++ immBits m

/-- The word of F2 Imm (R72): prefix, opcode and operands from the most-significant bit down (R37). -/
def wordF2 (op : BitVec 5) (m : Int) : Word :=
  0b010#3 ++ op ++ immBits m

/-- The word of F3 IntIntInt (R73): prefix, opcode and operands from the most-significant bit down (R37). -/
def wordF3 (op : BitVec 4) (a : IntRegister) (b : IntRegister) (c : IntRegister) : Word :=
  0b011#3 ++ op ++ a.code ++ b.code ++ c.code

/-- The word of F4 RatioRatioRatio (R74): prefix, opcode and operands from the most-significant bit down (R37). -/
def wordF4 (op : BitVec 7) (q : RatioRegister) (r : RatioRegister) (u : RatioRegister) : Word :=
  0b100#3 ++ op ++ q.code ++ r.code ++ u.code

/-- The word of F5 IntInt (R75): prefix, opcode and operands from the most-significant bit down (R37). -/
def wordF5 (op : BitVec 7) (a : IntRegister) (b : IntRegister) : Word :=
  0b101#3 ++ op ++ a.code ++ b.code

/-- The word of F6 IntRatio (R76): prefix, opcode and operands from the most-significant bit down (R37). -/
def wordF6 (op : BitVec 7) (a : IntRegister) (q : RatioRegister) : Word :=
  0b1100#4 ++ op ++ a.code ++ q.code

/-- The word of F7 RatioInt (R77): prefix, opcode and operands from the most-significant bit down (R37). -/
def wordF7 (op : BitVec 7) (q : RatioRegister) (a : IntRegister) : Word :=
  0b1101#4 ++ op ++ q.code ++ a.code

/-- The word of F8 RatioRatio (R78): prefix, opcode and operands from the most-significant bit down (R37). -/
def wordF8 (op : BitVec 7) (q : RatioRegister) (r : RatioRegister) : Word :=
  0b11100#5 ++ op ++ q.code ++ r.code

/-- The word of F9 Int (R79): prefix, opcode and operands from the most-significant bit down (R37). -/
def wordF9 (op : BitVec 8) (a : IntRegister) : Word :=
  0b11101#5 ++ op ++ a.code

/-- The word of F10 Ratio (R80): prefix, opcode and operands from the most-significant bit down (R37). -/
def wordF10 (op : BitVec 9) (q : RatioRegister) : Word :=
  0b11110#5 ++ op ++ q.code

/-- The word of F11 IntIntRatio (R81): prefix, opcode and operands from the most-significant bit down (R37). -/
def wordF11 (op : BitVec 2) (a : IntRegister) (b : IntRegister) (q : RatioRegister) : Word :=
  0b111110#6 ++ op ++ a.code ++ b.code ++ q.code

/-- The word of F12 Nullary (R82): prefix, opcode and operands from the most-significant bit down (R37). -/
def wordF12 (op : BitVec 10) : Word :=
  0b111111#6 ++ op

/-- `encode(i)` under REF13 (R67): total, and with no error result. -/
def encode : Instr → Word
  | .f0op0 a m => wordF0 0 a m
  | .f0op1 a m => wordF0 1 a m
  | .f0op2 a m => wordF0 2 a m
  | .f1op0 q m => wordF1 0 q m
  | .f1op1 q m => wordF1 1 q m
  | .f1op2 q m => wordF1 2 q m
  | .f1op3 q m => wordF1 3 q m
  | .f1op4 q m => wordF1 4 q m
  | .f2op0 m => wordF2 0 m
  | .f2op1 m => wordF2 1 m
  | .f2op2 m => wordF2 2 m
  | .f2op3 m => wordF2 3 m
  | .f2op4 m => wordF2 4 m
  | .f2op5 m => wordF2 5 m
  | .f3op0 a b c => wordF3 0 a b c
  | .f3op1 a b c => wordF3 1 a b c
  | .f3op2 a b c => wordF3 2 a b c
  | .f3op3 a b c => wordF3 3 a b c
  | .f3op4 a b c => wordF3 4 a b c
  | .f3op5 a b c => wordF3 5 a b c
  | .f3op6 a b c => wordF3 6 a b c
  | .f3op7 a b c => wordF3 7 a b c
  | .f3op8 a b c => wordF3 8 a b c
  | .f3op9 a b c => wordF3 9 a b c
  | .f4op0 q r u => wordF4 0 q r u
  | .f4op1 q r u => wordF4 1 q r u
  | .f4op2 q r u => wordF4 2 q r u
  | .f4op3 q r u => wordF4 3 q r u
  | .f4op4 q r u => wordF4 4 q r u
  | .f4op5 q r u => wordF4 5 q r u
  | .f4op6 q r u => wordF4 6 q r u
  | .f4op7 q r u => wordF4 7 q r u
  | .f5op0 a b => wordF5 0 a b
  | .f5op1 a b => wordF5 1 a b
  | .f5op2 a b => wordF5 2 a b
  | .f5op3 a b => wordF5 3 a b
  | .f5op4 a b => wordF5 4 a b
  | .f5op5 a b => wordF5 5 a b
  | .f5op6 a b => wordF5 6 a b
  | .f5op7 a b => wordF5 7 a b
  | .f5op8 a b => wordF5 8 a b
  | .f5op9 a b => wordF5 9 a b
  | .f5op10 a b => wordF5 10 a b
  | .f5op11 a b => wordF5 11 a b
  | .f6op0 a q => wordF6 0 a q
  | .f6op1 a q => wordF6 1 a q
  | .f6op2 a q => wordF6 2 a q
  | .f6op3 a q => wordF6 3 a q
  | .f7op0 q a => wordF7 0 q a
  | .f7op1 q a => wordF7 1 q a
  | .f7op2 q a => wordF7 2 q a
  | .f7op3 q a => wordF7 3 q a
  | .f8op0 q r => wordF8 0 q r
  | .f8op1 q r => wordF8 1 q r
  | .f8op2 q r => wordF8 2 q r
  | .f8op3 q r => wordF8 3 q r
  | .f8op4 q r => wordF8 4 q r
  | .f8op5 q r => wordF8 5 q r
  | .f9op0 a => wordF9 0 a
  | .f9op1 a => wordF9 1 a
  | .f9op2 a => wordF9 2 a
  | .f9op3 a => wordF9 3 a
  | .f9op4 a => wordF9 4 a
  | .f9op5 a => wordF9 5 a
  | .f9op6 a => wordF9 6 a
  | .f9op7 a => wordF9 7 a
  | .f10op0 q => wordF10 0 q
  | .f10op1 q => wordF10 1 q
  | .f10op2 q => wordF10 2 q
  | .f10op3 q => wordF10 3 q
  | .f11op0 a b q => wordF11 0 a b q
  | .f11op1 a b q => wordF11 1 a b q
  | .f12op0 => wordF12 0
  | .f12op1 => wordF12 1
  | .f12op2 => wordF12 2
  | .f12op3 => wordF12 3

end Sys2Proof
end

