-- ==== Sys2Proof/Machine/Operands.lean ====
section
/-! DEFINITION. The operand forms: the instruction value (R12) each of REF13's thirteen operand shapes
carries (R54), and the value of a typed instruction. -/

namespace Sys2Proof.Machine

/-- F0 IntImm (R70). -/
def valueF0 (op : Nat) (a : IntRegister) (m : Int) : Instruction := ⟨0, op, [.int a, .imm m]⟩

/-- F1 RatioImm (R71). -/
def valueF1 (op : Nat) (q : RatioRegister) (m : Int) : Instruction := ⟨1, op, [.ratio q, .imm m]⟩

/-- F2 Imm (R72). -/
def valueF2 (op : Nat) (m : Int) : Instruction := ⟨2, op, [.imm m]⟩

/-- F3 IntIntInt (R73). -/
def valueF3 (op : Nat) (a : IntRegister) (b : IntRegister) (c : IntRegister) : Instruction := ⟨3, op, [.int a, .int b, .int c]⟩

/-- F4 RatioRatioRatio (R74). -/
def valueF4 (op : Nat) (q : RatioRegister) (r : RatioRegister) (u : RatioRegister) : Instruction := ⟨4, op, [.ratio q, .ratio r, .ratio u]⟩

/-- F5 IntInt (R75). -/
def valueF5 (op : Nat) (a : IntRegister) (b : IntRegister) : Instruction := ⟨5, op, [.int a, .int b]⟩

/-- F6 IntRatio (R76). -/
def valueF6 (op : Nat) (a : IntRegister) (q : RatioRegister) : Instruction := ⟨6, op, [.int a, .ratio q]⟩

/-- F7 RatioInt (R77). -/
def valueF7 (op : Nat) (q : RatioRegister) (a : IntRegister) : Instruction := ⟨7, op, [.ratio q, .int a]⟩

/-- F8 RatioRatio (R78). -/
def valueF8 (op : Nat) (q : RatioRegister) (r : RatioRegister) : Instruction := ⟨8, op, [.ratio q, .ratio r]⟩

/-- F9 Int (R79). -/
def valueF9 (op : Nat) (a : IntRegister) : Instruction := ⟨9, op, [.int a]⟩

/-- F10 Ratio (R80). -/
def valueF10 (op : Nat) (q : RatioRegister) : Instruction := ⟨10, op, [.ratio q]⟩

/-- F11 IntIntRatio (R81). -/
def valueF11 (op : Nat) (a : IntRegister) (b : IntRegister) (q : RatioRegister) : Instruction := ⟨11, op, [.int a, .int b, .ratio q]⟩

/-- F12 Nullary (R82). -/
def valueF12 (op : Nat) : Instruction := ⟨12, op, []⟩

end Sys2Proof.Machine

namespace Sys2Proof

/-- The instruction value of a typed instruction: format tag, opcode and operands in field order. -/
def Instr.value : Instr → Instruction
  | .f0op0 a m => Machine.valueF0 0 a m
  | .f0op1 a m => Machine.valueF0 1 a m
  | .f0op2 a m => Machine.valueF0 2 a m
  | .f1op0 q m => Machine.valueF1 0 q m
  | .f1op1 q m => Machine.valueF1 1 q m
  | .f1op2 q m => Machine.valueF1 2 q m
  | .f1op3 q m => Machine.valueF1 3 q m
  | .f1op4 q m => Machine.valueF1 4 q m
  | .f2op0 m => Machine.valueF2 0 m
  | .f2op1 m => Machine.valueF2 1 m
  | .f2op2 m => Machine.valueF2 2 m
  | .f2op3 m => Machine.valueF2 3 m
  | .f2op4 m => Machine.valueF2 4 m
  | .f2op5 m => Machine.valueF2 5 m
  | .f3op0 a b c => Machine.valueF3 0 a b c
  | .f3op1 a b c => Machine.valueF3 1 a b c
  | .f3op2 a b c => Machine.valueF3 2 a b c
  | .f3op3 a b c => Machine.valueF3 3 a b c
  | .f3op4 a b c => Machine.valueF3 4 a b c
  | .f3op5 a b c => Machine.valueF3 5 a b c
  | .f3op6 a b c => Machine.valueF3 6 a b c
  | .f3op7 a b c => Machine.valueF3 7 a b c
  | .f3op8 a b c => Machine.valueF3 8 a b c
  | .f3op9 a b c => Machine.valueF3 9 a b c
  | .f4op0 q r u => Machine.valueF4 0 q r u
  | .f4op1 q r u => Machine.valueF4 1 q r u
  | .f4op2 q r u => Machine.valueF4 2 q r u
  | .f4op3 q r u => Machine.valueF4 3 q r u
  | .f4op4 q r u => Machine.valueF4 4 q r u
  | .f4op5 q r u => Machine.valueF4 5 q r u
  | .f4op6 q r u => Machine.valueF4 6 q r u
  | .f4op7 q r u => Machine.valueF4 7 q r u
  | .f5op0 a b => Machine.valueF5 0 a b
  | .f5op1 a b => Machine.valueF5 1 a b
  | .f5op2 a b => Machine.valueF5 2 a b
  | .f5op3 a b => Machine.valueF5 3 a b
  | .f5op4 a b => Machine.valueF5 4 a b
  | .f5op5 a b => Machine.valueF5 5 a b
  | .f5op6 a b => Machine.valueF5 6 a b
  | .f5op7 a b => Machine.valueF5 7 a b
  | .f5op8 a b => Machine.valueF5 8 a b
  | .f5op9 a b => Machine.valueF5 9 a b
  | .f5op10 a b => Machine.valueF5 10 a b
  | .f5op11 a b => Machine.valueF5 11 a b
  | .f6op0 a q => Machine.valueF6 0 a q
  | .f6op1 a q => Machine.valueF6 1 a q
  | .f6op2 a q => Machine.valueF6 2 a q
  | .f6op3 a q => Machine.valueF6 3 a q
  | .f7op0 q a => Machine.valueF7 0 q a
  | .f7op1 q a => Machine.valueF7 1 q a
  | .f7op2 q a => Machine.valueF7 2 q a
  | .f7op3 q a => Machine.valueF7 3 q a
  | .f8op0 q r => Machine.valueF8 0 q r
  | .f8op1 q r => Machine.valueF8 1 q r
  | .f8op2 q r => Machine.valueF8 2 q r
  | .f8op3 q r => Machine.valueF8 3 q r
  | .f8op4 q r => Machine.valueF8 4 q r
  | .f8op5 q r => Machine.valueF8 5 q r
  | .f9op0 a => Machine.valueF9 0 a
  | .f9op1 a => Machine.valueF9 1 a
  | .f9op2 a => Machine.valueF9 2 a
  | .f9op3 a => Machine.valueF9 3 a
  | .f9op4 a => Machine.valueF9 4 a
  | .f9op5 a => Machine.valueF9 5 a
  | .f9op6 a => Machine.valueF9 6 a
  | .f9op7 a => Machine.valueF9 7 a
  | .f10op0 q => Machine.valueF10 0 q
  | .f10op1 q => Machine.valueF10 1 q
  | .f10op2 q => Machine.valueF10 2 q
  | .f10op3 q => Machine.valueF10 3 q
  | .f11op0 a b q => Machine.valueF11 0 a b q
  | .f11op1 a b q => Machine.valueF11 1 a b q
  | .f12op0 => Machine.valueF12 0
  | .f12op1 => Machine.valueF12 1
  | .f12op2 => Machine.valueF12 2
  | .f12op3 => Machine.valueF12 3

end Sys2Proof
end

