-- ==== Sys2Proof/Machine/Codec.lean ====
section
/-! DEFINITION. The codec over any catalog (R37 to R53, R62 to R69): when a catalog is well-formed, which
values are its instructions, `decode` and `encode` driven by it, and the reference catalog REF13. -/

namespace Sys2Proof

/-- The width of an operand field (R38). -/
def FieldKind.width : FieldKind → Nat
  | .intReg => 3
  | .ratioReg => 2
  | .imm8 => 8

/-- The number of operand bits of a format. -/
def Format.operandBits (F : Format) : Nat := (F.fields.map FieldKind.width).sum

/-- The number of bits below the prefix. -/
def Format.below (F : Format) : Nat := 16 - F.pfxWidth

/-- `P_F` is an unsigned integer of `p_F` bits (R39), and the widths fill the word (R41). -/
def Format.layoutOk (F : Format) : Bool :=
  decide (F.pfxWidth + F.opWidth + F.operandBits = 16) && decide (F.pfx < 2 ^ F.pfxWidth)

/-- Every legal opcode fits the opcode field (R44). -/
def Format.opsFit (F : Format) : Bool := F.ops.all fun op => decide (op < 2 ^ F.opWidth)

/-- At most one `Imm8` field (R45). -/
def Format.oneImm (F : Format) : Bool := decide (F.fields.count .imm8 ≤ 1)

/-- Neither prefix is a bit-extension of the other over the shorter one's width (R42). -/
def Format.prefixFree (F G : Format) : Bool :=
  if F.pfxWidth ≤ G.pfxWidth then decide (G.pfx / 2 ^ (G.pfxWidth - F.pfxWidth) ≠ F.pfx)
  else decide (F.pfx / 2 ^ (F.pfxWidth - G.pfxWidth) ≠ G.pfx)

/-- The prefixes of every two formats of the list are free of each other (R42). -/
def Catalog.pairwisePrefixFree : Catalog → Bool
  | [] => true
  | F :: rest => rest.all F.prefixFree && Catalog.pairwisePrefixFree rest

/-- Exhaustiveness, by the sum check R43 gives. -/
def Catalog.exhaustive (cat : Catalog) : Bool :=
  decide ((cat.map fun F => 2 ^ F.below).sum = 65536)

/-- The all-zero prefix's format: opcode 0 is legal and no format has more operand bits (R46 (a), (b)).
Part (c) of R46 follows from the definition of `decode`. -/
def Catalog.zeroFormatOk (cat : Catalog) : Bool :=
  cat.any fun F => decide (F.pfx = 0) && F.ops.contains 0 &&
    cat.all fun G => decide (G.operandBits ≤ F.operandBits)

/-- The catalog is well-formed: R40 to R46.
An ill-formed catalog is refused (R48). -/
def Catalog.wf (cat : Catalog) : Bool :=
  decide (cat.length = 13) && decide ((cat.map Format.tag).Nodup) && cat.all Format.layoutOk &&
    cat.pairwisePrefixFree && cat.exhaustive && cat.all Format.opsFit && cat.all Format.oneImm &&
    cat.zeroFormatOk

/-- The value is one the field kind holds: the kind agrees, and an immediate is an `i8` (R12, R38). -/
def FieldKind.admits : FieldKind → Operand → Bool
  | .intReg, .int _ => true
  | .ratioReg, .ratio _ => true
  | .imm8, .imm m => immInRange m
  | _, _ => false

/-- One value of the field's kind for each operand field, in order (R12). -/
def admitsAll : List FieldKind → List Operand → Bool
  | [], [] => true
  | k :: ks, x :: xs => k.admits x && admitsAll ks xs
  | _, _ => false

/-- The value is an instruction of the format: its opcode is legal and its operands fit (R12). -/
def Format.admits (F : Format) (i : Instruction) : Bool :=
  decide (i.tag = F.tag) && F.ops.contains i.op && admitsAll F.fields i.vals

/-- The value is an `Instruction` of the catalog; no other value is one (R12). -/
def Catalog.admits (cat : Catalog) (i : Instruction) : Bool := cat.any (·.admits i)

/-- The word matches the format: `w[15 : 16-p_F] = P_F` (R49, R63). -/
def Format.matches (F : Format) (w : Word) : Bool := decide (field w F.below F.pfxWidth = F.pfx)

/-- The opcode field of a word of the format (R50). -/
def Format.opcode (F : Format) (w : Word) : Nat := field w (F.below - F.opWidth) F.opWidth

/-- The operand of a field of kind `k` that holds `v`; none is the failure of `from_code` (R51, R52). -/
def FieldKind.operand : FieldKind → Nat → Option Operand
  | .intReg, v => (IntRegister.fromCode (BitVec.ofNat 8 v)).map .int
  | .ratioReg, v => (RatioRegister.fromCode (BitVec.ofNat 8 v)).map .ratio
  | .imm8, v => some (.imm (sext8 (BitVec.ofNat 8 v)))

/-- Read the operand fields from bit `pos` down, in order (R65); the first failure ends it (R66). -/
def readFields (w : Word) (tag op : Nat) : Nat → List FieldKind → Result (List Operand)
  | _, [] => .ok []
  | pos, k :: ks =>
    match k.operand (field w (pos - k.width) k.width) with
    | none => .err (.decode (.unknownOpcode tag op))
    | some x => (readFields w tag op (pos - k.width) ks).map (x :: ·)

/-- Decode a word of the format: the opcode is checked before any operand is read (R64, R66). -/
def Format.decode (F : Format) (w : Word) : Result Instruction :=
  if F.ops.contains (F.opcode w) then
    (readFields w F.tag (F.opcode w) (F.below - F.opWidth) F.fields).map fun vals =>
      ⟨F.tag, F.opcode w, vals⟩
  else .err (.decode (.unknownOpcode F.tag (F.opcode w)))

/-- `decode(w)` (R62): the unique format that matches, whatever the order of the list (R63). -/
def Catalog.decode (cat : Catalog) (w : Word) : Result Instruction :=
  match cat.filter (·.matches w) with
  | [F] => F.decode w
  | _ => .err (.decode .noFormat)

/-- The bits of an operand value (R51, R52). -/
def Operand.bits : Operand → Nat
  | .int r => r.code.toNat
  | .ratio q => q.code.toNat
  | .imm m => (immBits m).toNat

/-- Append the operands' bits below `acc`, in order (R67). -/
def appendFields (acc : Nat) : List FieldKind → List Operand → Nat
  | k :: ks, x :: xs => appendFields (acc * 2 ^ k.width + x.bits % 2 ^ k.width) ks xs
  | _, _ => acc

/-- The word of an instruction of the format: prefix, opcode, operands (R67). -/
def Format.encode (F : Format) (i : Instruction) : Word :=
  BitVec.ofNat 16 (appendFields (F.pfx * 2 ^ F.opWidth + i.op % 2 ^ F.opWidth) F.fields i.vals)

/-- `encode(i)` (R67): total on the instructions of the catalog.
`none` says that the value is no instruction of it (R12), so that encode has no such input. -/
def Catalog.encode (cat : Catalog) (i : Instruction) : Option Word :=
  match cat.find? (·.admits i) with
  | some F => some (F.encode i)
  | none => none

/-- The reference catalog REF13 (R54), the spec's own choice and not the RetroLudos catalog (D2). -/
def ref13 : Catalog :=
  [ ⟨0, 0b000, 3, 2, List.range 3, [.intReg, .imm8]⟩,
    ⟨1, 0b001, 3, 3, List.range 5, [.ratioReg, .imm8]⟩,
    ⟨2, 0b010, 3, 5, List.range 6, [.imm8]⟩,
    ⟨3, 0b011, 3, 4, List.range 10, [.intReg, .intReg, .intReg]⟩,
    ⟨4, 0b100, 3, 7, List.range 8, [.ratioReg, .ratioReg, .ratioReg]⟩,
    ⟨5, 0b101, 3, 7, List.range 12, [.intReg, .intReg]⟩,
    ⟨6, 0b1100, 4, 7, List.range 4, [.intReg, .ratioReg]⟩,
    ⟨7, 0b1101, 4, 7, List.range 4, [.ratioReg, .intReg]⟩,
    ⟨8, 0b11100, 5, 7, List.range 6, [.ratioReg, .ratioReg]⟩,
    ⟨9, 0b11101, 5, 8, List.range 8, [.intReg]⟩,
    ⟨10, 0b11110, 5, 9, List.range 4, [.ratioReg]⟩,
    ⟨11, 0b111110, 6, 2, List.range 2, [.intReg, .intReg, .ratioReg]⟩,
    ⟨12, 0b111111, 6, 10, List.range 4, []⟩ ]

end Sys2Proof
end

