-- ==== Sys2Proof/Machine/State.lean ====
section
/-! DEFINITION. The state: the multiplexer's device map and the cards' buffers (R8), the cards the host
still holds (R89), the parameters (R6), and the interface to the one host (R110): the operations it
issues and what the last one returned. -/

namespace Sys2Proof.Machine

/-- The bytes of a card: (local address, byte) pairs, addresses strictly rising, none equal to what an
unlisted address reads as (`Memory.wf`). -/
abbrev Memory := List Host.Cell

/-- A Virtual Memory Card (R13), the only device kind (R90): a size fixed at creation, and the buffer. -/
structure Card where
  size : BitVec 16
  buf  : Memory
deriving DecidableEq, Repr

/-- One entry of `mux.map` (R14): a base address and the device the multiplexer owns there. -/
structure Entry where
  base : Addr
  dev  : Card
deriving DecidableEq, Repr

/-- The operations the host may issue: the register-code converters (R57 to R60), the codec (R62, R67),
a card it holds, named by its slot (R84 to R89), and the multiplexer (R91 to R98). -/
inductive Request where
  | intCode (r : IntRegister)
  | intFromCode (x : Byte)
  | ratioCode (q : RatioRegister)
  | ratioFromCode (x : Byte)
  | decode (w : Word)
  | encode (i : Instruction)
  | cardNew (size : BitVec 16)
  | cardSize (slot : Nat)
  | cardReadByte (slot : Nat) (a : Addr)
  | cardReadWord (slot : Nat) (a : Addr)
  | cardWriteByte (slot : Nat) (a : Addr) (v : Byte)
  | cardWriteWord (slot : Nat) (a : Addr) (v : Word)
  | muxNew
  | addDevice (addr : Addr) (slot : Nat)
  | readByte (addr : Addr)
  | readWord (addr : Addr)
  | writeByte (addr : Addr) (v : Byte)
  | writeWord (addr : Addr) (v : Word)
deriving DecidableEq, Repr

/-- The `Ok` values of the operations. -/
inductive Value where
  | unit
  | byte (b : Byte)
  | word (w : Word)
  | size (n : BitVec 16)
  | slot (n : Nat)
  | intCode (c : BitVec 3)
  | ratioCode (c : BitVec 2)
  | intRegister (r : Option IntRegister)
  | ratioRegister (q : Option RatioRegister)
  | instruction (i : Instruction)
deriving DecidableEq, Repr

/-- The machine's state.
`cfg` holds the parameters, which no operation writes (R9).
`map` is `mux.map` in order of base (R14).
`held` is the devices the host holds, by slot; a slot is empty once its card was moved (R91, D9).
`requests` is what the host issues from here on, oldest first, and `reply` what the last operation
returned; both are the interface's, not the block's (log entry 2).
`draws` counts the free values drawn (log entry 5). -/
structure State where
  cfg      : Config
  map      : List Entry
  held     : List (Option Card)
  requests : List Request
  reply    : Option (Result Value)
  draws    : Nat
deriving DecidableEq, Repr

/-- The reasons the machine stops. -/
inductive Fault where
  /-- Raised by a decode whose word matches no format or several (R104): an internal invariant
  violation (I3), never reached, since decode is refused under an ill-formed catalog. Safe. -/
  | noFormat
deriving DecidableEq, Repr

/-- The reasons a step has no meaning. -/
inductive Refusal where
  /-- Raised by `exec` for an instruction without a meaning; no instruction of this model is. Safe. -/
  | notModelled (mnemonic : String)
  /-- Raised by `State.build`, and by a decode or encode, under a catalog that fails R40 to R46 (R48). Safe. -/
  | illFormedCatalog
  /-- Raised by an encode of a value that is no instruction of the catalog: encode has no such input
  (R12, R67). Safe. -/
  | notAnInstruction
  /-- Raised by an operation on a device the host does not hold: never created, moved into the
  multiplexer (R14), or discarded (R92, D9). Safe. -/
  | deviceNotHeld
deriving DecidableEq, Repr

/-- The parameters R6 gives as defaults, with the reference catalog for the open `CATALOG` (log entry 1). -/
def defaultConfig : Config := ⟨ref13, .raw, .nothing⟩

/-- The machine right after reset (R21, R113): an empty map, and nothing asked or answered yet. -/
def State.reset : State :=
  { cfg := defaultConfig, map := [], held := [], requests := [], reply := none, draws := 0 }

end Sys2Proof.Machine
end

