-- ==== Sys2Proof/Machine/Ops.lean ====
section
/-! DEFINITION. The shared operations: returning a result or an error to the host (R102), the bytes of a
card (R13), routing and the multiplexer's map (R91, R93). -/

namespace Sys2Proof.Machine

/-! ### Returning to the host -/

/-- The operation returns `r` to the host and changes nothing else. An error is a value like any other
(R102, R109): this is all that happens on one. -/
def State.answer (s : State) (r : Result Value) : State := { s with reply := some r }

/-- The meaning every instruction shares (R3, R83): its decoded value is returned, nothing else happens. -/
def State.decoded (s : State) (v : Instruction) : Host.Outcome State Fault Refusal :=
  .next (s.answer (.ok (.instruction v)))

/-- The number of an error (R106). -/
def errorNumber : Error → Nat
  | .address => 1
  | .registration .overflow => 2
  | .registration .overlap => 3
  | .decode .noFormat => 4
  | .decode (.unknownOpcode _ _) => 5

/-- `a +? b` (R7): checked addition, no address computation wraps. -/
def checkedAdd (a b : BitVec 16) : Option (BitVec 16) :=
  if a.toNat + b.toNat ≤ 0xFFFF then some (a + b) else none

/-! ### The bytes of a card -/

/-- What an unlisted byte of a card reads as: a new card's bytes are all 0 (R13). -/
def Memory.unlisted : Byte := 0

/-- The canonical form: addresses strictly rising, and no entry equal to an unlisted byte. -/
abbrev Memory.wf (m : Memory) : Prop :=
  m.Pairwise (fun c d => c.1 < d.1) ∧ ∀ c ∈ m, c.2 ≠ Memory.unlisted

/-- `dev.buf[a]`. -/
def Memory.read : Memory → Nat → Byte
  | [], _ => Memory.unlisted
  | (k, x) :: rest, a => if k = a then x else Memory.read rest a

/-- `dev.buf[a] <- v`, keeping the canonical form. -/
def Memory.write : Memory → Nat → Byte → Memory
  | [], a, v => if v = Memory.unlisted then [] else [(a, v)]
  | (k, x) :: rest, a, v =>
    if a < k then (if v = Memory.unlisted then (k, x) :: rest else (a, v) :: (k, x) :: rest)
    else if a = k then (if v = Memory.unlisted then rest else (a, v) :: rest)
    else (k, x) :: Memory.write rest a v

/-- A card's buffer is canonical and lists no byte outside `0 .. size-1` (R13). -/
abbrev Card.wf (c : Card) : Prop := Memory.wf c.buf ∧ ∀ p ∈ c.buf, p.1 < c.size.toNat

/-- `dev.buf[a]` of a card. -/
def Card.byteAt (c : Card) (a : Nat) : Byte := Memory.read c.buf a

/-- The card with `dev.buf[a]` set to `v`. -/
def Card.setByte (c : Card) (a : Nat) (v : Byte) : Card := { c with buf := Memory.write c.buf a v }

/-! ### The map -/

/-- `base + size` as a number; under R15 (a) it is at most 0xFFFF. -/
def Entry.limit (e : Entry) : Nat := e.base.toNat + e.dev.size.toNat

/-- The entry with the greatest base at or below `addr` (R91, R93). -/
def nearestBelow : List Entry → Addr → Option Entry
  | [], _ => none
  | e :: rest, addr =>
    match nearestBelow rest addr with
    | some f => if e.base.toNat ≤ addr.toNat ∧ f.base.toNat < e.base.toNat then some e else some f
    | none => if e.base.toNat ≤ addr.toNat then some e else none

/-- The entry with the smallest base at or above `addr` (R91). -/
def nearestAbove : List Entry → Addr → Option Entry
  | [], _ => none
  | e :: rest, addr =>
    match nearestAbove rest addr with
    | some f => if addr.toNat ≤ e.base.toNat ∧ e.base.toNat < f.base.toNat then some e else some f
    | none => if addr.toNat ≤ e.base.toNat then some e else none

/-- `addr in mux.map` (R91). -/
def hasBase (map : List Entry) (addr : Addr) : Bool := map.any fun e => decide (e.base = addr)

/-- `mux.map[e.base] <- e.dev` for a new base, in order of base (R14). -/
def insertEntry : List Entry → Entry → List Entry
  | [], e => [e]
  | f :: rest, e => if e.base.toNat < f.base.toNat then e :: f :: rest else f :: insertEntry rest e

/-- The device at `base` replaced by `dev`; bases and the order stay. -/
def replaceAt (map : List Entry) (base : Addr) (dev : Card) : List Entry :=
  map.map fun e => if e.base = base then { e with dev := dev } else e

/-- The address the routed device receives (R93): the global one under RAW, the offset under OFFSET. -/
def localAddr (mode : MuxAddrMode) (base addr : Addr) : Addr :=
  match mode with
  | .raw => addr
  | .offset => addr - base

/-- `route(addr)` (R93): the entry with the greatest base at or below `addr`, and the address its device
receives; none is the AddressError of routing. Only `addr` selects the device, never `addr+1`. -/
def route (mode : MuxAddrMode) (map : List Entry) (addr : Addr) : Option (Entry × Addr) :=
  (nearestBelow map addr).map fun e => (e, localAddr mode e.base addr)

end Sys2Proof.Machine
end

