-- ==== Sys2Proof/Machine/ImmFormats.lean ====
section
/-! DEFINITION. The meanings of the formats with an immediate, F0 IntImm, F1 RatioImm and F2 Imm.
Each returns its decoded value to the host and does nothing else (R3, R83): the block performs no
control transfer, memory access, register write or flag update for any opcode. -/

namespace Sys2Proof.Machine

/-- `F0.OP0` (R70, R83). -/
def execF0Op0 (a : IntRegister) (m : Int) (s : State) : Host.Outcome State Fault Refusal :=
  s.decoded (valueF0 0 a m)

/-- `F0.OP1` (R70, R83). -/
def execF0Op1 (a : IntRegister) (m : Int) (s : State) : Host.Outcome State Fault Refusal :=
  s.decoded (valueF0 1 a m)

/-- `F0.OP2` (R70, R83). -/
def execF0Op2 (a : IntRegister) (m : Int) (s : State) : Host.Outcome State Fault Refusal :=
  s.decoded (valueF0 2 a m)

/-- `F1.OP0` (R71, R83). -/
def execF1Op0 (q : RatioRegister) (m : Int) (s : State) : Host.Outcome State Fault Refusal :=
  s.decoded (valueF1 0 q m)

/-- `F1.OP1` (R71, R83). -/
def execF1Op1 (q : RatioRegister) (m : Int) (s : State) : Host.Outcome State Fault Refusal :=
  s.decoded (valueF1 1 q m)

/-- `F1.OP2` (R71, R83). -/
def execF1Op2 (q : RatioRegister) (m : Int) (s : State) : Host.Outcome State Fault Refusal :=
  s.decoded (valueF1 2 q m)

/-- `F1.OP3` (R71, R83). -/
def execF1Op3 (q : RatioRegister) (m : Int) (s : State) : Host.Outcome State Fault Refusal :=
  s.decoded (valueF1 3 q m)

/-- `F1.OP4` (R71, R83). -/
def execF1Op4 (q : RatioRegister) (m : Int) (s : State) : Host.Outcome State Fault Refusal :=
  s.decoded (valueF1 4 q m)

/-- `F2.OP0` (R72, R83). -/
def execF2Op0 (m : Int) (s : State) : Host.Outcome State Fault Refusal :=
  s.decoded (valueF2 0 m)

/-- `F2.OP1` (R72, R83). -/
def execF2Op1 (m : Int) (s : State) : Host.Outcome State Fault Refusal :=
  s.decoded (valueF2 1 m)

/-- `F2.OP2` (R72, R83). -/
def execF2Op2 (m : Int) (s : State) : Host.Outcome State Fault Refusal :=
  s.decoded (valueF2 2 m)

/-- `F2.OP3` (R72, R83). -/
def execF2Op3 (m : Int) (s : State) : Host.Outcome State Fault Refusal :=
  s.decoded (valueF2 3 m)

/-- `F2.OP4` (R72, R83). -/
def execF2Op4 (m : Int) (s : State) : Host.Outcome State Fault Refusal :=
  s.decoded (valueF2 4 m)

/-- `F2.OP5` (R72, R83). -/
def execF2Op5 (m : Int) (s : State) : Host.Outcome State Fault Refusal :=
  s.decoded (valueF2 5 m)

end Sys2Proof.Machine
end

