-- ==== Sys2Proof/Machine/PairFormats.lean ====
section
/-! DEFINITION. The meanings of the two-register formats, F5 IntInt, F6 IntRatio, F7 RatioInt and F8 RatioRatio.
Each returns its decoded value to the host and does nothing else (R3, R83): the block performs no
control transfer, memory access, register write or flag update for any opcode. -/

namespace Sys2Proof.Machine

/-- `F5.OP0` (R75, R83). -/
def execF5Op0 (a : IntRegister) (b : IntRegister) (s : State) : Host.Outcome State Fault Refusal :=
  s.decoded (valueF5 0 a b)

/-- `F5.OP1` (R75, R83). -/
def execF5Op1 (a : IntRegister) (b : IntRegister) (s : State) : Host.Outcome State Fault Refusal :=
  s.decoded (valueF5 1 a b)

/-- `F5.OP2` (R75, R83). -/
def execF5Op2 (a : IntRegister) (b : IntRegister) (s : State) : Host.Outcome State Fault Refusal :=
  s.decoded (valueF5 2 a b)

/-- `F5.OP3` (R75, R83). -/
def execF5Op3 (a : IntRegister) (b : IntRegister) (s : State) : Host.Outcome State Fault Refusal :=
  s.decoded (valueF5 3 a b)

/-- `F5.OP4` (R75, R83). -/
def execF5Op4 (a : IntRegister) (b : IntRegister) (s : State) : Host.Outcome State Fault Refusal :=
  s.decoded (valueF5 4 a b)

/-- `F5.OP5` (R75, R83). -/
def execF5Op5 (a : IntRegister) (b : IntRegister) (s : State) : Host.Outcome State Fault Refusal :=
  s.decoded (valueF5 5 a b)

/-- `F5.OP6` (R75, R83). -/
def execF5Op6 (a : IntRegister) (b : IntRegister) (s : State) : Host.Outcome State Fault Refusal :=
  s.decoded (valueF5 6 a b)

/-- `F5.OP7` (R75, R83). -/
def execF5Op7 (a : IntRegister) (b : IntRegister) (s : State) : Host.Outcome State Fault Refusal :=
  s.decoded (valueF5 7 a b)

/-- `F5.OP8` (R75, R83). -/
def execF5Op8 (a : IntRegister) (b : IntRegister) (s : State) : Host.Outcome State Fault Refusal :=
  s.decoded (valueF5 8 a b)

/-- `F5.OP9` (R75, R83). -/
def execF5Op9 (a : IntRegister) (b : IntRegister) (s : State) : Host.Outcome State Fault Refusal :=
  s.decoded (valueF5 9 a b)

/-- `F5.OP10` (R75, R83). -/
def execF5Op10 (a : IntRegister) (b : IntRegister) (s : State) : Host.Outcome State Fault Refusal :=
  s.decoded (valueF5 10 a b)

/-- `F5.OP11` (R75, R83). -/
def execF5Op11 (a : IntRegister) (b : IntRegister) (s : State) : Host.Outcome State Fault Refusal :=
  s.decoded (valueF5 11 a b)

/-- `F6.OP0` (R76, R83). -/
def execF6Op0 (a : IntRegister) (q : RatioRegister) (s : State) : Host.Outcome State Fault Refusal :=
  s.decoded (valueF6 0 a q)

/-- `F6.OP1` (R76, R83). -/
def execF6Op1 (a : IntRegister) (q : RatioRegister) (s : State) : Host.Outcome State Fault Refusal :=
  s.decoded (valueF6 1 a q)

/-- `F6.OP2` (R76, R83). -/
def execF6Op2 (a : IntRegister) (q : RatioRegister) (s : State) : Host.Outcome State Fault Refusal :=
  s.decoded (valueF6 2 a q)

/-- `F6.OP3` (R76, R83). -/
def execF6Op3 (a : IntRegister) (q : RatioRegister) (s : State) : Host.Outcome State Fault Refusal :=
  s.decoded (valueF6 3 a q)

/-- `F7.OP0` (R77, R83). -/
def execF7Op0 (q : RatioRegister) (a : IntRegister) (s : State) : Host.Outcome State Fault Refusal :=
  s.decoded (valueF7 0 q a)

/-- `F7.OP1` (R77, R83). -/
def execF7Op1 (q : RatioRegister) (a : IntRegister) (s : State) : Host.Outcome State Fault Refusal :=
  s.decoded (valueF7 1 q a)

/-- `F7.OP2` (R77, R83). -/
def execF7Op2 (q : RatioRegister) (a : IntRegister) (s : State) : Host.Outcome State Fault Refusal :=
  s.decoded (valueF7 2 q a)

/-- `F7.OP3` (R77, R83). -/
def execF7Op3 (q : RatioRegister) (a : IntRegister) (s : State) : Host.Outcome State Fault Refusal :=
  s.decoded (valueF7 3 q a)

/-- `F8.OP0` (R78, R83). -/
def execF8Op0 (q : RatioRegister) (r : RatioRegister) (s : State) : Host.Outcome State Fault Refusal :=
  s.decoded (valueF8 0 q r)

/-- `F8.OP1` (R78, R83). -/
def execF8Op1 (q : RatioRegister) (r : RatioRegister) (s : State) : Host.Outcome State Fault Refusal :=
  s.decoded (valueF8 1 q r)

/-- `F8.OP2` (R78, R83). -/
def execF8Op2 (q : RatioRegister) (r : RatioRegister) (s : State) : Host.Outcome State Fault Refusal :=
  s.decoded (valueF8 2 q r)

/-- `F8.OP3` (R78, R83). -/
def execF8Op3 (q : RatioRegister) (r : RatioRegister) (s : State) : Host.Outcome State Fault Refusal :=
  s.decoded (valueF8 3 q r)

/-- `F8.OP4` (R78, R83). -/
def execF8Op4 (q : RatioRegister) (r : RatioRegister) (s : State) : Host.Outcome State Fault Refusal :=
  s.decoded (valueF8 4 q r)

/-- `F8.OP5` (R78, R83). -/
def execF8Op5 (q : RatioRegister) (r : RatioRegister) (s : State) : Host.Outcome State Fault Refusal :=
  s.decoded (valueF8 5 q r)

end Sys2Proof.Machine
end

