-- ==== Sys2Proof/Machine/SingleFormats.lean ====
section
/-! DEFINITION. The meanings of the formats with one register or none, F9 Int, F10 Ratio and F12 Nullary.
Each returns its decoded value to the host and does nothing else (R3, R83): the block performs no
control transfer, memory access, register write or flag update for any opcode. -/

namespace Sys2Proof.Machine

/-- `F9.OP0` (R79, R83). -/
def execF9Op0 (a : IntRegister) (s : State) : Host.Outcome State Fault Refusal :=
  s.decoded (valueF9 0 a)

/-- `F9.OP1` (R79, R83). -/
def execF9Op1 (a : IntRegister) (s : State) : Host.Outcome State Fault Refusal :=
  s.decoded (valueF9 1 a)

/-- `F9.OP2` (R79, R83). -/
def execF9Op2 (a : IntRegister) (s : State) : Host.Outcome State Fault Refusal :=
  s.decoded (valueF9 2 a)

/-- `F9.OP3` (R79, R83). -/
def execF9Op3 (a : IntRegister) (s : State) : Host.Outcome State Fault Refusal :=
  s.decoded (valueF9 3 a)

/-- `F9.OP4` (R79, R83). -/
def execF9Op4 (a : IntRegister) (s : State) : Host.Outcome State Fault Refusal :=
  s.decoded (valueF9 4 a)

/-- `F9.OP5` (R79, R83). -/
def execF9Op5 (a : IntRegister) (s : State) : Host.Outcome State Fault Refusal :=
  s.decoded (valueF9 5 a)

/-- `F9.OP6` (R79, R83). -/
def execF9Op6 (a : IntRegister) (s : State) : Host.Outcome State Fault Refusal :=
  s.decoded (valueF9 6 a)

/-- `F9.OP7` (R79, R83). -/
def execF9Op7 (a : IntRegister) (s : State) : Host.Outcome State Fault Refusal :=
  s.decoded (valueF9 7 a)

/-- `F10.OP0` (R80, R83). -/
def execF10Op0 (q : RatioRegister) (s : State) : Host.Outcome State Fault Refusal :=
  s.decoded (valueF10 0 q)

/-- `F10.OP1` (R80, R83). -/
def execF10Op1 (q : RatioRegister) (s : State) : Host.Outcome State Fault Refusal :=
  s.decoded (valueF10 1 q)

/-- `F10.OP2` (R80, R83). -/
def execF10Op2 (q : RatioRegister) (s : State) : Host.Outcome State Fault Refusal :=
  s.decoded (valueF10 2 q)

/-- `F10.OP3` (R80, R83). -/
def execF10Op3 (q : RatioRegister) (s : State) : Host.Outcome State Fault Refusal :=
  s.decoded (valueF10 3 q)

/-- `F12.OP0` (R82, R83). -/
def execF12Op0 (s : State) : Host.Outcome State Fault Refusal :=
  s.decoded (valueF12 0)

/-- `F12.OP1` (R82, R83). -/
def execF12Op1 (s : State) : Host.Outcome State Fault Refusal :=
  s.decoded (valueF12 1)

/-- `F12.OP2` (R82, R83). -/
def execF12Op2 (s : State) : Host.Outcome State Fault Refusal :=
  s.decoded (valueF12 2)

/-- `F12.OP3` (R82, R83). -/
def execF12Op3 (s : State) : Host.Outcome State Fault Refusal :=
  s.decoded (valueF12 3)

end Sys2Proof.Machine
end

