-- ==== Sys2Proof/Machine/TripleFormats.lean ====
section
/-! DEFINITION. The meanings of the three-register formats, F3 IntIntInt, F4 RatioRatioRatio and F11 IntIntRatio.
Each returns its decoded value to the host and does nothing else (R3, R83): the block performs no
control transfer, memory access, register write or flag update for any opcode. -/

namespace Sys2Proof.Machine

/-- `F3.OP0` (R73, R83). -/
def execF3Op0 (a : IntRegister) (b : IntRegister) (c : IntRegister) (s : State) : Host.Outcome State Fault Refusal :=
  s.decoded (valueF3 0 a b c)

/-- `F3.OP1` (R73, R83). -/
def execF3Op1 (a : IntRegister) (b : IntRegister) (c : IntRegister) (s : State) : Host.Outcome State Fault Refusal :=
  s.decoded (valueF3 1 a b c)

/-- `F3.OP2` (R73, R83). -/
def execF3Op2 (a : IntRegister) (b : IntRegister) (c : IntRegister) (s : State) : Host.Outcome State Fault Refusal :=
  s.decoded (valueF3 2 a b c)

/-- `F3.OP3` (R73, R83). -/
def execF3Op3 (a : IntRegister) (b : IntRegister) (c : IntRegister) (s : State) : Host.Outcome State Fault Refusal :=
  s.decoded (valueF3 3 a b c)

/-- `F3.OP4` (R73, R83). -/
def execF3Op4 (a : IntRegister) (b : IntRegister) (c : IntRegister) (s : State) : Host.Outcome State Fault Refusal :=
  s.decoded (valueF3 4 a b c)

/-- `F3.OP5` (R73, R83). -/
def execF3Op5 (a : IntRegister) (b : IntRegister) (c : IntRegister) (s : State) : Host.Outcome State Fault Refusal :=
  s.decoded (valueF3 5 a b c)

/-- `F3.OP6` (R73, R83). -/
def execF3Op6 (a : IntRegister) (b : IntRegister) (c : IntRegister) (s : State) : Host.Outcome State Fault Refusal :=
  s.decoded (valueF3 6 a b c)

/-- `F3.OP7` (R73, R83). -/
def execF3Op7 (a : IntRegister) (b : IntRegister) (c : IntRegister) (s : State) : Host.Outcome State Fault Refusal :=
  s.decoded (valueF3 7 a b c)

/-- `F3.OP8` (R73, R83). -/
def execF3Op8 (a : IntRegister) (b : IntRegister) (c : IntRegister) (s : State) : Host.Outcome State Fault Refusal :=
  s.decoded (valueF3 8 a b c)

/-- `F3.OP9` (R73, R83). -/
def execF3Op9 (a : IntRegister) (b : IntRegister) (c : IntRegister) (s : State) : Host.Outcome State Fault Refusal :=
  s.decoded (valueF3 9 a b c)

/-- `F4.OP0` (R74, R83). -/
def execF4Op0 (q : RatioRegister) (r : RatioRegister) (u : RatioRegister) (s : State) : Host.Outcome State Fault Refusal :=
  s.decoded (valueF4 0 q r u)

/-- `F4.OP1` (R74, R83). -/
def execF4Op1 (q : RatioRegister) (r : RatioRegister) (u : RatioRegister) (s : State) : Host.Outcome State Fault Refusal :=
  s.decoded (valueF4 1 q r u)

/-- `F4.OP2` (R74, R83). -/
def execF4Op2 (q : RatioRegister) (r : RatioRegister) (u : RatioRegister) (s : State) : Host.Outcome State Fault Refusal :=
  s.decoded (valueF4 2 q r u)

/-- `F4.OP3` (R74, R83). -/
def execF4Op3 (q : RatioRegister) (r : RatioRegister) (u : RatioRegister) (s : State) : Host.Outcome State Fault Refusal :=
  s.decoded (valueF4 3 q r u)

/-- `F4.OP4` (R74, R83). -/
def execF4Op4 (q : RatioRegister) (r : RatioRegister) (u : RatioRegister) (s : State) : Host.Outcome State Fault Refusal :=
  s.decoded (valueF4 4 q r u)

/-- `F4.OP5` (R74, R83). -/
def execF4Op5 (q : RatioRegister) (r : RatioRegister) (u : RatioRegister) (s : State) : Host.Outcome State Fault Refusal :=
  s.decoded (valueF4 5 q r u)

/-- `F4.OP6` (R74, R83). -/
def execF4Op6 (q : RatioRegister) (r : RatioRegister) (u : RatioRegister) (s : State) : Host.Outcome State Fault Refusal :=
  s.decoded (valueF4 6 q r u)

/-- `F4.OP7` (R74, R83). -/
def execF4Op7 (q : RatioRegister) (r : RatioRegister) (u : RatioRegister) (s : State) : Host.Outcome State Fault Refusal :=
  s.decoded (valueF4 7 q r u)

/-- `F11.OP0` (R81, R83). -/
def execF11Op0 (a : IntRegister) (b : IntRegister) (q : RatioRegister) (s : State) : Host.Outcome State Fault Refusal :=
  s.decoded (valueF11 0 a b q)

/-- `F11.OP1` (R81, R83). -/
def execF11Op1 (a : IntRegister) (b : IntRegister) (q : RatioRegister) (s : State) : Host.Outcome State Fault Refusal :=
  s.decoded (valueF11 1 a b q)

end Sys2Proof.Machine
end

