-- ==== Sys2Proof/Machine/Dispatch.lean ====
section
/-! DEFINITION. Which meaning each instruction has: one arm per constructor of `Instr`. -/

namespace Sys2Proof.Machine

def exec (i : Instr) (s : State) : Host.Outcome State Fault Refusal :=
  match i with
  -- F0 IntImm (R70)
  | .f0op0 a m => Sys2Proof.Machine.execF0Op0 a m s
  | .f0op1 a m => Sys2Proof.Machine.execF0Op1 a m s
  | .f0op2 a m => Sys2Proof.Machine.execF0Op2 a m s
  -- F1 RatioImm (R71)
  | .f1op0 q m => Sys2Proof.Machine.execF1Op0 q m s
  | .f1op1 q m => Sys2Proof.Machine.execF1Op1 q m s
  | .f1op2 q m => Sys2Proof.Machine.execF1Op2 q m s
  | .f1op3 q m => Sys2Proof.Machine.execF1Op3 q m s
  | .f1op4 q m => Sys2Proof.Machine.execF1Op4 q m s
  -- F2 Imm (R72)
  | .f2op0 m => Sys2Proof.Machine.execF2Op0 m s
  | .f2op1 m => Sys2Proof.Machine.execF2Op1 m s
  | .f2op2 m => Sys2Proof.Machine.execF2Op2 m s
  | .f2op3 m => Sys2Proof.Machine.execF2Op3 m s
  | .f2op4 m => Sys2Proof.Machine.execF2Op4 m s
  | .f2op5 m => Sys2Proof.Machine.execF2Op5 m s
  -- F3 IntIntInt (R73)
  | .f3op0 a b c => Sys2Proof.Machine.execF3Op0 a b c s
  | .f3op1 a b c => Sys2Proof.Machine.execF3Op1 a b c s
  | .f3op2 a b c => Sys2Proof.Machine.execF3Op2 a b c s
  | .f3op3 a b c => Sys2Proof.Machine.execF3Op3 a b c s
  | .f3op4 a b c => Sys2Proof.Machine.execF3Op4 a b c s
  | .f3op5 a b c => Sys2Proof.Machine.execF3Op5 a b c s
  | .f3op6 a b c => Sys2Proof.Machine.execF3Op6 a b c s
  | .f3op7 a b c => Sys2Proof.Machine.execF3Op7 a b c s
  | .f3op8 a b c => Sys2Proof.Machine.execF3Op8 a b c s
  | .f3op9 a b c => Sys2Proof.Machine.execF3Op9 a b c s
  -- F4 RatioRatioRatio (R74)
  | .f4op0 q r u => Sys2Proof.Machine.execF4Op0 q r u s
  | .f4op1 q r u => Sys2Proof.Machine.execF4Op1 q r u s
  | .f4op2 q r u => Sys2Proof.Machine.execF4Op2 q r u s
  | .f4op3 q r u => Sys2Proof.Machine.execF4Op3 q r u s
  | .f4op4 q r u => Sys2Proof.Machine.execF4Op4 q r u s
  | .f4op5 q r u => Sys2Proof.Machine.execF4Op5 q r u s
  | .f4op6 q r u => Sys2Proof.Machine.execF4Op6 q r u s
  | .f4op7 q r u => Sys2Proof.Machine.execF4Op7 q r u s
  -- F5 IntInt (R75)
  | .f5op0 a b => Sys2Proof.Machine.execF5Op0 a b s
  | .f5op1 a b => Sys2Proof.Machine.execF5Op1 a b s
  | .f5op2 a b => Sys2Proof.Machine.execF5Op2 a b s
  | .f5op3 a b => Sys2Proof.Machine.execF5Op3 a b s
  | .f5op4 a b => Sys2Proof.Machine.execF5Op4 a b s
  | .f5op5 a b => Sys2Proof.Machine.execF5Op5 a b s
  | .f5op6 a b => Sys2Proof.Machine.execF5Op6 a b s
  | .f5op7 a b => Sys2Proof.Machine.execF5Op7 a b s
  | .f5op8 a b => Sys2Proof.Machine.execF5Op8 a b s
  | .f5op9 a b => Sys2Proof.Machine.execF5Op9 a b s
  | .f5op10 a b => Sys2Proof.Machine.execF5Op10 a b s
  | .f5op11 a b => Sys2Proof.Machine.execF5Op11 a b s
  -- F6 IntRatio (R76)
  | .f6op0 a q => Sys2Proof.Machine.execF6Op0 a q s
  | .f6op1 a q => Sys2Proof.Machine.execF6Op1 a q s
  | .f6op2 a q => Sys2Proof.Machine.execF6Op2 a q s
  | .f6op3 a q => Sys2Proof.Machine.execF6Op3 a q s
  -- F7 RatioInt (R77)
  | .f7op0 q a => Sys2Proof.Machine.execF7Op0 q a s
  | .f7op1 q a => Sys2Proof.Machine.execF7Op1 q a s
  | .f7op2 q a => Sys2Proof.Machine.execF7Op2 q a s
  | .f7op3 q a => Sys2Proof.Machine.execF7Op3 q a s
  -- F8 RatioRatio (R78)
  | .f8op0 q r => Sys2Proof.Machine.execF8Op0 q r s
  | .f8op1 q r => Sys2Proof.Machine.execF8Op1 q r s
  | .f8op2 q r => Sys2Proof.Machine.execF8Op2 q r s
  | .f8op3 q r => Sys2Proof.Machine.execF8Op3 q r s
  | .f8op4 q r => Sys2Proof.Machine.execF8Op4 q r s
  | .f8op5 q r => Sys2Proof.Machine.execF8Op5 q r s
  -- F9 Int (R79)
  | .f9op0 a => Sys2Proof.Machine.execF9Op0 a s
  | .f9op1 a => Sys2Proof.Machine.execF9Op1 a s
  | .f9op2 a => Sys2Proof.Machine.execF9Op2 a s
  | .f9op3 a => Sys2Proof.Machine.execF9Op3 a s
  | .f9op4 a => Sys2Proof.Machine.execF9Op4 a s
  | .f9op5 a => Sys2Proof.Machine.execF9Op5 a s
  | .f9op6 a => Sys2Proof.Machine.execF9Op6 a s
  | .f9op7 a => Sys2Proof.Machine.execF9Op7 a s
  -- F10 Ratio (R80)
  | .f10op0 q => Sys2Proof.Machine.execF10Op0 q s
  | .f10op1 q => Sys2Proof.Machine.execF10Op1 q s
  | .f10op2 q => Sys2Proof.Machine.execF10Op2 q s
  | .f10op3 q => Sys2Proof.Machine.execF10Op3 q s
  -- F11 IntIntRatio (R81)
  | .f11op0 a b q => Sys2Proof.Machine.execF11Op0 a b q s
  | .f11op1 a b q => Sys2Proof.Machine.execF11Op1 a b q s
  -- F12 Nullary (R82)
  | .f12op0 => Sys2Proof.Machine.execF12Op0 s
  | .f12op1 => Sys2Proof.Machine.execF12Op1 s
  | .f12op2 => Sys2Proof.Machine.execF12Op2 s
  | .f12op3 => Sys2Proof.Machine.execF12Op3 s

end Sys2Proof.Machine
end

