-- ==== Sys2Proof/Machine/Device.lean ====
section
/-! DEFINITION. The Virtual Memory Card (R84 to R90): its operations as functions of the card, and the
same operations as the host calls them on a card it still holds. -/

namespace Sys2Proof.Machine

/-- `VirtualMemoryCard::new(size)` (R89): every byte is 0. -/
def Card.new (size : BitVec 16) : Card := ⟨size, []⟩

/-- `dev.read_byte(a)` (R85). -/
def Card.readByte (c : Card) (a : Addr) : Result Byte :=
  if c.size.toNat ≤ a.toNat then .err .address else .ok (c.byteAt a.toNat)

/-- The two conditions under which a word access fails (R86, R88): `a+1` leaves the 16-bit domain, or a
byte is out of bounds. -/
def Card.wordFails (c : Card) (a : Addr) : Bool :=
  decide (a.toNat = 0xFFFF) || decide (c.size.toNat ≤ a.toNat) || decide (c.size.toNat ≤ a.toNat + 1)

/-- `dev.read_word(a)` (R86), little-endian (R22). -/
def Card.readWord (c : Card) (a : Addr) : Result Word :=
  if c.wordFails a then .err .address
  else .ok (wordOfBytes (c.byteAt a.toNat) (c.byteAt (a.toNat + 1)))

/-- `dev.write_byte(a, v)` (R87): the card after it, or the error with the card as it was. -/
def Card.writeByte (c : Card) (a : Addr) (v : Byte) : Result Card :=
  if c.size.toNat ≤ a.toNat then .err .address else .ok (c.setByte a.toNat v)

/-- A failing `write_word` at `a` draws a free value (R88): under LOW_MAY_BE_WRITTEN, when the low byte
is in bounds. -/
def Card.drawsAt (eff : WordWriteFailEffect) (c : Card) (a : Addr) : Bool :=
  match eff with
  | .nothing => false
  | .lowMayBeWritten => c.wordFails a && decide (a.toNat < c.size.toNat)

/-- `dev.write_word(a, v)` (R88): the card afterwards and the result. `draw` says whether a failing write
that draws has written its low byte. -/
def Card.writeWord (eff : WordWriteFailEffect) (draw : Bool) (c : Card) (a : Addr) (v : Word) :
    Card × Result Unit :=
  if c.wordFails a then
    (if c.drawsAt eff a && draw then c.setByte a.toNat (lo8 v) else c, .err .address)
  else ((c.setByte a.toNat (lo8 v)).setByte (a.toNat + 1) (hi8 v), .ok ())

/-- The free value the next draw of this run gives (I5). -/
def State.nextDraw (s : State) : Bool := Config.lowByteWritten s.draws

/-- One draw taken, if the access drew. -/
def State.countDraw (s : State) (drew : Bool) : State :=
  if drew then { s with draws := s.draws + 1 } else s

/-! ### The host's calls on a card it holds -/

/-- The card in the host's slot, if it still holds one. -/
def State.heldCard (s : State) (slot : Nat) : Option Card := (s.held[slot]?).join

/-- The slot's card is replaced, or the slot emptied. -/
def State.setHeld (s : State) (slot : Nat) (c : Option Card) : State :=
  { s with held := s.held.set slot c }

/-- Run `f` on the card in the slot; a device the host does not hold has no operation (R14, D9). -/
def State.withHeld (s : State) (slot : Nat) (f : Card → State) : Host.Outcome State Fault Refusal :=
  match s.heldCard slot with
  | some c => .next (f c)
  | none => .refused .deviceNotHeld

/-- `VirtualMemoryCard::new(size)` (R89): the host holds the new card in a new slot, whose name it gets. -/
def hostCardNew (size : BitVec 16) (s : State) : Host.Outcome State Fault Refusal :=
  .next ({ s with held := s.held ++ [some (Card.new size)] }.answer (.ok (.slot s.held.length)))

/-- `dev.size()` (R84). -/
def hostCardSize (slot : Nat) (s : State) : Host.Outcome State Fault Refusal :=
  s.withHeld slot fun c => s.answer (.ok (.size c.size))

/-- `dev.read_byte(a)` (R85). -/
def hostCardReadByte (slot : Nat) (a : Addr) (s : State) : Host.Outcome State Fault Refusal :=
  s.withHeld slot fun c => s.answer ((c.readByte a).map .byte)

/-- `dev.read_word(a)` (R86). -/
def hostCardReadWord (slot : Nat) (a : Addr) (s : State) : Host.Outcome State Fault Refusal :=
  s.withHeld slot fun c => s.answer ((c.readWord a).map .word)

/-- `dev.write_byte(a, v)` (R87). -/
def hostCardWriteByte (slot : Nat) (a : Addr) (v : Byte) (s : State) :
    Host.Outcome State Fault Refusal :=
  s.withHeld slot fun c =>
    match c.writeByte a v with
    | .ok c' => (s.setHeld slot (some c')).answer (.ok .unit)
    | .err e => s.answer (.err e)

/-- `dev.write_word(a, v)` (R88). -/
def hostCardWriteWord (slot : Nat) (a : Addr) (v : Word) (s : State) :
    Host.Outcome State Fault Refusal :=
  s.withHeld slot fun c =>
    let r := c.writeWord s.cfg.failEffect s.nextDraw a v
    ((s.setHeld slot (some r.1)).countDraw (c.drawsAt s.cfg.failEffect a)).answer
      (r.2.map fun _ => .unit)

end Sys2Proof.Machine
end

