-- ==== Sys2Proof/Machine/Multiplexer.lean ====
section
/-! DEFINITION. The memory multiplexer (R91 to R101): registration with its four checks, the routed
accesses, and creation (R98), which is reset (R113). -/

namespace Sys2Proof.Machine

/-- `mux.add_device(addr, dev)` on a map (R91): the checks in the rule's order (R107), then the insert. -/
def registerDevice (map : List Entry) (addr : Addr) (dev : Card) : Result (List Entry) :=
  match checkedAdd addr dev.size with
  | none => .err (.registration .overflow)
  | some limit =>
    if hasBase map addr then .err (.registration .overlap)
    else if (nearestBelow map addr).any (fun e => decide (addr.toNat < e.limit)) then
      .err (.registration .overlap)
    else if (nearestAbove map addr).any (fun e => decide (e.base.toNat < limit.toNat)) then
      .err (.registration .overlap)
    else .ok (insertEntry map ⟨addr, dev⟩)

/-- `mux.read_byte(addr)` on a map (R94). -/
def muxReadByte (mode : MuxAddrMode) (map : List Entry) (addr : Addr) : Result Byte :=
  match route mode map addr with
  | none => .err .address
  | some (e, a) => e.dev.readByte a

/-- `mux.read_word(addr)` on a map (R95). -/
def muxReadWord (mode : MuxAddrMode) (map : List Entry) (addr : Addr) : Result Word :=
  match route mode map addr with
  | none => .err .address
  | some (e, a) => e.dev.readWord a

/-- What reading the byte at a global address gives in a state (R94). -/
def State.byteAt (s : State) (addr : Addr) : Result Byte := muxReadByte s.cfg.addrMode s.map addr

/-- `mux.add_device(addr, dev)` (R91): the card moves out of the host's slot; a rejected one is
discarded and the map stays as it was (R92, D9). -/
def hostAddDevice (addr : Addr) (slot : Nat) (s : State) : Host.Outcome State Fault Refusal :=
  s.withHeld slot fun c =>
    match registerDevice s.map addr c with
    | .ok map => { s.setHeld slot none with map := map }.answer (.ok .unit)
    | .err e => (s.setHeld slot none).answer (.err e)

/-- `mux.read_byte(addr)` (R94). -/
def hostReadByte (addr : Addr) (s : State) : Host.Outcome State Fault Refusal :=
  .next (s.answer ((s.byteAt addr).map .byte))

/-- `mux.read_word(addr)` (R95). -/
def hostReadWord (addr : Addr) (s : State) : Host.Outcome State Fault Refusal :=
  .next (s.answer ((muxReadWord s.cfg.addrMode s.map addr).map .word))

/-- `mux.write_byte(addr, v)` (R96). -/
def hostWriteByte (addr : Addr) (v : Byte) (s : State) : Host.Outcome State Fault Refusal :=
  match route s.cfg.addrMode s.map addr with
  | none => .next (s.answer (.err .address))
  | some (e, a) =>
    match e.dev.writeByte a v with
    | .ok c => .next ({ s with map := replaceAt s.map e.base c }.answer (.ok .unit))
    | .err x => .next (s.answer (.err x))

/-- `mux.write_word(addr, v)` (R97). -/
def hostWriteWord (addr : Addr) (v : Word) (s : State) : Host.Outcome State Fault Refusal :=
  match route s.cfg.addrMode s.map addr with
  | none => .next (s.answer (.err .address))
  | some (e, a) =>
    let r := e.dev.writeWord s.cfg.failEffect s.nextDraw a v
    .next (({ s with map := replaceAt s.map e.base r.1 }.countDraw
      (e.dev.drawsAt s.cfg.failEffect a)).answer (r.2.map fun _ => .unit))

/-- `MemoryMultiplexer::new()` (R98, R113): an empty map. The cards the host still holds keep their
bytes (R114); the former multiplexer goes with the cards it owned (log entry 6). -/
def hostMuxNew (s : State) : Host.Outcome State Fault Refusal :=
  .next ({ s with map := [] }.answer (.ok .unit))

end Sys2Proof.Machine
end

