-- ==== Sys2Proof/Machine/Perform.lean ====
section
/-! DEFINITION. What each operation the host issues does, the register-code converters and the codec
among them, and how a block is built (R115). -/

namespace Sys2Proof.Machine

/-- `IntRegister::code(r)` (R57). -/
def hostIntCode (r : IntRegister) (s : State) : Host.Outcome State Fault Refusal :=
  .next (s.answer (.ok (.intCode r.code)))

/-- `IntRegister::from_code(x)` (R58); `None` is a result value, not an error. -/
def hostIntFromCode (x : Byte) (s : State) : Host.Outcome State Fault Refusal :=
  .next (s.answer (.ok (.intRegister (IntRegister.fromCode x))))

/-- `RatioRegister::code(q)` (R59). -/
def hostRatioCode (q : RatioRegister) (s : State) : Host.Outcome State Fault Refusal :=
  .next (s.answer (.ok (.ratioCode q.code)))

/-- `RatioRegister::from_code(x)` (R60). -/
def hostRatioFromCode (x : Byte) (s : State) : Host.Outcome State Fault Refusal :=
  .next (s.answer (.ok (.ratioRegister (RatioRegister.fromCode x))))

/-- What a failing decode does: an `UnknownOpcode` is returned to the host (R104); reaching `NoFormat` is
a fault (D20, I3). -/
def decodeFails (e : Error) (s : State) : Host.Outcome State Fault Refusal :=
  match e with
  | .decode .noFormat => .fault .noFormat
  | e => .next (s.answer (.err e))

/-- `decode(w)` under the reference catalog: the typed decoder, and the meaning of what it reads. -/
def decodeRef13 (w : Word) (s : State) : Host.Outcome State Fault Refusal :=
  match decode w with
  | .ok i => exec i s
  | .err e => decodeFails e s

/-- `decode(w)` under any other well-formed catalog (R62). -/
def decodeCatalog (w : Word) (s : State) : Host.Outcome State Fault Refusal :=
  match s.cfg.catalog.decode w with
  | .ok v => s.decoded v
  | .err e => decodeFails e s

/-- `decode(w)` (R62). REF13 is well-formed (R55), and its instructions are the constructors of `Instr`;
under another catalog the decoded value is returned as R12 writes it. An ill-formed catalog is
refused (R48). -/
def hostDecode (w : Word) (s : State) : Host.Outcome State Fault Refusal :=
  if s.cfg.catalog = ref13 then decodeRef13 w s
  else if s.cfg.catalog.wf then decodeCatalog w s
  else .refused .illFormedCatalog

/-- `encode(i)` (R67), refused under an ill-formed catalog (R48) and for a value that is no instruction
of the catalog (R12). -/
def hostEncode (i : Instruction) (s : State) : Host.Outcome State Fault Refusal :=
  if s.cfg.catalog.wf then
    match s.cfg.catalog.encode i with
    | some w => .next (s.answer (.ok (.word w)))
    | none => .refused .notAnInstruction
  else .refused .illFormedCatalog

/-- One operation of the host, an indivisible step (R28). -/
def perform (r : Request) (s : State) : Host.Outcome State Fault Refusal :=
  match r with
  | .intCode r => hostIntCode r s
  | .intFromCode x => hostIntFromCode x s
  | .ratioCode q => hostRatioCode q s
  | .ratioFromCode x => hostRatioFromCode x s
  | .decode w => hostDecode w s
  | .encode i => hostEncode i s
  | .cardNew size => hostCardNew size s
  | .cardSize slot => hostCardSize slot s
  | .cardReadByte slot a => hostCardReadByte slot a s
  | .cardReadWord slot a => hostCardReadWord slot a s
  | .cardWriteByte slot a v => hostCardWriteByte slot a v s
  | .cardWriteWord slot a v => hostCardWriteWord slot a v s
  | .muxNew => hostMuxNew s
  | .addDevice addr slot => hostAddDevice addr slot s
  | .readByte addr => hostReadByte addr s
  | .readWord addr => hostReadWord addr s
  | .writeByte addr v => hostWriteByte addr v s
  | .writeWord addr v => hostWriteWord addr v s

/-- The next operation of the host is taken and performed; with none issued nothing happens (R110). -/
def performNext (s : State) : Host.Outcome State Fault Refusal :=
  match s.requests with
  | [] => .next s
  | r :: rest => perform r { s with requests := rest }

/-- Building the block with its parameters (R115): an ill-formed catalog is refused (R48, D20). -/
def State.build (cfg : Config) : Host.Outcome State Fault Refusal :=
  if cfg.catalog.wf then .next { State.reset with cfg := cfg } else .refused .illFormedCatalog

/-- The state in which the host asks next for the decode of `w` under the reference catalog. -/
def State.issueDecode (s : State) (w : Word) : State :=
  { s with cfg := { s.cfg with catalog := ref13 }, requests := .decode w :: s.requests }

end Sys2Proof.Machine
end

