-- ==== Sys2Proof/Machine/Step.lean ====
section
/-! DEFINITION. One step: the next operation of the host, whole (R28, R118). -/

namespace Sys2Proof.Machine

/-- One step (R28): the block takes the host's next operation, if there is one, and performs it. -/
def step (s : State) : Host.Outcome State Fault Refusal := performNext s

/-- The instruction word `w` placed where the next step takes its instruction from: an instruction word
reaches the decoder as the argument of a decode the host issues (R17), so that is the host's next
operation, under the catalog whose table numbers the bits (log entry 7). -/
def State.withFetchWord (s : State) (nbits w : Nat) : State :=
  s.issueDecode (BitVec.ofNat 16 (w % 2 ^ nbits))

end Sys2Proof.Machine
end

