-- ==== Sys2Proof/Safety.lean ====
section
/-! DEFINITION. What counts as a good state (R13, R15, R48) and as an operation the host can issue. -/

namespace Sys2Proof.Machine

/-- R15: (a) no entry passes 0xFFFF, and in order of base each entry ends at or before the next (c), so
that (b) the ranges are disjoint and no base appears twice. -/
abbrev mapOk (map : List Entry) : Prop :=
  (∀ e ∈ map, e.limit ≤ 0xFFFF) ∧
    map.Pairwise fun e f => e.base.toNat < f.base.toNat ∧ e.limit ≤ f.base.toNat

/-- The state is one a run can be in: a well-formed catalog (R48), a map that meets R15, and every
card's bytes in canonical form and inside the card (R13). -/
structure State.Inv (s : State) : Prop where
  catalog : s.cfg.catalog.wf = true
  map     : mapOk s.map
  cards   : ∀ e ∈ s.map, e.dev.wf
  held    : ∀ c ∈ s.held, ∀ d ∈ c, d.wf

/-- The state `s` in which the host's next operation is `r`; every state with an operation issued is of
this form. -/
def State.asks (s : State) (r : Request) : State := { s with requests := r :: s.requests }

/-- The host can issue the operation: it names a device it holds (R14, D9), and encodes only an
instruction of the catalog (R12). -/
def Request.legal (s : State) : Request → Bool
  | .encode i => s.cfg.catalog.admits i
  | .cardSize slot | .cardReadByte slot _ | .cardReadWord slot _ | .cardWriteByte slot _ _
  | .cardWriteWord slot _ _ | .addDevice _ slot => (s.heldCard slot).isSome
  | .intCode _ | .intFromCode _ | .ratioCode _ | .ratioFromCode _ | .decode _ | .cardNew _ | .muxNew
  | .readByte _ | .readWord _ | .writeByte _ _ | .writeWord _ _ => true

/-- `n` steps lead from `s` to `t`. -/
def stepsTo : Nat → State → State → Prop
  | 0, s, t => s = t
  | n + 1, s, t => ∃ u, step s = .next u ∧ stepsTo n u t

/-- A safe step: whatever the host can issue next is performed, and the state stays a good one. -/
def State.safeStep (s : State) (r : Request) : Prop := ∃ t, step (s.asks r) = .next t ∧ t.Inv

end Sys2Proof.Machine
end

