-- ==== Sys2Proof/Certificates/Slice0/Obligations.lean ====
section
/-! DEFINITION. The statements for the provers. -/

open Sys2Proof Sys2Proof.Machine

/-! ### Register codes (R57 to R61) -/

/-- R58. `from_code` of an integer-register code: the register with that code below 8, `None` from 8 on. -/
def Obligations.IntRegisterFromCode : Prop :=
  ∀ (s : State) (x : Byte),
    (x.toNat < 8 → ∃ r : IntRegister, r.code.toNat = x.toNat ∧
      step (s.asks (.intFromCode x)) = .next (s.answer (.ok (.intRegister (some r))))) ∧
    (8 ≤ x.toNat →
      step (s.asks (.intFromCode x)) = .next (s.answer (.ok (.intRegister none))))

/-- R60. `from_code` of a ratio-register code: the register with that code below 4, `None` from 4 on. -/
def Obligations.RatioRegisterFromCode : Prop :=
  ∀ (s : State) (x : Byte),
    (x.toNat < 4 → ∃ q : RatioRegister, q.code.toNat = x.toNat ∧
      step (s.asks (.ratioFromCode x)) = .next (s.answer (.ok (.ratioRegister (some q))))) ∧
    (4 ≤ x.toNat →
      step (s.asks (.ratioFromCode x)) = .next (s.answer (.ok (.ratioRegister none))))

/-- R57, R59, R61. `code` returns a register's code, the codes are onto, and `code` and `from_code` are
inverse in both directions. -/
def Obligations.RegisterCodesInvert : Prop :=
  (∀ (s : State) (r : IntRegister),
    step (s.asks (.intCode r)) = .next (s.answer (.ok (.intCode r.code)))) ∧
  (∀ (s : State) (q : RatioRegister),
    step (s.asks (.ratioCode q)) = .next (s.answer (.ok (.ratioCode q.code)))) ∧
  [IntRegister.I0, .I1, .I2, .I3, .I4, .I5, .I6, .I7].map (·.code.toNat) = [0, 1, 2, 3, 4, 5, 6, 7] ∧
  [RatioRegister.Q0, .Q1, .Q2, .Q3].map (·.code.toNat) = [0, 1, 2, 3] ∧
  (∀ r : IntRegister, IntRegister.fromCode (r.code.setWidth 8) = some r) ∧
  (∀ q : RatioRegister, RatioRegister.fromCode (q.code.setWidth 8) = some q) ∧
  (∀ (x : Byte) (r : IntRegister), IntRegister.fromCode x = some r → r.code.toNat = x.toNat) ∧
  (∀ (x : Byte) (q : RatioRegister), RatioRegister.fromCode x = some q → q.code.toNat = x.toNat)

/-! ### The codec over any well-formed catalog (R37 to R53, R62 to R69) -/

/-- R47, an inference the spec marks as its own (from R40 to R42). Every prefix of a
well-formed catalog has 1 to 16 bits. -/
def Obligations.PrefixWidthsAreOneToSixteen : Prop :=
  ∀ cat : Catalog, cat.wf = true → ∀ F ∈ cat, 1 ≤ F.pfxWidth ∧ F.pfxWidth ≤ 16

/-- Of R43, with R42. Under a well-formed catalog every one of the 65536 words matches the prefix of exactly
one format; and for any prefix-free list of formats the sum check by which this model tests
exhaustiveness holds exactly when every word matches some format. That equivalence is an inference
the spec marks as its own (from R42 and the Kraft equality); log entry 14. -/
def Obligations.EveryWordMatchesExactlyOneFormat : Prop :=
  (∀ cat : Catalog, cat.wf = true → ∀ w : Word,
    ∃ F ∈ cat, F.matches w = true ∧ ∀ G ∈ cat, G.matches w = true → G = F) ∧
  ∀ cat : Catalog, cat.all Format.layoutOk = true → cat.pairwisePrefixFree = true →
    (cat.exhaustive = true ↔ ∀ w : Word, ∃ F ∈ cat, F.matches w = true)

/-- R64. The opcode field directly below the prefix decides: legal, and decode gives the matched format's
instruction with that opcode; not legal, and decode ends with `UnknownOpcode`, whatever the operand
bits hold. -/
def Obligations.OpcodeIsCheckedBeforeOperands : Prop :=
  ∀ cat : Catalog, cat.wf = true → ∀ (w : Word), ∀ F ∈ cat,
    field w (16 - F.pfxWidth) F.pfxWidth = F.pfx →
    (field w (16 - F.pfxWidth - F.opWidth) F.opWidth ∈ F.ops →
      ∃ vals, cat.decode w =
        .ok ⟨F.tag, field w (16 - F.pfxWidth - F.opWidth) F.opWidth, vals⟩) ∧
    (field w (16 - F.pfxWidth - F.opWidth) F.opWidth ∉ F.ops →
      cat.decode w =
        .err (.decode (.unknownOpcode F.tag (field w (16 - F.pfxWidth - F.opWidth) F.opWidth))))

/-- The lowest bit of operand field `j` of a format (R37). -/
def fieldLow (F : Format) (j : Nat) : Nat :=
  16 - F.pfxWidth - F.opWidth - ((F.fields.take (j + 1)).map FieldKind.width).sum

/-- R65. Operand fields are read in the order of the field list, from the bits directly below the opcode
down to bit 0: a register through its `from_code`, an immediate sign-extended. -/
def Obligations.OperandFieldsAreReadInOrder : Prop :=
  ∀ cat : Catalog, cat.wf = true → ∀ (w : Word) (i : Instruction), ∀ F ∈ cat,
    F.matches w = true → cat.decode w = .ok i →
    i.vals.length = F.fields.length ∧
    (∀ j, j + 1 = F.fields.length → fieldLow F j = 0) ∧
    ∀ (j : Nat) (k : FieldKind) (x : Operand), F.fields[j]? = some k → i.vals[j]? = some x →
      match k with
      | .intReg => ∃ r, IntRegister.fromCode (BitVec.ofNat 8 (field w (fieldLow F j) 3)) = some r ∧ x = .int r
      | .ratioReg =>
        ∃ q, RatioRegister.fromCode (BitVec.ofNat 8 (field w (fieldLow F j) 2)) = some q ∧ x = .ratio q
      | .imm8 => x = .imm (if field w (fieldLow F j) 8 < 128 then (field w (fieldLow F j) 8 : Int)
          else (field w (fieldLow F j) 8 : Int) - 256)

/-- The operand value whose field is all zero bits (R46). -/
def zeroOperand : FieldKind → Operand
  | .intReg => .int .I0
  | .ratioReg => .ratio .Q0
  | .imm8 => .imm 0

/-- R46. The all-zero prefix's format exists, its opcode 0 is legal, no format has more operand bits, and
the word 0x0000 decodes to its instruction with opcode 0 and every operand field 0. -/
def Obligations.ZeroWordDecodesToZeroInstruction : Prop :=
  ∀ cat : Catalog, cat.wf = true → ∃ F ∈ cat, F.pfx = 0 ∧ 0 ∈ F.ops ∧
    (∀ G ∈ cat, G.operandBits ≤ F.operandBits) ∧
    cat.decode 0x0000 = .ok ⟨F.tag, 0, F.fields.map zeroOperand⟩

/-- R68. Encode is a left inverse of decode, for every well-formed catalog and every instruction of it; and
the host's encode operation (R67) returns exactly that word and changes nothing else. -/
def Obligations.DecodeOfEncodeForEveryCatalog : Prop :=
  ∀ cat : Catalog, cat.wf = true → ∀ i : Instruction, cat.admits i = true →
    ∃ w, cat.encode i = some w ∧ cat.decode w = .ok i ∧
      ∀ s : State, s.cfg.catalog = cat →
        step (s.asks (.encode i)) = .next (s.answer (.ok (.word w)))

/-- R69, an inference the spec marks as its own. Decode is a left inverse of encode on the valid words of
every well-formed catalog; so decode is injective on valid words, encode is injective, and encode reaches every valid word. -/
def Obligations.EncodeOfDecodeForEveryCatalog : Prop :=
  ∀ cat : Catalog, cat.wf = true →
    (∀ (w : Word) (i : Instruction), cat.decode w = .ok i →
      cat.admits i = true ∧ cat.encode i = some w) ∧
    (∀ (w v : Word) (i : Instruction), cat.decode w = .ok i → cat.decode v = .ok i → w = v) ∧
    (∀ (i j : Instruction), cat.admits i = true → cat.admits j = true →
      cat.encode i = cat.encode j → i = j)

/-- R63. The result of decode does not depend on the order in which the formats are tested. -/
def Obligations.FormatOrderDoesNotMatter : Prop :=
  ∀ cat cat' : Catalog, cat.wf = true → cat.Perm cat' → ∀ w : Word,
    cat'.wf = true ∧ cat'.decode w = cat.decode w

/-- R48. An ill-formed catalog is refused when a block is built and by the codec; under a well-formed one
a block is built, and the host's decode operation (R62), under REF13 and every other catalog alike,
returns exactly what the catalog's decode gives, which is never `NoFormat`, and changes nothing else. -/
def Obligations.IllFormedCatalogIsRefused : Prop :=
  (∀ cfg : Config, cfg.catalog.wf = false → State.build cfg = .refused .illFormedCatalog) ∧
  (∀ s : State, s.cfg.catalog.wf = false →
    (∀ w, step (s.asks (.decode w)) = .refused .illFormedCatalog) ∧
    (∀ i, step (s.asks (.encode i)) = .refused .illFormedCatalog)) ∧
  (∀ cfg : Config, cfg.catalog.wf = true → ∃ s, State.build cfg = .next s ∧ s.cfg = cfg ∧ s.map = []) ∧
  (∀ s : State, s.cfg.catalog.wf = true → ∀ w : Word,
    step (s.asks (.decode w)) = .next (s.answer ((s.cfg.catalog.decode w).map .instruction)) ∧
    s.cfg.catalog.decode w ≠ .err (.decode .noFormat))

/-- R55 (in part; the spec marks it derived). REF13 meets every check of R40 to R46; by the formula of
R53 it has 20148 valid and 45388 invalid words. -/
def Obligations.ReferenceCatalogIsWellFormed : Prop :=
  ref13.wf = true ∧
  ref13.map (fun F => F.ops.length * 2 ^ F.operandBits) =
    [6144, 5120, 1536, 5120, 512, 768, 128, 128, 96, 64, 16, 512, 4] ∧
  ref13.map (fun F => 2 ^ F.operandBits * (2 ^ F.opWidth - F.ops.length)) =
    [2048, 3072, 6656, 3072, 7680, 7424, 3968, 3968, 1952, 1984, 2032, 512, 1020] ∧
  (ref13.map fun F => F.ops.length * 2 ^ F.operandBits).sum = 20148

/-! ### The formats of the reference catalog (R70 to R82) -/

/-- R70, F0 IntImm: the decode of every word with its prefix, the words of its instructions, and
what each instruction does. -/
def Obligations.F0IntImmFormat : Prop :=
  (∀ (s : State) (w : Word), s.cfg.catalog = ref13 → field w 13 3 = 0b000 →
    (field w 11 2 ≤ 2 →
      ∃ (a : IntRegister) (m : Int),
        a.code.toNat = field w 8 3 ∧
        m = (if field w 0 8 < 128 then (field w 0 8 : Int) else (field w 0 8 : Int) - 256) ∧
        step (s.asks (.decode w)) =
          .next (s.answer (.ok (.instruction ⟨0, field w 11 2, [.int a, .imm m]⟩)))) ∧
    (2 < field w 11 2 →
      step (s.asks (.decode w)) =
        .next (s.answer (.err (.decode (.unknownOpcode 0 (field w 11 2))))))) ∧
  (∀ (a : IntRegister) (m : Int),
    (encode (.f0op0 a m)).toNat = 0 * 2 ^ 13 + 0 * 2 ^ 11 + a.code.toNat * 2 ^ 8 + (m % 256).toNat ∧
    (encode (.f0op1 a m)).toNat = 0 * 2 ^ 13 + 1 * 2 ^ 11 + a.code.toNat * 2 ^ 8 + (m % 256).toNat ∧
    (encode (.f0op2 a m)).toNat = 0 * 2 ^ 13 + 2 * 2 ^ 11 + a.code.toNat * 2 ^ 8 + (m % 256).toNat) ∧
  (∀ (s : State) (a : IntRegister) (m : Int),
    exec (.f0op0 a m) s = .next (s.answer (.ok (.instruction ⟨0, 0, [.int a, .imm m]⟩))) ∧
    exec (.f0op1 a m) s = .next (s.answer (.ok (.instruction ⟨0, 1, [.int a, .imm m]⟩))) ∧
    exec (.f0op2 a m) s = .next (s.answer (.ok (.instruction ⟨0, 2, [.int a, .imm m]⟩))))

/-- R71, F1 RatioImm: the decode of every word with its prefix, the words of its instructions, and
what each instruction does. -/
def Obligations.F1RatioImmFormat : Prop :=
  (∀ (s : State) (w : Word), s.cfg.catalog = ref13 → field w 13 3 = 0b001 →
    (field w 10 3 ≤ 4 →
      ∃ (q : RatioRegister) (m : Int),
        q.code.toNat = field w 8 2 ∧
        m = (if field w 0 8 < 128 then (field w 0 8 : Int) else (field w 0 8 : Int) - 256) ∧
        step (s.asks (.decode w)) =
          .next (s.answer (.ok (.instruction ⟨1, field w 10 3, [.ratio q, .imm m]⟩)))) ∧
    (4 < field w 10 3 →
      step (s.asks (.decode w)) =
        .next (s.answer (.err (.decode (.unknownOpcode 1 (field w 10 3))))))) ∧
  (∀ (q : RatioRegister) (m : Int),
    (encode (.f1op0 q m)).toNat = 1 * 2 ^ 13 + 0 * 2 ^ 10 + q.code.toNat * 2 ^ 8 + (m % 256).toNat ∧
    (encode (.f1op1 q m)).toNat = 1 * 2 ^ 13 + 1 * 2 ^ 10 + q.code.toNat * 2 ^ 8 + (m % 256).toNat ∧
    (encode (.f1op2 q m)).toNat = 1 * 2 ^ 13 + 2 * 2 ^ 10 + q.code.toNat * 2 ^ 8 + (m % 256).toNat ∧
    (encode (.f1op3 q m)).toNat = 1 * 2 ^ 13 + 3 * 2 ^ 10 + q.code.toNat * 2 ^ 8 + (m % 256).toNat ∧
    (encode (.f1op4 q m)).toNat = 1 * 2 ^ 13 + 4 * 2 ^ 10 + q.code.toNat * 2 ^ 8 + (m % 256).toNat) ∧
  (∀ (s : State) (q : RatioRegister) (m : Int),
    exec (.f1op0 q m) s = .next (s.answer (.ok (.instruction ⟨1, 0, [.ratio q, .imm m]⟩))) ∧
    exec (.f1op1 q m) s = .next (s.answer (.ok (.instruction ⟨1, 1, [.ratio q, .imm m]⟩))) ∧
    exec (.f1op2 q m) s = .next (s.answer (.ok (.instruction ⟨1, 2, [.ratio q, .imm m]⟩))) ∧
    exec (.f1op3 q m) s = .next (s.answer (.ok (.instruction ⟨1, 3, [.ratio q, .imm m]⟩))) ∧
    exec (.f1op4 q m) s = .next (s.answer (.ok (.instruction ⟨1, 4, [.ratio q, .imm m]⟩))))

/-- R72, F2 Imm: the decode of every word with its prefix, the words of its instructions, and
what each instruction does. -/
def Obligations.F2ImmFormat : Prop :=
  (∀ (s : State) (w : Word), s.cfg.catalog = ref13 → field w 13 3 = 0b010 →
    (field w 8 5 ≤ 5 →
      ∃ (m : Int),
        m = (if field w 0 8 < 128 then (field w 0 8 : Int) else (field w 0 8 : Int) - 256) ∧
        step (s.asks (.decode w)) =
          .next (s.answer (.ok (.instruction ⟨2, field w 8 5, [.imm m]⟩)))) ∧
    (5 < field w 8 5 →
      step (s.asks (.decode w)) =
        .next (s.answer (.err (.decode (.unknownOpcode 2 (field w 8 5))))))) ∧
  (∀ (m : Int),
    (encode (.f2op0 m)).toNat = 2 * 2 ^ 13 + 0 * 2 ^ 8 + (m % 256).toNat ∧
    (encode (.f2op1 m)).toNat = 2 * 2 ^ 13 + 1 * 2 ^ 8 + (m % 256).toNat ∧
    (encode (.f2op2 m)).toNat = 2 * 2 ^ 13 + 2 * 2 ^ 8 + (m % 256).toNat ∧
    (encode (.f2op3 m)).toNat = 2 * 2 ^ 13 + 3 * 2 ^ 8 + (m % 256).toNat ∧
    (encode (.f2op4 m)).toNat = 2 * 2 ^ 13 + 4 * 2 ^ 8 + (m % 256).toNat ∧
    (encode (.f2op5 m)).toNat = 2 * 2 ^ 13 + 5 * 2 ^ 8 + (m % 256).toNat) ∧
  (∀ (s : State) (m : Int),
    exec (.f2op0 m) s = .next (s.answer (.ok (.instruction ⟨2, 0, [.imm m]⟩))) ∧
    exec (.f2op1 m) s = .next (s.answer (.ok (.instruction ⟨2, 1, [.imm m]⟩))) ∧
    exec (.f2op2 m) s = .next (s.answer (.ok (.instruction ⟨2, 2, [.imm m]⟩))) ∧
    exec (.f2op3 m) s = .next (s.answer (.ok (.instruction ⟨2, 3, [.imm m]⟩))) ∧
    exec (.f2op4 m) s = .next (s.answer (.ok (.instruction ⟨2, 4, [.imm m]⟩))) ∧
    exec (.f2op5 m) s = .next (s.answer (.ok (.instruction ⟨2, 5, [.imm m]⟩))))

/-- R73, F3 IntIntInt: the decode of every word with its prefix, the words of its instructions, and
what each instruction does. -/
def Obligations.F3IntIntIntFormat : Prop :=
  (∀ (s : State) (w : Word), s.cfg.catalog = ref13 → field w 13 3 = 0b011 →
    (field w 9 4 ≤ 9 →
      ∃ (a : IntRegister) (b : IntRegister) (c : IntRegister),
        a.code.toNat = field w 6 3 ∧
        b.code.toNat = field w 3 3 ∧
        c.code.toNat = field w 0 3 ∧
        step (s.asks (.decode w)) =
          .next (s.answer (.ok (.instruction ⟨3, field w 9 4, [.int a, .int b, .int c]⟩)))) ∧
    (9 < field w 9 4 →
      step (s.asks (.decode w)) =
        .next (s.answer (.err (.decode (.unknownOpcode 3 (field w 9 4))))))) ∧
  (∀ (a : IntRegister) (b : IntRegister) (c : IntRegister),
    (encode (.f3op0 a b c)).toNat = 3 * 2 ^ 13 + 0 * 2 ^ 9 + a.code.toNat * 2 ^ 6 + b.code.toNat * 2 ^ 3 + c.code.toNat ∧
    (encode (.f3op1 a b c)).toNat = 3 * 2 ^ 13 + 1 * 2 ^ 9 + a.code.toNat * 2 ^ 6 + b.code.toNat * 2 ^ 3 + c.code.toNat ∧
    (encode (.f3op2 a b c)).toNat = 3 * 2 ^ 13 + 2 * 2 ^ 9 + a.code.toNat * 2 ^ 6 + b.code.toNat * 2 ^ 3 + c.code.toNat ∧
    (encode (.f3op3 a b c)).toNat = 3 * 2 ^ 13 + 3 * 2 ^ 9 + a.code.toNat * 2 ^ 6 + b.code.toNat * 2 ^ 3 + c.code.toNat ∧
    (encode (.f3op4 a b c)).toNat = 3 * 2 ^ 13 + 4 * 2 ^ 9 + a.code.toNat * 2 ^ 6 + b.code.toNat * 2 ^ 3 + c.code.toNat ∧
    (encode (.f3op5 a b c)).toNat = 3 * 2 ^ 13 + 5 * 2 ^ 9 + a.code.toNat * 2 ^ 6 + b.code.toNat * 2 ^ 3 + c.code.toNat ∧
    (encode (.f3op6 a b c)).toNat = 3 * 2 ^ 13 + 6 * 2 ^ 9 + a.code.toNat * 2 ^ 6 + b.code.toNat * 2 ^ 3 + c.code.toNat ∧
    (encode (.f3op7 a b c)).toNat = 3 * 2 ^ 13 + 7 * 2 ^ 9 + a.code.toNat * 2 ^ 6 + b.code.toNat * 2 ^ 3 + c.code.toNat ∧
    (encode (.f3op8 a b c)).toNat = 3 * 2 ^ 13 + 8 * 2 ^ 9 + a.code.toNat * 2 ^ 6 + b.code.toNat * 2 ^ 3 + c.code.toNat ∧
    (encode (.f3op9 a b c)).toNat = 3 * 2 ^ 13 + 9 * 2 ^ 9 + a.code.toNat * 2 ^ 6 + b.code.toNat * 2 ^ 3 + c.code.toNat) ∧
  (∀ (s : State) (a : IntRegister) (b : IntRegister) (c : IntRegister),
    exec (.f3op0 a b c) s = .next (s.answer (.ok (.instruction ⟨3, 0, [.int a, .int b, .int c]⟩))) ∧
    exec (.f3op1 a b c) s = .next (s.answer (.ok (.instruction ⟨3, 1, [.int a, .int b, .int c]⟩))) ∧
    exec (.f3op2 a b c) s = .next (s.answer (.ok (.instruction ⟨3, 2, [.int a, .int b, .int c]⟩))) ∧
    exec (.f3op3 a b c) s = .next (s.answer (.ok (.instruction ⟨3, 3, [.int a, .int b, .int c]⟩))) ∧
    exec (.f3op4 a b c) s = .next (s.answer (.ok (.instruction ⟨3, 4, [.int a, .int b, .int c]⟩))) ∧
    exec (.f3op5 a b c) s = .next (s.answer (.ok (.instruction ⟨3, 5, [.int a, .int b, .int c]⟩))) ∧
    exec (.f3op6 a b c) s = .next (s.answer (.ok (.instruction ⟨3, 6, [.int a, .int b, .int c]⟩))) ∧
    exec (.f3op7 a b c) s = .next (s.answer (.ok (.instruction ⟨3, 7, [.int a, .int b, .int c]⟩))) ∧
    exec (.f3op8 a b c) s = .next (s.answer (.ok (.instruction ⟨3, 8, [.int a, .int b, .int c]⟩))) ∧
    exec (.f3op9 a b c) s = .next (s.answer (.ok (.instruction ⟨3, 9, [.int a, .int b, .int c]⟩))))

/-- R74, F4 RatioRatioRatio: the decode of every word with its prefix, the words of its instructions, and
what each instruction does. -/
def Obligations.F4RatioRatioRatioFormat : Prop :=
  (∀ (s : State) (w : Word), s.cfg.catalog = ref13 → field w 13 3 = 0b100 →
    (field w 6 7 ≤ 7 →
      ∃ (q : RatioRegister) (r : RatioRegister) (u : RatioRegister),
        q.code.toNat = field w 4 2 ∧
        r.code.toNat = field w 2 2 ∧
        u.code.toNat = field w 0 2 ∧
        step (s.asks (.decode w)) =
          .next (s.answer (.ok (.instruction ⟨4, field w 6 7, [.ratio q, .ratio r, .ratio u]⟩)))) ∧
    (7 < field w 6 7 →
      step (s.asks (.decode w)) =
        .next (s.answer (.err (.decode (.unknownOpcode 4 (field w 6 7))))))) ∧
  (∀ (q : RatioRegister) (r : RatioRegister) (u : RatioRegister),
    (encode (.f4op0 q r u)).toNat = 4 * 2 ^ 13 + 0 * 2 ^ 6 + q.code.toNat * 2 ^ 4 + r.code.toNat * 2 ^ 2 + u.code.toNat ∧
    (encode (.f4op1 q r u)).toNat = 4 * 2 ^ 13 + 1 * 2 ^ 6 + q.code.toNat * 2 ^ 4 + r.code.toNat * 2 ^ 2 + u.code.toNat ∧
    (encode (.f4op2 q r u)).toNat = 4 * 2 ^ 13 + 2 * 2 ^ 6 + q.code.toNat * 2 ^ 4 + r.code.toNat * 2 ^ 2 + u.code.toNat ∧
    (encode (.f4op3 q r u)).toNat = 4 * 2 ^ 13 + 3 * 2 ^ 6 + q.code.toNat * 2 ^ 4 + r.code.toNat * 2 ^ 2 + u.code.toNat ∧
    (encode (.f4op4 q r u)).toNat = 4 * 2 ^ 13 + 4 * 2 ^ 6 + q.code.toNat * 2 ^ 4 + r.code.toNat * 2 ^ 2 + u.code.toNat ∧
    (encode (.f4op5 q r u)).toNat = 4 * 2 ^ 13 + 5 * 2 ^ 6 + q.code.toNat * 2 ^ 4 + r.code.toNat * 2 ^ 2 + u.code.toNat ∧
    (encode (.f4op6 q r u)).toNat = 4 * 2 ^ 13 + 6 * 2 ^ 6 + q.code.toNat * 2 ^ 4 + r.code.toNat * 2 ^ 2 + u.code.toNat ∧
    (encode (.f4op7 q r u)).toNat = 4 * 2 ^ 13 + 7 * 2 ^ 6 + q.code.toNat * 2 ^ 4 + r.code.toNat * 2 ^ 2 + u.code.toNat) ∧
  (∀ (s : State) (q : RatioRegister) (r : RatioRegister) (u : RatioRegister),
    exec (.f4op0 q r u) s = .next (s.answer (.ok (.instruction ⟨4, 0, [.ratio q, .ratio r, .ratio u]⟩))) ∧
    exec (.f4op1 q r u) s = .next (s.answer (.ok (.instruction ⟨4, 1, [.ratio q, .ratio r, .ratio u]⟩))) ∧
    exec (.f4op2 q r u) s = .next (s.answer (.ok (.instruction ⟨4, 2, [.ratio q, .ratio r, .ratio u]⟩))) ∧
    exec (.f4op3 q r u) s = .next (s.answer (.ok (.instruction ⟨4, 3, [.ratio q, .ratio r, .ratio u]⟩))) ∧
    exec (.f4op4 q r u) s = .next (s.answer (.ok (.instruction ⟨4, 4, [.ratio q, .ratio r, .ratio u]⟩))) ∧
    exec (.f4op5 q r u) s = .next (s.answer (.ok (.instruction ⟨4, 5, [.ratio q, .ratio r, .ratio u]⟩))) ∧
    exec (.f4op6 q r u) s = .next (s.answer (.ok (.instruction ⟨4, 6, [.ratio q, .ratio r, .ratio u]⟩))) ∧
    exec (.f4op7 q r u) s = .next (s.answer (.ok (.instruction ⟨4, 7, [.ratio q, .ratio r, .ratio u]⟩))))

/-- R75, F5 IntInt: the decode of every word with its prefix, the words of its instructions, and
what each instruction does. -/
def Obligations.F5IntIntFormat : Prop :=
  (∀ (s : State) (w : Word), s.cfg.catalog = ref13 → field w 13 3 = 0b101 →
    (field w 6 7 ≤ 11 →
      ∃ (a : IntRegister) (b : IntRegister),
        a.code.toNat = field w 3 3 ∧
        b.code.toNat = field w 0 3 ∧
        step (s.asks (.decode w)) =
          .next (s.answer (.ok (.instruction ⟨5, field w 6 7, [.int a, .int b]⟩)))) ∧
    (11 < field w 6 7 →
      step (s.asks (.decode w)) =
        .next (s.answer (.err (.decode (.unknownOpcode 5 (field w 6 7))))))) ∧
  (∀ (a : IntRegister) (b : IntRegister),
    (encode (.f5op0 a b)).toNat = 5 * 2 ^ 13 + 0 * 2 ^ 6 + a.code.toNat * 2 ^ 3 + b.code.toNat ∧
    (encode (.f5op1 a b)).toNat = 5 * 2 ^ 13 + 1 * 2 ^ 6 + a.code.toNat * 2 ^ 3 + b.code.toNat ∧
    (encode (.f5op2 a b)).toNat = 5 * 2 ^ 13 + 2 * 2 ^ 6 + a.code.toNat * 2 ^ 3 + b.code.toNat ∧
    (encode (.f5op3 a b)).toNat = 5 * 2 ^ 13 + 3 * 2 ^ 6 + a.code.toNat * 2 ^ 3 + b.code.toNat ∧
    (encode (.f5op4 a b)).toNat = 5 * 2 ^ 13 + 4 * 2 ^ 6 + a.code.toNat * 2 ^ 3 + b.code.toNat ∧
    (encode (.f5op5 a b)).toNat = 5 * 2 ^ 13 + 5 * 2 ^ 6 + a.code.toNat * 2 ^ 3 + b.code.toNat ∧
    (encode (.f5op6 a b)).toNat = 5 * 2 ^ 13 + 6 * 2 ^ 6 + a.code.toNat * 2 ^ 3 + b.code.toNat ∧
    (encode (.f5op7 a b)).toNat = 5 * 2 ^ 13 + 7 * 2 ^ 6 + a.code.toNat * 2 ^ 3 + b.code.toNat ∧
    (encode (.f5op8 a b)).toNat = 5 * 2 ^ 13 + 8 * 2 ^ 6 + a.code.toNat * 2 ^ 3 + b.code.toNat ∧
    (encode (.f5op9 a b)).toNat = 5 * 2 ^ 13 + 9 * 2 ^ 6 + a.code.toNat * 2 ^ 3 + b.code.toNat ∧
    (encode (.f5op10 a b)).toNat = 5 * 2 ^ 13 + 10 * 2 ^ 6 + a.code.toNat * 2 ^ 3 + b.code.toNat ∧
    (encode (.f5op11 a b)).toNat = 5 * 2 ^ 13 + 11 * 2 ^ 6 + a.code.toNat * 2 ^ 3 + b.code.toNat) ∧
  (∀ (s : State) (a : IntRegister) (b : IntRegister),
    exec (.f5op0 a b) s = .next (s.answer (.ok (.instruction ⟨5, 0, [.int a, .int b]⟩))) ∧
    exec (.f5op1 a b) s = .next (s.answer (.ok (.instruction ⟨5, 1, [.int a, .int b]⟩))) ∧
    exec (.f5op2 a b) s = .next (s.answer (.ok (.instruction ⟨5, 2, [.int a, .int b]⟩))) ∧
    exec (.f5op3 a b) s = .next (s.answer (.ok (.instruction ⟨5, 3, [.int a, .int b]⟩))) ∧
    exec (.f5op4 a b) s = .next (s.answer (.ok (.instruction ⟨5, 4, [.int a, .int b]⟩))) ∧
    exec (.f5op5 a b) s = .next (s.answer (.ok (.instruction ⟨5, 5, [.int a, .int b]⟩))) ∧
    exec (.f5op6 a b) s = .next (s.answer (.ok (.instruction ⟨5, 6, [.int a, .int b]⟩))) ∧
    exec (.f5op7 a b) s = .next (s.answer (.ok (.instruction ⟨5, 7, [.int a, .int b]⟩))) ∧
    exec (.f5op8 a b) s = .next (s.answer (.ok (.instruction ⟨5, 8, [.int a, .int b]⟩))) ∧
    exec (.f5op9 a b) s = .next (s.answer (.ok (.instruction ⟨5, 9, [.int a, .int b]⟩))) ∧
    exec (.f5op10 a b) s = .next (s.answer (.ok (.instruction ⟨5, 10, [.int a, .int b]⟩))) ∧
    exec (.f5op11 a b) s = .next (s.answer (.ok (.instruction ⟨5, 11, [.int a, .int b]⟩))))

/-- R76, F6 IntRatio: the decode of every word with its prefix, the words of its instructions, and
what each instruction does. -/
def Obligations.F6IntRatioFormat : Prop :=
  (∀ (s : State) (w : Word), s.cfg.catalog = ref13 → field w 12 4 = 0b1100 →
    (field w 5 7 ≤ 3 →
      ∃ (a : IntRegister) (q : RatioRegister),
        a.code.toNat = field w 2 3 ∧
        q.code.toNat = field w 0 2 ∧
        step (s.asks (.decode w)) =
          .next (s.answer (.ok (.instruction ⟨6, field w 5 7, [.int a, .ratio q]⟩)))) ∧
    (3 < field w 5 7 →
      step (s.asks (.decode w)) =
        .next (s.answer (.err (.decode (.unknownOpcode 6 (field w 5 7))))))) ∧
  (∀ (a : IntRegister) (q : RatioRegister),
    (encode (.f6op0 a q)).toNat = 12 * 2 ^ 12 + 0 * 2 ^ 5 + a.code.toNat * 2 ^ 2 + q.code.toNat ∧
    (encode (.f6op1 a q)).toNat = 12 * 2 ^ 12 + 1 * 2 ^ 5 + a.code.toNat * 2 ^ 2 + q.code.toNat ∧
    (encode (.f6op2 a q)).toNat = 12 * 2 ^ 12 + 2 * 2 ^ 5 + a.code.toNat * 2 ^ 2 + q.code.toNat ∧
    (encode (.f6op3 a q)).toNat = 12 * 2 ^ 12 + 3 * 2 ^ 5 + a.code.toNat * 2 ^ 2 + q.code.toNat) ∧
  (∀ (s : State) (a : IntRegister) (q : RatioRegister),
    exec (.f6op0 a q) s = .next (s.answer (.ok (.instruction ⟨6, 0, [.int a, .ratio q]⟩))) ∧
    exec (.f6op1 a q) s = .next (s.answer (.ok (.instruction ⟨6, 1, [.int a, .ratio q]⟩))) ∧
    exec (.f6op2 a q) s = .next (s.answer (.ok (.instruction ⟨6, 2, [.int a, .ratio q]⟩))) ∧
    exec (.f6op3 a q) s = .next (s.answer (.ok (.instruction ⟨6, 3, [.int a, .ratio q]⟩))))

/-- R77, F7 RatioInt: the decode of every word with its prefix, the words of its instructions, and
what each instruction does. -/
def Obligations.F7RatioIntFormat : Prop :=
  (∀ (s : State) (w : Word), s.cfg.catalog = ref13 → field w 12 4 = 0b1101 →
    (field w 5 7 ≤ 3 →
      ∃ (q : RatioRegister) (a : IntRegister),
        q.code.toNat = field w 3 2 ∧
        a.code.toNat = field w 0 3 ∧
        step (s.asks (.decode w)) =
          .next (s.answer (.ok (.instruction ⟨7, field w 5 7, [.ratio q, .int a]⟩)))) ∧
    (3 < field w 5 7 →
      step (s.asks (.decode w)) =
        .next (s.answer (.err (.decode (.unknownOpcode 7 (field w 5 7))))))) ∧
  (∀ (q : RatioRegister) (a : IntRegister),
    (encode (.f7op0 q a)).toNat = 13 * 2 ^ 12 + 0 * 2 ^ 5 + q.code.toNat * 2 ^ 3 + a.code.toNat ∧
    (encode (.f7op1 q a)).toNat = 13 * 2 ^ 12 + 1 * 2 ^ 5 + q.code.toNat * 2 ^ 3 + a.code.toNat ∧
    (encode (.f7op2 q a)).toNat = 13 * 2 ^ 12 + 2 * 2 ^ 5 + q.code.toNat * 2 ^ 3 + a.code.toNat ∧
    (encode (.f7op3 q a)).toNat = 13 * 2 ^ 12 + 3 * 2 ^ 5 + q.code.toNat * 2 ^ 3 + a.code.toNat) ∧
  (∀ (s : State) (q : RatioRegister) (a : IntRegister),
    exec (.f7op0 q a) s = .next (s.answer (.ok (.instruction ⟨7, 0, [.ratio q, .int a]⟩))) ∧
    exec (.f7op1 q a) s = .next (s.answer (.ok (.instruction ⟨7, 1, [.ratio q, .int a]⟩))) ∧
    exec (.f7op2 q a) s = .next (s.answer (.ok (.instruction ⟨7, 2, [.ratio q, .int a]⟩))) ∧
    exec (.f7op3 q a) s = .next (s.answer (.ok (.instruction ⟨7, 3, [.ratio q, .int a]⟩))))

/-- R78, F8 RatioRatio: the decode of every word with its prefix, the words of its instructions, and
what each instruction does. -/
def Obligations.F8RatioRatioFormat : Prop :=
  (∀ (s : State) (w : Word), s.cfg.catalog = ref13 → field w 11 5 = 0b11100 →
    (field w 4 7 ≤ 5 →
      ∃ (q : RatioRegister) (r : RatioRegister),
        q.code.toNat = field w 2 2 ∧
        r.code.toNat = field w 0 2 ∧
        step (s.asks (.decode w)) =
          .next (s.answer (.ok (.instruction ⟨8, field w 4 7, [.ratio q, .ratio r]⟩)))) ∧
    (5 < field w 4 7 →
      step (s.asks (.decode w)) =
        .next (s.answer (.err (.decode (.unknownOpcode 8 (field w 4 7))))))) ∧
  (∀ (q : RatioRegister) (r : RatioRegister),
    (encode (.f8op0 q r)).toNat = 28 * 2 ^ 11 + 0 * 2 ^ 4 + q.code.toNat * 2 ^ 2 + r.code.toNat ∧
    (encode (.f8op1 q r)).toNat = 28 * 2 ^ 11 + 1 * 2 ^ 4 + q.code.toNat * 2 ^ 2 + r.code.toNat ∧
    (encode (.f8op2 q r)).toNat = 28 * 2 ^ 11 + 2 * 2 ^ 4 + q.code.toNat * 2 ^ 2 + r.code.toNat ∧
    (encode (.f8op3 q r)).toNat = 28 * 2 ^ 11 + 3 * 2 ^ 4 + q.code.toNat * 2 ^ 2 + r.code.toNat ∧
    (encode (.f8op4 q r)).toNat = 28 * 2 ^ 11 + 4 * 2 ^ 4 + q.code.toNat * 2 ^ 2 + r.code.toNat ∧
    (encode (.f8op5 q r)).toNat = 28 * 2 ^ 11 + 5 * 2 ^ 4 + q.code.toNat * 2 ^ 2 + r.code.toNat) ∧
  (∀ (s : State) (q : RatioRegister) (r : RatioRegister),
    exec (.f8op0 q r) s = .next (s.answer (.ok (.instruction ⟨8, 0, [.ratio q, .ratio r]⟩))) ∧
    exec (.f8op1 q r) s = .next (s.answer (.ok (.instruction ⟨8, 1, [.ratio q, .ratio r]⟩))) ∧
    exec (.f8op2 q r) s = .next (s.answer (.ok (.instruction ⟨8, 2, [.ratio q, .ratio r]⟩))) ∧
    exec (.f8op3 q r) s = .next (s.answer (.ok (.instruction ⟨8, 3, [.ratio q, .ratio r]⟩))) ∧
    exec (.f8op4 q r) s = .next (s.answer (.ok (.instruction ⟨8, 4, [.ratio q, .ratio r]⟩))) ∧
    exec (.f8op5 q r) s = .next (s.answer (.ok (.instruction ⟨8, 5, [.ratio q, .ratio r]⟩))))

/-- R79, F9 Int: the decode of every word with its prefix, the words of its instructions, and
what each instruction does. -/
def Obligations.F9IntFormat : Prop :=
  (∀ (s : State) (w : Word), s.cfg.catalog = ref13 → field w 11 5 = 0b11101 →
    (field w 3 8 ≤ 7 →
      ∃ (a : IntRegister),
        a.code.toNat = field w 0 3 ∧
        step (s.asks (.decode w)) =
          .next (s.answer (.ok (.instruction ⟨9, field w 3 8, [.int a]⟩)))) ∧
    (7 < field w 3 8 →
      step (s.asks (.decode w)) =
        .next (s.answer (.err (.decode (.unknownOpcode 9 (field w 3 8))))))) ∧
  (∀ (a : IntRegister),
    (encode (.f9op0 a)).toNat = 29 * 2 ^ 11 + 0 * 2 ^ 3 + a.code.toNat ∧
    (encode (.f9op1 a)).toNat = 29 * 2 ^ 11 + 1 * 2 ^ 3 + a.code.toNat ∧
    (encode (.f9op2 a)).toNat = 29 * 2 ^ 11 + 2 * 2 ^ 3 + a.code.toNat ∧
    (encode (.f9op3 a)).toNat = 29 * 2 ^ 11 + 3 * 2 ^ 3 + a.code.toNat ∧
    (encode (.f9op4 a)).toNat = 29 * 2 ^ 11 + 4 * 2 ^ 3 + a.code.toNat ∧
    (encode (.f9op5 a)).toNat = 29 * 2 ^ 11 + 5 * 2 ^ 3 + a.code.toNat ∧
    (encode (.f9op6 a)).toNat = 29 * 2 ^ 11 + 6 * 2 ^ 3 + a.code.toNat ∧
    (encode (.f9op7 a)).toNat = 29 * 2 ^ 11 + 7 * 2 ^ 3 + a.code.toNat) ∧
  (∀ (s : State) (a : IntRegister),
    exec (.f9op0 a) s = .next (s.answer (.ok (.instruction ⟨9, 0, [.int a]⟩))) ∧
    exec (.f9op1 a) s = .next (s.answer (.ok (.instruction ⟨9, 1, [.int a]⟩))) ∧
    exec (.f9op2 a) s = .next (s.answer (.ok (.instruction ⟨9, 2, [.int a]⟩))) ∧
    exec (.f9op3 a) s = .next (s.answer (.ok (.instruction ⟨9, 3, [.int a]⟩))) ∧
    exec (.f9op4 a) s = .next (s.answer (.ok (.instruction ⟨9, 4, [.int a]⟩))) ∧
    exec (.f9op5 a) s = .next (s.answer (.ok (.instruction ⟨9, 5, [.int a]⟩))) ∧
    exec (.f9op6 a) s = .next (s.answer (.ok (.instruction ⟨9, 6, [.int a]⟩))) ∧
    exec (.f9op7 a) s = .next (s.answer (.ok (.instruction ⟨9, 7, [.int a]⟩))))

/-- R80, F10 Ratio: the decode of every word with its prefix, the words of its instructions, and
what each instruction does. -/
def Obligations.F10RatioFormat : Prop :=
  (∀ (s : State) (w : Word), s.cfg.catalog = ref13 → field w 11 5 = 0b11110 →
    (field w 2 9 ≤ 3 →
      ∃ (q : RatioRegister),
        q.code.toNat = field w 0 2 ∧
        step (s.asks (.decode w)) =
          .next (s.answer (.ok (.instruction ⟨10, field w 2 9, [.ratio q]⟩)))) ∧
    (3 < field w 2 9 →
      step (s.asks (.decode w)) =
        .next (s.answer (.err (.decode (.unknownOpcode 10 (field w 2 9))))))) ∧
  (∀ (q : RatioRegister),
    (encode (.f10op0 q)).toNat = 30 * 2 ^ 11 + 0 * 2 ^ 2 + q.code.toNat ∧
    (encode (.f10op1 q)).toNat = 30 * 2 ^ 11 + 1 * 2 ^ 2 + q.code.toNat ∧
    (encode (.f10op2 q)).toNat = 30 * 2 ^ 11 + 2 * 2 ^ 2 + q.code.toNat ∧
    (encode (.f10op3 q)).toNat = 30 * 2 ^ 11 + 3 * 2 ^ 2 + q.code.toNat) ∧
  (∀ (s : State) (q : RatioRegister),
    exec (.f10op0 q) s = .next (s.answer (.ok (.instruction ⟨10, 0, [.ratio q]⟩))) ∧
    exec (.f10op1 q) s = .next (s.answer (.ok (.instruction ⟨10, 1, [.ratio q]⟩))) ∧
    exec (.f10op2 q) s = .next (s.answer (.ok (.instruction ⟨10, 2, [.ratio q]⟩))) ∧
    exec (.f10op3 q) s = .next (s.answer (.ok (.instruction ⟨10, 3, [.ratio q]⟩))))

/-- R81, F11 IntIntRatio: the decode of every word with its prefix, the words of its instructions, and
what each instruction does. -/
def Obligations.F11IntIntRatioFormat : Prop :=
  (∀ (s : State) (w : Word), s.cfg.catalog = ref13 → field w 10 6 = 0b111110 →
    (field w 8 2 ≤ 1 →
      ∃ (a : IntRegister) (b : IntRegister) (q : RatioRegister),
        a.code.toNat = field w 5 3 ∧
        b.code.toNat = field w 2 3 ∧
        q.code.toNat = field w 0 2 ∧
        step (s.asks (.decode w)) =
          .next (s.answer (.ok (.instruction ⟨11, field w 8 2, [.int a, .int b, .ratio q]⟩)))) ∧
    (1 < field w 8 2 →
      step (s.asks (.decode w)) =
        .next (s.answer (.err (.decode (.unknownOpcode 11 (field w 8 2))))))) ∧
  (∀ (a : IntRegister) (b : IntRegister) (q : RatioRegister),
    (encode (.f11op0 a b q)).toNat = 62 * 2 ^ 10 + 0 * 2 ^ 8 + a.code.toNat * 2 ^ 5 + b.code.toNat * 2 ^ 2 + q.code.toNat ∧
    (encode (.f11op1 a b q)).toNat = 62 * 2 ^ 10 + 1 * 2 ^ 8 + a.code.toNat * 2 ^ 5 + b.code.toNat * 2 ^ 2 + q.code.toNat) ∧
  (∀ (s : State) (a : IntRegister) (b : IntRegister) (q : RatioRegister),
    exec (.f11op0 a b q) s = .next (s.answer (.ok (.instruction ⟨11, 0, [.int a, .int b, .ratio q]⟩))) ∧
    exec (.f11op1 a b q) s = .next (s.answer (.ok (.instruction ⟨11, 1, [.int a, .int b, .ratio q]⟩))))

/-- R82, F12 Nullary: the decode of every word with its prefix, the words of its instructions, and
what each instruction does. -/
def Obligations.F12NullaryFormat : Prop :=
  (∀ (s : State) (w : Word), s.cfg.catalog = ref13 → field w 10 6 = 0b111111 →
    (field w 0 10 ≤ 3 →
      step (s.asks (.decode w)) =
          .next (s.answer (.ok (.instruction ⟨12, field w 0 10, []⟩)))) ∧
    (3 < field w 0 10 →
      step (s.asks (.decode w)) =
        .next (s.answer (.err (.decode (.unknownOpcode 12 (field w 0 10))))))) ∧
  ((encode .f12op0).toNat = 63 * 2 ^ 10 + 0 ∧
    (encode .f12op1).toNat = 63 * 2 ^ 10 + 1 ∧
    (encode .f12op2).toNat = 63 * 2 ^ 10 + 2 ∧
    (encode .f12op3).toNat = 63 * 2 ^ 10 + 3) ∧
  (∀ (s : State),
    exec .f12op0 s = .next (s.answer (.ok (.instruction ⟨12, 0, []⟩))) ∧
    exec .f12op1 s = .next (s.answer (.ok (.instruction ⟨12, 1, []⟩))) ∧
    exec .f12op2 s = .next (s.answer (.ok (.instruction ⟨12, 2, []⟩))) ∧
    exec .f12op3 s = .next (s.answer (.ok (.instruction ⟨12, 3, []⟩))))

/-! ### The reference catalog as a whole -/

/-- The typed decoder of REF13 and the decode of R62 driven by REF13 as a catalog are the same function on
all 65536 words, errors and their payloads included. -/
def Obligations.TypedDecodeIsCatalogDecode : Prop :=
  ∀ w : Word, ref13.decode w = (decode w).map Instr.value

/-- The typed encoder of REF13 and the encode of R67 driven by REF13 agree, on exactly the instructions of
REF13. -/
def Obligations.TypedEncodeIsCatalogEncode : Prop :=
  (∀ i : Instr, i.wf = true → ref13.admits i.value = true ∧ ref13.encode i.value = some (encode i)) ∧
  (∀ v : Instruction, ref13.admits v = true → ∃ i : Instr, i.wf = true ∧ i.value = v)

/-- R68 for REF13: decoding the word of a well-formed instruction gives the instruction back. -/
def Obligations.DecodeOfEncode : Prop :=
  ∀ i : Instr, i.wf = true → decode (encode i) = .ok i

/-- R69 for REF13, an inference the spec marks as its own: what a word decodes to is well-formed and encodes to that word. -/
def Obligations.EncodeOfDecode : Prop :=
  ∀ (w : Word) (i : Instr), decode w = .ok i → i.wf = true ∧ encode i = w

/-- Words written out from the encodings of R70 to R82 decode to what they stand for. -/
def Obligations.SampleWordsDecode : Prop :=
  decode 0x0BFB = .ok (.f0op1 .I3 (-5)) ∧ decode 0x2164 = .ok (.f1op0 .Q1 100) ∧
  decode 0x4580 = .ok (.f2op5 (-128)) ∧ decode 0x64C7 = .ok (.f3op2 .I3 .I0 .I7) ∧
  decode 0x81DB = .ok (.f4op7 .Q1 .Q2 .Q3) ∧ decode 0xA171 = .ok (.f5op5 .I6 .I1) ∧
  decode 0xC076 = .ok (.f6op3 .I5 .Q2) ∧ decode 0xD03C = .ok (.f7op1 .Q3 .I4) ∧
  decode 0xE059 = .ok (.f8op5 .Q2 .Q1) ∧ decode 0xE83E = .ok (.f9op7 .I6) ∧
  decode 0xF00F = .ok (.f10op3 .Q3) ∧ decode 0xF9E2 = .ok (.f11op1 .I7 .I0 .Q2) ∧
  decode 0xFC03 = .ok .f12op3

/-- R83. A decoded instruction has no effect in the block: every instruction completes in every state,
and the map, every byte of memory, the cards the host holds, the parameters and all else but the
value returned to the host stay as they were. -/
def Obligations.InstructionsHaveNoEffectInTheBlock : Prop :=
  ∀ (i : Instr) (s : State), ∃ t, exec i s = .next t ∧
    t.reply = some (.ok (.instruction i.value)) ∧
    t.map = s.map ∧ (∀ addr, t.byteAt addr = s.byteAt addr) ∧ t.held = s.held ∧
    t.cfg = s.cfg ∧ t.requests = s.requests ∧ t.draws = s.draws

/-- A step takes the host's next operation. Where it is the decode of a word that REF13 decodes to an
instruction, the step is that instruction's `exec`, in the state without the operation; the word
placed by `withFetchWord` is such a word. With no operation issued nothing happens (the model's
choice, log entry 2). -/
def Obligations.StepRunsTheDecodedInstruction : Prop :=
  (∀ (s : State) (w : Word) (rest : List Request) (i : Instr), s.requests = .decode w :: rest →
    s.cfg.catalog = ref13 → decode w = .ok i → step s = exec i { s with requests := rest }) ∧
  (∀ (s : State) (w : Nat) (i : Instr), decodeTableWord 16 w = some i →
    step (s.withFetchWord 16 w) = exec i { s with cfg := { s.cfg with catalog := ref13 } }) ∧
  (∀ s : State, s.requests = [] → step s = .next s)

/-! ### Cards the host holds (R84 to R90) -/

/-- Of R89. A new card has the size asked for and every byte 0; the host holds it, and nothing else changes.
The slot that names it, and its place in the list, are the model's choice (log entry 3). -/
def Obligations.NewCardIsZero : Prop :=
  ∀ (s : State) (n : BitVec 16), ∃ t c, step (s.asks (.cardNew n)) = .next t ∧
    t.reply = some (.ok (.slot s.held.length)) ∧
    t.held = s.held ++ [some c] ∧ t.heldCard s.held.length = some c ∧
    c.size = n ∧ (∀ a, c.byteAt a = 0) ∧
    (∀ a : Addr, a.toNat < n.toNat →
      step (t.asks (.cardReadByte s.held.length a)) = .next (t.answer (.ok (.byte 0)))) ∧
    t.map = s.map ∧ t.cfg = s.cfg ∧ t.requests = s.requests ∧ t.draws = s.draws

/-- R84, R85, R86. A held card's size, its bytes and its little-endian words, with their bounds; a read
changes nothing. -/
def Obligations.CardReads : Prop :=
  ∀ (s : State) (slot : Nat) (c : Card), s.heldCard slot = some c →
    step (s.asks (.cardSize slot)) = .next (s.answer (.ok (.size c.size))) ∧
    ∀ a : Addr,
      (a.toNat < c.size.toNat →
        step (s.asks (.cardReadByte slot a)) = .next (s.answer (.ok (.byte (c.byteAt a.toNat))))) ∧
      (c.size.toNat ≤ a.toNat →
        step (s.asks (.cardReadByte slot a)) = .next (s.answer (.err .address))) ∧
      (a.toNat + 1 < c.size.toNat → ∃ w : Word,
        w.toNat = (c.byteAt a.toNat).toNat + 256 * (c.byteAt (a.toNat + 1)).toNat ∧
        step (s.asks (.cardReadWord slot a)) = .next (s.answer (.ok (.word w)))) ∧
      (c.size.toNat ≤ a.toNat + 1 →
        step (s.asks (.cardReadWord slot a)) = .next (s.answer (.err .address)))

/-- Everything but the card in the slot and the reply is as it was. -/
def onlySlotChanges (s t : State) (slot : Nat) : Prop :=
  t.held.length = s.held.length ∧ (∀ k, k ≠ slot → t.heldCard k = s.heldCard k) ∧
    t.map = s.map ∧ t.cfg = s.cfg ∧ t.requests = s.requests

/-- R87. A byte write to a held card writes that byte and no other, or fails and writes nothing. -/
def Obligations.CardByteWrite : Prop :=
  ∀ (s : State) (slot : Nat) (c : Card) (a : Addr) (v : Byte), s.Inv → s.heldCard slot = some c →
    (a.toNat < c.size.toNat → ∃ t c', step (s.asks (.cardWriteByte slot a v)) = .next t ∧
      t.reply = some (.ok .unit) ∧ t.heldCard slot = some c' ∧ c'.size = c.size ∧
      c'.byteAt a.toNat = v ∧ (∀ b, b ≠ a.toNat → c'.byteAt b = c.byteAt b) ∧
      onlySlotChanges s t slot ∧ t.draws = s.draws) ∧
    (c.size.toNat ≤ a.toNat →
      step (s.asks (.cardWriteByte slot a v)) = .next (s.answer (.err .address)))

/-- R88. A word write to a held card stores the low byte at `a` and the high byte at `a+1`, and no other
byte; a failing one writes nothing under NONE, and under LOW_MAY_BE_WRITTEN leaves the low byte as it
was or, when it is in bounds, set to the word's low byte. -/
def Obligations.CardWordWrite : Prop :=
  ∀ (s : State) (slot : Nat) (c : Card) (a : Addr) (v : Word), s.Inv → s.heldCard slot = some c →
    (a.toNat + 1 < c.size.toNat → ∃ t c', step (s.asks (.cardWriteWord slot a v)) = .next t ∧
      t.reply = some (.ok .unit) ∧ t.heldCard slot = some c' ∧ c'.size = c.size ∧
      (c'.byteAt a.toNat).toNat = v.toNat % 256 ∧ (c'.byteAt (a.toNat + 1)).toNat = v.toNat / 256 ∧
      (∀ b, b ≠ a.toNat → b ≠ a.toNat + 1 → c'.byteAt b = c.byteAt b) ∧
      onlySlotChanges s t slot ∧ t.draws = s.draws) ∧
    (c.size.toNat ≤ a.toNat + 1 →
      (s.cfg.failEffect = .nothing →
        step (s.asks (.cardWriteWord slot a v)) = .next (s.answer (.err .address))) ∧
      ∃ t c', step (s.asks (.cardWriteWord slot a v)) = .next t ∧
        t.reply = some (.err .address) ∧ t.heldCard slot = some c' ∧ c'.size = c.size ∧
        (c'.byteAt a.toNat = c.byteAt a.toNat ∨
          (a.toNat < c.size.toNat ∧ (c'.byteAt a.toNat).toNat = v.toNat % 256)) ∧
        (∀ b, b ≠ a.toNat → c'.byteAt b = c.byteAt b) ∧ onlySlotChanges s t slot)

/-- Of R14 and the spec's decision D9. A device the host moved into the multiplexer, or whose registration failed, is no longer
held: no operation reaches it through its slot (each is refused, which is the model's way to say that
the host has no such operation). -/
def Obligations.NoAliasSurvivesRegistration : Prop :=
  ∀ (s t : State) (slot : Nat) (addr : Addr), step (s.asks (.addDevice addr slot)) = .next t →
    (∃ c, s.heldCard slot = some c) ∧ t.heldCard slot = none ∧
    (∀ k, k ≠ slot → t.heldCard k = s.heldCard k) ∧
    ∀ (a : Addr) (v : Byte) (w : Word),
      step (t.asks (.cardSize slot)) = .refused .deviceNotHeld ∧
      step (t.asks (.cardReadByte slot a)) = .refused .deviceNotHeld ∧
      step (t.asks (.cardReadWord slot a)) = .refused .deviceNotHeld ∧
      step (t.asks (.cardWriteByte slot a v)) = .refused .deviceNotHeld ∧
      step (t.asks (.cardWriteWord slot a w)) = .refused .deviceNotHeld ∧
      step (t.asks (.addDevice a slot)) = .refused .deviceNotHeld

/-! ### Reset and the multiplexer (R91 to R101, R113 to R116) -/

/-- Of R98 and R113. After reset the map is empty, and so it is after `MemoryMultiplexer::new()`; on an empty
map every access fails with `AddressError` and changes nothing. The cards the host holds stay (R114);
that the former map's cards go with it is the model's reading (log entry 6). -/
def Obligations.EveryAccessFailsOnAnEmptyMap : Prop :=
  State.reset.map = [] ∧
  (∀ s : State, ∃ t, step (s.asks .muxNew) = .next t ∧ t.reply = some (.ok .unit) ∧ t.map = [] ∧
    t.held = s.held ∧ t.cfg = s.cfg ∧ t.requests = s.requests ∧ t.draws = s.draws) ∧
  ∀ s : State, s.map = [] → ∀ (addr : Addr) (b : Byte) (w : Word),
    step (s.asks (.readByte addr)) = .next (s.answer (.err .address)) ∧
    step (s.asks (.readWord addr)) = .next (s.answer (.err .address)) ∧
    step (s.asks (.writeByte addr b)) = .next (s.answer (.err .address)) ∧
    step (s.asks (.writeWord addr w)) = .next (s.answer (.err .address))

/-- R91. Registration: `Overflow` when `addr + size` exceeds 0xFFFF, whatever else fails (R107); then
`Overlap` when an entry sits at `addr`, an entry below reaches past `addr`, or an entry above starts
before the end; and otherwise the entry is added and nothing else of the map changes. -/
def Obligations.AddDeviceChecks : Prop :=
  ∀ (s : State) (slot : Nat) (c : Card) (addr : Addr), s.Inv → s.heldCard slot = some c →
    (0xFFFF < addr.toNat + c.size.toNat →
      step (s.asks (.addDevice addr slot)) =
        .next ((s.setHeld slot none).answer (.err (.registration .overflow)))) ∧
    (addr.toNat + c.size.toNat ≤ 0xFFFF →
      (∃ e ∈ s.map, e.base = addr ∨
        (e.base.toNat < addr.toNat ∧ addr.toNat < e.base.toNat + e.dev.size.toNat) ∨
        (addr.toNat < e.base.toNat ∧ e.base.toNat < addr.toNat + c.size.toNat)) →
      step (s.asks (.addDevice addr slot)) =
        .next ((s.setHeld slot none).answer (.err (.registration .overlap)))) ∧
    (addr.toNat + c.size.toNat ≤ 0xFFFF →
      (∀ e ∈ s.map, e.base ≠ addr ∧
        (e.base.toNat < addr.toNat → e.base.toNat + e.dev.size.toNat ≤ addr.toNat) ∧
        (addr.toNat < e.base.toNat → addr.toNat + c.size.toNat ≤ e.base.toNat)) →
      ∃ t, step (s.asks (.addDevice addr slot)) = .next t ∧ t.reply = some (.ok .unit) ∧
        (∀ e, e ∈ t.map ↔ e ∈ s.map ∨ e = ⟨addr, c⟩) ∧ t.map.length = s.map.length + 1 ∧
        t.heldCard slot = none ∧ (∀ k, k ≠ slot → t.heldCard k = s.heldCard k) ∧
        t.cfg = s.cfg ∧ t.requests = s.requests ∧ t.draws = s.draws)

/-- R92. A failed `add_device` leaves `mux.map` exactly as it was, and the rejected device is discarded. -/
def Obligations.FailedAddDeviceLeavesTheMap : Prop :=
  ∀ (s t : State) (slot : Nat) (addr : Addr) (e : Error),
    step (s.asks (.addDevice addr slot)) = .next t → t.reply = some (.err e) →
    t.map = s.map ∧ t.heldCard slot = none ∧ t.cfg = s.cfg ∧ t.requests = s.requests ∧ t.draws = s.draws

/-- R116, an inference the spec marks as its own (from R91). Of two requested ranges that overlap, the one
registered first succeeds and the other fails with `Overlap`. -/
def Obligations.FirstRegisteredRangeWins : Prop :=
  ∀ (s t : State) (p q : Nat) (c d : Card) (addr addr' : Addr), s.Inv →
    s.heldCard p = some c → s.heldCard q = some d → p ≠ q →
    addr'.toNat + d.size.toNat ≤ 0xFFFF →
    addr.toNat < addr'.toNat + d.size.toNat → addr'.toNat < addr.toNat + c.size.toNat →
    step (s.asks (.addDevice addr p)) = .next t → t.reply = some (.ok .unit) →
    ∃ u, step (t.asks (.addDevice addr' q)) = .next u ∧
      u.reply = some (.err (.registration .overlap)) ∧ u.map = t.map ∧ ⟨addr, c⟩ ∈ u.map

/-- The induction step behind R15, R101 (marked derived) and R13. Every step keeps the invariant: the catalog well-formed, no entry past
0xFFFF, each entry ending at or before the next, every card's bytes canonical and inside the card. -/
def Obligations.StepKeepsTheInvariant : Prop :=
  ∀ s t : State, s.Inv → step s = .next t → t.Inv

/-- The state after reset is a good one, and so is every block that is built (R115). -/
def Obligations.ResetMeetsTheInvariant : Prop :=
  State.reset.Inv ∧ ∀ (cfg : Config) (s : State), State.build cfg = .next s → s.Inv

/-- R15. Whatever operations the host issues to a block that was just built, every map it reaches
meets R15: (a) no entry passes 0xFFFF; (b) two entries have different bases and no byte address in
common; (c) an entry with a smaller base ends at or before a greater base. -/
def Obligations.EveryReachableMapIsDisjoint : Prop :=
  ∀ (cfg : Config) (s t : State) (ops : List Request) (n : Nat), State.build cfg = .next s →
    stepsTo n { s with requests := ops } t →
    (∀ e ∈ t.map, e.base.toNat + e.dev.size.toNat ≤ 0xFFFF) ∧
    (∀ (i j : Nat) (e f : Entry), i ≠ j → t.map[i]? = some e → t.map[j]? = some f →
      e.base ≠ f.base ∧ ∀ a : Nat, ¬((e.base.toNat ≤ a ∧ a < e.base.toNat + e.dev.size.toNat) ∧
        (f.base.toNat ≤ a ∧ a < f.base.toNat + f.dev.size.toNat))) ∧
    (∀ e ∈ t.map, ∀ f ∈ t.map, e.base.toNat < f.base.toNat →
      e.base.toNat + e.dev.size.toNat ≤ f.base.toNat)

/-- R93. An access goes to the entry with the greatest base at or below the address, and to no device if
there is none; the device receives the address itself under RAW and the offset under OFFSET, and its
own bounds decide. -/
def Obligations.RoutingSelectsTheGreatestBase : Prop :=
  ∀ (s : State) (addr : Addr), s.Inv →
    ((∀ e ∈ s.map, addr.toNat < e.base.toNat) → ∀ (b : Byte) (w : Word),
      step (s.asks (.readByte addr)) = .next (s.answer (.err .address)) ∧
      step (s.asks (.readWord addr)) = .next (s.answer (.err .address)) ∧
      step (s.asks (.writeByte addr b)) = .next (s.answer (.err .address)) ∧
      step (s.asks (.writeWord addr w)) = .next (s.answer (.err .address))) ∧
    ∀ e ∈ s.map, e.base.toNat ≤ addr.toNat →
      (∀ f ∈ s.map, f.base.toNat ≤ addr.toNat → f.base.toNat ≤ e.base.toNat) →
      ∀ a : Addr, a.toNat = (match s.cfg.addrMode with
        | .raw => addr.toNat
        | .offset => addr.toNat - e.base.toNat) →
      step (s.asks (.readByte addr)) = .next (s.answer ((e.dev.readByte a).map .byte)) ∧
      step (s.asks (.readWord addr)) = .next (s.answer ((e.dev.readWord a).map .word)) ∧
      (∀ (b : Byte) (x : Error), e.dev.writeByte a b = .err x →
        step (s.asks (.writeByte addr b)) = .next (s.answer (.err x))) ∧
      (∀ (b : Byte) (d : Card), e.dev.writeByte a b = .ok d → ∃ t,
        step (s.asks (.writeByte addr b)) = .next t ∧ t.reply = some (.ok .unit) ∧ ⟨e.base, d⟩ ∈ t.map) ∧
      (∀ w : Word, ∃ t, step (s.asks (.writeWord addr w)) = .next t ∧
        t.reply = some ((e.dev.writeWord s.cfg.failEffect s.nextDraw a w).2.map fun _ => .unit) ∧
        ⟨e.base, (e.dev.writeWord s.cfg.failEffect s.nextDraw a w).1⟩ ∈ t.map)

/-- R99, an inference the spec marks as its own (from R93, R85, R15). Under RAW a byte access at
`addr` succeeds exactly when some registered card has its base at or below `addr` and `addr` below its
size, and then it reads that card's byte `addr`. -/
def Obligations.RawReachableBytes : Prop :=
  ∀ (s : State) (addr : Addr) (v : Byte), s.Inv → s.cfg.addrMode = .raw →
    (step (s.asks (.readByte addr)) = .next (s.answer (.ok (.byte v))) ↔
      ∃ e ∈ s.map, e.base.toNat ≤ addr.toNat ∧ addr.toNat < e.dev.size.toNat ∧
        v = e.dev.byteAt addr.toNat) ∧
    ((∃ t, step (s.asks (.writeByte addr v)) = .next t ∧ t.reply = some (.ok .unit)) ↔
      ∃ e ∈ s.map, e.base.toNat ≤ addr.toNat ∧ addr.toNat < e.dev.size.toNat)

/-- R100, an inference the spec marks as its own (from R93, R15, R91). Under OFFSET a byte access
at `addr` succeeds exactly when `addr` lies in some registered card's range, and then it reads byte
`addr - base`; a word access exactly when both bytes lie in the range of the same card. -/
def Obligations.OffsetReachableBytes : Prop :=
  ∀ (s : State) (addr : Addr), s.Inv → s.cfg.addrMode = .offset →
    (∀ v : Byte,
      (step (s.asks (.readByte addr)) = .next (s.answer (.ok (.byte v))) ↔
        ∃ e ∈ s.map, e.base.toNat ≤ addr.toNat ∧ addr.toNat < e.base.toNat + e.dev.size.toNat ∧
          v = e.dev.byteAt (addr.toNat - e.base.toNat)) ∧
      ((∃ t, step (s.asks (.writeByte addr v)) = .next t ∧ t.reply = some (.ok .unit)) ↔
        ∃ e ∈ s.map, e.base.toNat ≤ addr.toNat ∧ addr.toNat < e.base.toNat + e.dev.size.toNat)) ∧
    ∀ w : Word,
      (step (s.asks (.readWord addr)) = .next (s.answer (.ok (.word w))) ↔
        ∃ e ∈ s.map, e.base.toNat ≤ addr.toNat ∧ addr.toNat + 1 < e.base.toNat + e.dev.size.toNat ∧
          w.toNat = (e.dev.byteAt (addr.toNat - e.base.toNat)).toNat +
            256 * (e.dev.byteAt (addr.toNat - e.base.toNat + 1)).toNat) ∧
      ((∃ t, step (s.asks (.writeWord addr w)) = .next t ∧ t.reply = some (.ok .unit)) ↔
        ∃ e ∈ s.map, e.base.toNat ≤ addr.toNat ∧ addr.toNat + 1 < e.base.toNat + e.dev.size.toNat)

/-- Of R26, and of R30 (b), an inference the spec marks as its own (from R15 and R91). The address 0xFFFF is
owned by no device: every access there, a byte's too, fails with `AddressError` and changes nothing.
A word access to a card at its last byte or at 0xFFFF, in the
card's own addressing, fails too, through the multiplexer in either address mode and on a held card. -/
def Obligations.LastAddressAlwaysFails : Prop :=
  (∀ s : State, s.Inv → ∀ (b : Byte) (w : Word),
    step (s.asks (.readByte 0xFFFF)) = .next (s.answer (.err .address)) ∧
    step (s.asks (.readWord 0xFFFF)) = .next (s.answer (.err .address)) ∧
    step (s.asks (.writeByte 0xFFFF b)) = .next (s.answer (.err .address)) ∧
    step (s.asks (.writeWord 0xFFFF w)) = .next (s.answer (.err .address))) ∧
  (∀ (s : State) (e : Entry) (addr : Addr) (w : Word), s.Inv → e ∈ s.map →
    e.base.toNat ≤ addr.toNat →
    addr.toNat + 1 = (match s.cfg.addrMode with
      | .raw => e.dev.size.toNat
      | .offset => e.base.toNat + e.dev.size.toNat) →
    step (s.asks (.readWord addr)) = .next (s.answer (.err .address)) ∧
    ∃ t, step (s.asks (.writeWord addr w)) = .next t ∧ t.reply = some (.err .address)) ∧
  ∀ (s : State) (slot : Nat) (c : Card) (a : Addr) (w : Word), s.heldCard slot = some c →
    a.toNat = 0xFFFF ∨ a.toNat + 1 = c.size.toNat →
    step (s.asks (.cardReadWord slot a)) = .next (s.answer (.err .address)) ∧
    ∃ t, step (s.asks (.cardWriteWord slot a w)) = .next t ∧ t.reply = some (.err .address)

/-- Every entry keeps its place, its base and its size. -/
def sameLayout (s t : State) : Prop :=
  t.map.map (fun e => (e.base, e.dev.size)) = s.map.map (fun e => (e.base, e.dev.size))

/-- Every entry keeps its place, its base and its size; a byte of a registered card that changes is one of
the `n` bytes at the address that the card routed for `addr` receives; nothing else but the reply and
the count of draws changes. -/
def onlyStoredBytesChange (s t : State) (addr : Addr) (n : Nat) : Prop :=
  sameLayout s t ∧
  (∀ (i : Nat) (e f : Entry) (k : Nat), s.map[i]? = some e → t.map[i]? = some f →
    f.dev.byteAt k ≠ e.dev.byteAt k →
    ∃ a : Addr, route s.cfg.addrMode s.map addr = some (e, a) ∧ a.toNat ≤ k ∧ k < a.toNat + n) ∧
  t.held = s.held ∧ t.cfg = s.cfg ∧ t.requests = s.requests

/-- R96. A byte write at an address a device accepts writes that byte and no other; elsewhere it
fails and writes nothing. -/
def Obligations.MuxByteWrite : Prop :=
  ∀ (s : State) (addr : Addr) (v : Byte), s.Inv →
    ((∃ x, s.byteAt addr = .ok x) → ∃ t, step (s.asks (.writeByte addr v)) = .next t ∧
      t.reply = some (.ok .unit) ∧ t.byteAt addr = .ok v ∧
      (∀ b, b ≠ addr → t.byteAt b = s.byteAt b) ∧ onlyStoredBytesChange s t addr 1 ∧
      t.draws = s.draws) ∧
    (s.byteAt addr = .err .address →
      step (s.asks (.writeByte addr v)) = .next (s.answer (.err .address)))

/-- R97. A word write at an address where a word can be read stores its two bytes and no other, and a word
read there gives the word back; elsewhere it fails, and writes nothing under NONE, or under
LOW_MAY_BE_WRITTEN nothing but possibly the low byte at `addr`. -/
def Obligations.MuxWordWrite : Prop :=
  ∀ (s : State) (addr : Addr) (v : Word), s.Inv →
    ((∃ x, muxReadWord s.cfg.addrMode s.map addr = .ok x) →
      ∃ t, step (s.asks (.writeWord addr v)) = .next t ∧ t.reply = some (.ok .unit) ∧
        step (t.asks (.readWord addr)) = .next (t.answer (.ok (.word v))) ∧
        (∀ b, b ≠ addr → b.toNat ≠ addr.toNat + 1 → t.byteAt b = s.byteAt b) ∧
        onlyStoredBytesChange s t addr 2 ∧ t.draws = s.draws) ∧
    (muxReadWord s.cfg.addrMode s.map addr = .err .address →
      (s.cfg.failEffect = .nothing →
        step (s.asks (.writeWord addr v)) = .next (s.answer (.err .address))) ∧
      ∃ t, step (s.asks (.writeWord addr v)) = .next t ∧ t.reply = some (.err .address) ∧
        (∀ b, b ≠ addr → t.byteAt b = s.byteAt b) ∧
        (t.byteAt addr = s.byteAt addr ∨ ((∃ x, s.byteAt addr = .ok x) ∧
          ∃ y : Byte, y.toNat = v.toNat % 256 ∧ t.byteAt addr = .ok y)) ∧
        onlyStoredBytesChange s t addr 1)

/-- R22. A word read at `a` gives the byte at `a` as its bits 7..0 and the byte at `a+1` as its bits
15..8, in every address mode and at even and odd addresses alike; after a word write the two bytes
read as its halves. -/
def Obligations.WordsAreLittleEndian : Prop :=
  ∀ (s : State) (addr : Addr), s.Inv →
    (∀ w : Word, step (s.asks (.readWord addr)) = .next (s.answer (.ok (.word w))) →
      ∃ lo hi : Byte, s.byteAt addr = .ok lo ∧ s.byteAt (addr + 1) = .ok hi ∧
        w.toNat = hi.toNat * 256 + lo.toNat) ∧
    ∀ (w : Word) (t : State), step (s.asks (.writeWord addr w)) = .next t → t.reply = some (.ok .unit) →
      ∃ lo hi : Byte, t.byteAt addr = .ok lo ∧ t.byteAt (addr + 1) = .ok hi ∧
        lo.toNat = w.toNat % 256 ∧ hi.toNat = w.toNat / 256

/-- R36. A word whose high byte would fall in another device fails with `AddressError`: words are never
merged across devices, in either address mode. -/
def Obligations.WordsNeverCrossDevices : Prop :=
  ∀ (s : State) (addr : Addr) (f : Entry), s.Inv → f ∈ s.map → f.base.toNat = addr.toNat + 1 →
    step (s.asks (.readWord addr)) = .next (s.answer (.err .address)) ∧
    ∀ w : Word, ∃ t, step (s.asks (.writeWord addr w)) = .next t ∧ t.reply = some (.err .address) ∧
      f ∈ t.map

/-- R29, an inference the spec marks as its own (from R13). A read changes no state, and the same read
again returns the same. -/
def Obligations.ReadsHaveNoSideEffect : Prop :=
  ∀ (s : State) (addr : Addr),
    (∃ r, step (s.asks (.readByte addr)) = .next (s.answer r) ∧
      step ((s.answer r).asks (.readByte addr)) = .next (s.answer r)) ∧
    (∃ r, step (s.asks (.readWord addr)) = .next (s.answer r) ∧
      step ((s.answer r).asks (.readWord addr)) = .next (s.answer r))

/-- R102. In a good state every operation the host can issue returns to it, an `Ok` or an `Err`, and
leaves the block able to take the next; one that returns an error leaves every piece of state as it
was, but for a word write under LOW_MAY_BE_WRITTEN (and the host's rejected card, which D9 discards). -/
def Obligations.EveryLegalOperationReturns : Prop :=
  ∀ (s : State) (r : Request), s.Inv → r.legal s = true →
    ∃ t x, step (s.asks r) = .next t ∧ t.reply = some x ∧ t.Inv ∧ t.requests = s.requests ∧
      ∀ e, x = .err e →
        (s.cfg.failEffect = .nothing ∨
          ((∀ slot a v, r ≠ .cardWriteWord slot a v) ∧ ∀ addr v, r ≠ .writeWord addr v)) →
        t.map = s.map ∧ t.cfg = s.cfg ∧ t.draws = s.draws ∧
        ((∀ addr slot, r ≠ .addDevice addr slot) → t.held = s.held)

/-- R32 (in part). A byte that can be read keeps its value through every operation that is not a write to
that byte or the creation of a new multiplexer; a registration never takes the byte over. -/
def Obligations.BytesStayUntilWritten : Prop :=
  ∀ (s t : State) (r : Request) (addr : Addr) (v : Byte), s.Inv → s.byteAt addr = .ok v →
    r ≠ .muxNew → (∀ x, r ≠ .writeByte addr x) →
    (∀ a w, r = .writeWord a w → a ≠ addr ∧ a.toNat + 1 ≠ addr.toNat) →
    step (s.asks r) = .next t → t.byteAt addr = .ok v

/-- No operation writes the catalog, which R9 says, nor another parameter of R6: that all of them stand in
the state and stay fixed for the life of the block is the model's choice (log entry 8). -/
def Obligations.ParametersNeverChange : Prop :=
  ∀ s t : State, step s = .next t → t.cfg = s.cfg

/-- Of R13, R114 and R21. No operation but the creation of a new multiplexer (the model's choice, log entry
6) removes a registered card, none
changes a card's size, and only the multiplexer's writes change a registered card's bytes. -/
def Obligations.RegisteredCardsStay : Prop :=
  ∀ (s t : State) (r : Request), s.Inv → step (s.asks r) = .next t →
    (r ≠ .muxNew → ∀ e ∈ s.map, ∃ f ∈ t.map, f.base = e.base ∧ f.dev.size = e.dev.size) ∧
    (r ≠ .muxNew → (∀ addr v, r ≠ .writeByte addr v) → (∀ addr v, r ≠ .writeWord addr v) →
      ∀ e ∈ s.map, e ∈ t.map) ∧
    ((∀ addr slot, r ≠ .addDevice addr slot) → ∀ (slot : Nat) (c : Card), s.heldCard slot = some c →
      ∃ d, t.heldCard slot = some d ∧ d.size = c.size)

/-- Of R34 and R23, for REF13. An instruction word written to memory is fetched by a word read at once, and decodes to the
instruction it encodes: the third step runs that instruction. -/
def Obligations.FetchSeesTheWordJustWritten : Prop :=
  ∀ (s : State) (addr : Addr) (i : Instr), s.Inv → s.cfg.catalog = ref13 → i.wf = true →
    (∃ x, muxReadWord s.cfg.addrMode s.map addr = .ok x) →
    ∃ t u, step (s.asks (.writeWord addr (encode i))) = .next t ∧
      step (t.asks (.readWord addr)) = .next u ∧ u.reply = some (.ok (.word (encode i))) ∧
      step (u.asks (.decode (encode i))) = exec i u
end

