-- ==== Sys2Proof/Laws/State.lean ====
section
/-! SUPPORT. The fields of the state after each update, and what the shared updates do to a held card. -/

namespace Sys2Proof.Machine

variable (s : State) (r : Result Value) (b : Bool) (slot : Nat) (c : Option Card) (q : Request)

@[simp] theorem answer_cfg : (s.answer r).cfg = s.cfg := rfl
@[simp] theorem answer_map : (s.answer r).map = s.map := rfl
@[simp] theorem answer_held : (s.answer r).held = s.held := rfl
@[simp] theorem answer_requests : (s.answer r).requests = s.requests := rfl
@[simp] theorem answer_reply : (s.answer r).reply = some r := rfl
@[simp] theorem answer_draws : (s.answer r).draws = s.draws := rfl
@[simp] theorem answer_byteAt (a : Addr) : (s.answer r).byteAt a = s.byteAt a := rfl
@[simp] theorem answer_heldCard (k : Nat) : (s.answer r).heldCard k = s.heldCard k := rfl
@[simp] theorem answer_answer (r' : Result Value) : (s.answer r).answer r' = s.answer r' := rfl

@[simp] theorem asks_cfg : (s.asks q).cfg = s.cfg := rfl
@[simp] theorem asks_map : (s.asks q).map = s.map := rfl
@[simp] theorem asks_held : (s.asks q).held = s.held := rfl
@[simp] theorem asks_requests : (s.asks q).requests = q :: s.requests := rfl
@[simp] theorem asks_reply : (s.asks q).reply = s.reply := rfl
@[simp] theorem asks_draws : (s.asks q).draws = s.draws := rfl

@[simp] theorem setHeld_cfg : (s.setHeld slot c).cfg = s.cfg := rfl
@[simp] theorem setHeld_map : (s.setHeld slot c).map = s.map := rfl
@[simp] theorem setHeld_held : (s.setHeld slot c).held = s.held.set slot c := rfl
@[simp] theorem setHeld_requests : (s.setHeld slot c).requests = s.requests := rfl
@[simp] theorem setHeld_reply : (s.setHeld slot c).reply = s.reply := rfl
@[simp] theorem setHeld_draws : (s.setHeld slot c).draws = s.draws := rfl

@[simp] theorem countDraw_cfg : (s.countDraw b).cfg = s.cfg := by cases b <;> rfl
@[simp] theorem countDraw_map : (s.countDraw b).map = s.map := by cases b <;> rfl
@[simp] theorem countDraw_held : (s.countDraw b).held = s.held := by cases b <;> rfl
@[simp] theorem countDraw_requests : (s.countDraw b).requests = s.requests := by cases b <;> rfl
@[simp] theorem countDraw_reply : (s.countDraw b).reply = s.reply := by cases b <;> rfl
@[simp] theorem countDraw_false : s.countDraw false = s := rfl
@[simp] theorem countDraw_byteAt (a : Addr) : (s.countDraw b).byteAt a = s.byteAt a := by
  cases b <;> rfl
@[simp] theorem countDraw_heldCard (k : Nat) : (s.countDraw b).heldCard k = s.heldCard k := by
  cases b <;> rfl

/-- A step whose next operation is `q` performs `q` in the state without it. -/
@[simp] theorem step_asks : step (s.asks q) = perform q s := rfl

/-- A state with an operation issued is of the form `asks`. -/
theorem eq_asks_of_requests {rest : List Request} (h : s.requests = q :: rest) :
    s = ({ s with requests := rest } : State).asks q := by
  cases s; simp_all [State.asks]

/-- A state with no operation issued steps to itself. -/
theorem step_idle (h : s.requests = []) : step s = .next s := by
  simp [step, performNext, h]

/-- The slot of a held card is a place of the list. -/
theorem heldCard_lt {s : State} {slot : Nat} {d : Card} (h : s.heldCard slot = some d) :
    slot < s.held.length := by
  by_contra hn
  rw [State.heldCard, List.getElem?_eq_none (by omega)] at h
  cases h

/-- The list's entry of a held card. -/
theorem getElem?_of_heldCard {s : State} {slot : Nat} {d : Card} (h : s.heldCard slot = some d) :
    s.held[slot]? = some (some d) := by
  unfold State.heldCard at h
  cases hx : s.held[slot]? with
  | none => simp [hx] at h
  | some o => simp only [hx, Option.join_some] at h; rw [h]

/-- A held card is one of the list. -/
theorem mem_held_of_heldCard {s : State} {slot : Nat} {d : Card} (h : s.heldCard slot = some d) :
    some d ∈ s.held := List.mem_of_getElem? (getElem?_of_heldCard h)

theorem setHeld_heldCard_self (h : slot < s.held.length) : (s.setHeld slot c).heldCard slot = c := by
  simp [State.heldCard, State.setHeld, h]

@[simp] theorem setHeld_none_heldCard : (s.setHeld slot none).heldCard slot = none := by
  by_cases h : slot < s.held.length
  · exact setHeld_heldCard_self s slot none h
  · simp only [State.heldCard, State.setHeld]
    rw [List.getElem?_eq_none (by simpa using h)]; rfl

theorem setHeld_heldCard_ne {k : Nat} (h : k ≠ slot) :
    (s.setHeld slot c).heldCard k = s.heldCard k := by
  simp [State.heldCard, State.setHeld, List.getElem?_set_ne (Ne.symm h)]

/-- Putting a held card back changes nothing. -/
theorem setHeld_same {s : State} {slot : Nat} {d : Card} (h : s.heldCard slot = some d) :
    s.setHeld slot (some d) = s := by
  have hlt := heldCard_lt h
  have hget := getElem?_of_heldCard h
  have hs : s.held.set slot (some d) = s.held := by
    apply List.ext_getElem? ; intro k
    by_cases hk : slot = k
    · subst hk; rw [List.getElem?_set_self hlt, hget]
    · rw [List.getElem?_set_ne hk]
  cases s; simp_all [State.setHeld]

/-- What an operation on a held card answers. -/
theorem withHeld_some {s : State} {slot : Nat} {d : Card} (f : Card → State)
    (h : s.heldCard slot = some d) : s.withHeld slot f = .next (f d) := by
  simp [State.withHeld, h]

theorem withHeld_none {s : State} {slot : Nat} (f : Card → State) (h : s.heldCard slot = none) :
    s.withHeld slot f = .refused .deviceNotHeld := by
  simp [State.withHeld, h]

/-- An operation on a held card answers a next state only when the host holds the card. -/
theorem withHeld_next {s t : State} {slot : Nat} {f : Card → State}
    (h : s.withHeld slot f = .next t) : ∃ d, s.heldCard slot = some d ∧ t = f d := by
  unfold State.withHeld at h
  split at h
  · rename_i d hd; cases h; exact ⟨d, hd, rfl⟩
  · cases h

end Sys2Proof.Machine
end

