-- ==== Sys2Proof/Laws/Memory.lean ====
section
/-! SUPPORT. The bytes of a card: read after write, the canonical form, and what the card operations do. -/

namespace Sys2Proof.Machine

/-- An address no entry lists reads as 0. -/
theorem Memory.read_of_not_listed (m : Memory) (a : Nat) (h : ∀ c ∈ m, c.1 ≠ a) :
    Memory.read m a = Memory.unlisted := by
  induction m with
  | nil => rfl
  | cons c rest ih =>
    obtain ⟨k, x⟩ := c
    have hk : k ≠ a := h (k, x) (by simp)
    simp only [Memory.read, hk, if_false]
    exact ih fun c hc => h c (by simp [hc])

/-- A byte reads as last written. -/
theorem Memory.read_write_same (m : Memory) (hm : Memory.wf m) (a : Nat) (v : Byte) :
    Memory.read (Memory.write m a v) a = v := by
  induction m with
  | nil =>
    by_cases hv : v = Memory.unlisted
    · simp [Memory.write, hv, Memory.read]
    · simp [Memory.write, hv, Memory.read]
  | cons c rest ih =>
    obtain ⟨k, x⟩ := c
    have hs := List.pairwise_cons.mp hm.1
    have hrest : Memory.wf rest := ⟨hs.2, fun c hc => hm.2 c (by simp [hc])⟩
    by_cases hv : v = Memory.unlisted
    · by_cases h1 : a < k
      · simp only [Memory.write, h1, hv, if_true]
        apply Memory.read_of_not_listed
        intro c hc
        rcases List.mem_cons.mp hc with rfl | hc
        · simp; omega
        · have := hs.1 c hc; simp at this; omega
      · by_cases h2 : a = k
        · subst h2
          simp only [Memory.write, hv, if_true, lt_irrefl, if_false]
          apply Memory.read_of_not_listed
          intro c hc
          have := hs.1 c hc; simp at this; omega
        · have hka : k ≠ a := fun h => h2 h.symm
          simp only [Memory.write, h1, h2, if_false, Memory.read, hka]
          exact ih hrest
    · by_cases h1 : a < k
      · simp [Memory.write, h1, hv, Memory.read]
      · by_cases h2 : a = k
        · subst h2; simp [Memory.write, hv, Memory.read]
        · have hka : k ≠ a := fun h => h2 h.symm
          simp only [Memory.write, h1, h2, if_false, Memory.read, hka]
          exact ih hrest

/-- A write leaves every other byte as it was. -/
theorem Memory.read_write_other (m : Memory) (a b : Nat) (v : Byte) (h : b ≠ a) :
    Memory.read (Memory.write m a v) b = Memory.read m b := by
  have hab : a ≠ b := Ne.symm h
  induction m with
  | nil => by_cases hv : v = Memory.unlisted <;> simp [Memory.write, hv, Memory.read, hab]
  | cons c rest ih =>
    obtain ⟨k, x⟩ := c
    by_cases h1 : a < k
    · by_cases hv : v = Memory.unlisted <;> simp [Memory.write, h1, hv, Memory.read, hab]
    · by_cases h2 : a = k
      · subst h2
        by_cases hv : v = Memory.unlisted <;> simp [Memory.write, hv, Memory.read, hab]
      · simp only [Memory.write, h1, h2, if_false, Memory.read, ih]

/-- A write lists nothing new but the address written. -/
theorem Memory.mem_write (m : Memory) (a : Nat) (v : Byte) (c : Host.Cell)
    (h : c ∈ Memory.write m a v) : c ∈ m ∨ (c = (a, v) ∧ v ≠ Memory.unlisted) := by
  induction m with
  | nil =>
    by_cases hv : v = Memory.unlisted <;> simp [Memory.write, hv] at h
    exact .inr ⟨h, hv⟩
  | cons d rest ih =>
    obtain ⟨k, x⟩ := d
    by_cases h1 : a < k
    · by_cases hv : v = Memory.unlisted
      · simp only [Memory.write, h1, hv, if_true] at h; exact .inl h
      · simp only [Memory.write, h1, hv, if_true, if_false] at h
        rcases List.mem_cons.mp h with h | h
        · exact .inr ⟨h, hv⟩
        · exact .inl h
    · by_cases h2 : a = k
      · by_cases hv : v = Memory.unlisted
        · simp only [Memory.write, h2, hv, if_true, lt_irrefl, if_false] at h
          exact .inl (List.mem_cons_of_mem _ h)
        · simp only [Memory.write, h2, hv, lt_irrefl, if_true, if_false] at h
          rcases List.mem_cons.mp h with h | h
          · exact .inr ⟨h2 ▸ h, hv⟩
          · exact .inl (List.mem_cons_of_mem _ h)
      · simp only [Memory.write, h1, h2, if_false] at h
        rcases List.mem_cons.mp h with h | h
        · exact .inl (by simp [h])
        · rcases ih h with h | h
          · exact .inl (List.mem_cons_of_mem _ h)
          · exact .inr h

/-- Every write keeps the canonical form. -/
theorem Memory.write_wf (m : Memory) (hm : Memory.wf m) (a : Nat) (v : Byte) :
    Memory.wf (Memory.write m a v) := by
  refine ⟨?_, fun c hc => ?_⟩
  · induction m with
    | nil => by_cases hv : v = Memory.unlisted <;> simp [Memory.write, hv]
    | cons c rest ih =>
      obtain ⟨k, x⟩ := c
      have hs := List.pairwise_cons.mp hm.1
      have hrest : Memory.wf rest := ⟨hs.2, fun c hc => hm.2 c (by simp [hc])⟩
      by_cases h1 : a < k
      · by_cases hv : v = Memory.unlisted
        · simp only [Memory.write, h1, hv, if_true]; exact hm.1
        · simp only [Memory.write, h1, hv, if_true, if_false]
          refine List.pairwise_cons.mpr ⟨fun c hc => ?_, hm.1⟩
          rcases List.mem_cons.mp hc with rfl | hc
          · exact h1
          · have := hs.1 c hc; simp at this ⊢; omega
      · by_cases h2 : a = k
        · by_cases hv : v = Memory.unlisted
          · simp only [Memory.write, h2, hv, if_true, lt_irrefl, if_false]; exact hs.2
          · simp only [Memory.write, h2, hv, lt_irrefl, if_true, if_false]
            exact List.pairwise_cons.mpr ⟨fun c hc => by simpa using hs.1 c hc, hs.2⟩
        · simp only [Memory.write, h1, h2, if_false]
          refine List.pairwise_cons.mpr ⟨fun c hc => ?_, ih hrest⟩
          rcases Memory.mem_write rest a v c hc with hc | ⟨rfl, -⟩
          · exact hs.1 c hc
          · simp; omega
  · rcases Memory.mem_write m a v c hc with h | ⟨rfl, h⟩
    · exact hm.2 c h
    · exact h

/-! ### Cards -/

@[simp] theorem setByte_size (c : Card) (a : Nat) (v : Byte) : (c.setByte a v).size = c.size := rfl

theorem setByte_same (c : Card) (h : c.wf) (a : Nat) (v : Byte) : (c.setByte a v).byteAt a = v :=
  Memory.read_write_same c.buf h.1 a v

theorem setByte_other (c : Card) (a b : Nat) (v : Byte) (h : b ≠ a) :
    (c.setByte a v).byteAt b = c.byteAt b := Memory.read_write_other c.buf a b v h

/-- Setting a byte inside the card keeps it well-formed. -/
theorem setByte_wf (c : Card) (h : c.wf) (a : Nat) (v : Byte) (ha : a < c.size.toNat) :
    (c.setByte a v).wf := by
  refine ⟨Memory.write_wf c.buf h.1 a v, fun p hp => ?_⟩
  rcases Memory.mem_write c.buf a v p hp with hp | ⟨rfl, -⟩
  · exact h.2 p hp
  · exact ha

theorem new_wf (n : BitVec 16) : (Card.new n).wf := ⟨⟨.nil, by simp [Card.new]⟩, by simp [Card.new]⟩

@[simp] theorem new_size (n : BitVec 16) : (Card.new n).size = n := rfl
@[simp] theorem new_byteAt (n : BitVec 16) (a : Nat) : (Card.new n).byteAt a = 0 := rfl

/-- A word access fails exactly when the high byte is out of bounds; a size is at most 0xFFFF, so that
takes in the address 0xFFFF. -/
theorem wordFails_iff (c : Card) (a : Addr) : c.wordFails a = true ↔ c.size.toNat ≤ a.toNat + 1 := by
  have h1 := c.size.isLt
  simp only [Card.wordFails, Bool.or_eq_true, decide_eq_true_eq]
  omega

theorem readByte_ok {c : Card} {a : Addr} (h : a.toNat < c.size.toNat) :
    c.readByte a = .ok (c.byteAt a.toNat) := by simp [Card.readByte, h]

theorem readByte_err {c : Card} {a : Addr} (h : c.size.toNat ≤ a.toNat) :
    c.readByte a = .err .address := by simp [Card.readByte, h]

theorem readWord_ok {c : Card} {a : Addr} (h : a.toNat + 1 < c.size.toNat) :
    c.readWord a = .ok (wordOfBytes (c.byteAt a.toNat) (c.byteAt (a.toNat + 1))) := by
  have : c.wordFails a = false := by
    rw [Bool.eq_false_iff]; intro hf; rw [wordFails_iff] at hf; omega
  simp [Card.readWord, this]

theorem readWord_err {c : Card} {a : Addr} (h : c.size.toNat ≤ a.toNat + 1) :
    c.readWord a = .err .address := by
  simp [Card.readWord, (wordFails_iff c a).mpr h]

theorem writeByte_ok {c : Card} {a : Addr} (v : Byte) (h : a.toNat < c.size.toNat) :
    c.writeByte a v = .ok (c.setByte a.toNat v) := by simp [Card.writeByte, h]

theorem writeByte_err {c : Card} {a : Addr} (v : Byte) (h : c.size.toNat ≤ a.toNat) :
    c.writeByte a v = .err .address := by simp [Card.writeByte, h]

theorem writeWord_ok {c : Card} {a : Addr} (eff : WordWriteFailEffect) (draw : Bool) (v : Word)
    (h : a.toNat + 1 < c.size.toNat) :
    c.writeWord eff draw a v =
      ((c.setByte a.toNat (lo8 v)).setByte (a.toNat + 1) (hi8 v), .ok ()) := by
  have : c.wordFails a = false := by
    rw [Bool.eq_false_iff]; intro hf; rw [wordFails_iff] at hf; omega
  simp [Card.writeWord, this]

/-- A successful word access draws no free value. -/
theorem drawsAt_ok {c : Card} {a : Addr} (eff : WordWriteFailEffect) (h : a.toNat + 1 < c.size.toNat) :
    c.drawsAt eff a = false := by
  have : c.wordFails a = false := by
    rw [Bool.eq_false_iff]; intro hf; rw [wordFails_iff] at hf; omega
  cases eff <;> simp [Card.drawsAt, this]

@[simp] theorem drawsAt_nothing (c : Card) (a : Addr) : c.drawsAt .nothing a = false := rfl

/-- A failing word write under NONE changes nothing. -/
theorem writeWord_err_nothing {c : Card} {a : Addr} (draw : Bool) (v : Word)
    (h : c.size.toNat ≤ a.toNat + 1) : c.writeWord .nothing draw a v = (c, .err .address) := by
  simp [Card.writeWord, (wordFails_iff c a).mpr h]

/-- What a failing word write does, whatever the parameter and the draw: an error, and the card as it was
or with its low byte set, which is then in bounds. -/
theorem writeWord_err {c : Card} {a : Addr} (eff : WordWriteFailEffect) (draw : Bool) (v : Word)
    (h : c.size.toNat ≤ a.toNat + 1) :
    c.writeWord eff draw a v = (c, .err .address) ∨
    (a.toNat < c.size.toNat ∧
      c.writeWord eff draw a v = (c.setByte a.toNat (lo8 v), .err .address)) := by
  have hf := (wordFails_iff c a).mpr h
  by_cases hd : (c.drawsAt eff a && draw) = true
  · refine .inr ⟨?_, by simp [Card.writeWord, hf, hd]⟩
    cases eff with
    | nothing => simp at hd
    | lowMayBeWritten => simp [Card.drawsAt, hf] at hd; exact hd.1
  · exact .inl (by simp [Card.writeWord, hf, hd])

/-- The two ends of a word write: it succeeds, or it fails. -/
theorem writeWord_wf {c : Card} (hc : c.wf) (eff : WordWriteFailEffect) (draw : Bool) (a : Addr)
    (v : Word) : (c.writeWord eff draw a v).1.wf ∧ (c.writeWord eff draw a v).1.size = c.size := by
  rcases Nat.lt_or_ge (a.toNat + 1) c.size.toNat with h | h
  · rw [writeWord_ok eff draw v h]
    exact ⟨setByte_wf _ (setByte_wf c hc _ _ (by omega)) _ _ h, rfl⟩
  · rcases writeWord_err eff draw v h with he | ⟨hl, he⟩ <;> rw [he]
    · exact ⟨hc, rfl⟩
    · exact ⟨setByte_wf c hc _ _ hl, rfl⟩

/-- The size is kept by every word write. -/
theorem writeWord_size (c : Card) (eff : WordWriteFailEffect) (draw : Bool) (a : Addr) (v : Word) :
    (c.writeWord eff draw a v).1.size = c.size := by
  unfold Card.writeWord; split
  · split <;> rfl
  · rfl

@[simp] theorem lo8_toNat (v : Word) : (lo8 v).toNat = v.toNat % 256 := by simp [lo8]

@[simp] theorem hi8_toNat (v : Word) : (hi8 v).toNat = v.toNat / 256 := by
  have := v.isLt; simp [hi8]; omega

@[simp] theorem wordOfBytes_toNat (lo hi : Byte) :
    (wordOfBytes lo hi).toNat = lo.toNat + 256 * hi.toNat := by
  have h1 := lo.isLt
  simp only [wordOfBytes]
  rw [BitVec.toNat_append, Nat.shiftLeft_eq, Nat.mul_comm, ← Nat.two_pow_add_eq_or_of_lt h1]
  omega

/-- A word is made of its two halves. -/
theorem wordOfBytes_halves (v : Word) : wordOfBytes (lo8 v) (hi8 v) = v := by
  apply BitVec.eq_of_toNat_eq; simp; omega

end Sys2Proof.Machine
end

