-- ==== Sys2Proof/Laws/Map.lean ====
section
/-! SUPPORT. The multiplexer's map: what the nearest entries are, routing, inserting and replacing. -/

namespace Sys2Proof.Machine

/-- What the nearest entry at or below an address is. -/
theorem nearestBelow_some {map : List Entry} {addr : Addr} {e : Entry}
    (h : nearestBelow map addr = some e) :
    e ∈ map ∧ e.base.toNat ≤ addr.toNat ∧
      ∀ f ∈ map, f.base.toNat ≤ addr.toNat → f.base.toNat ≤ e.base.toNat := by
  induction map generalizing e with
  | nil => cases h
  | cons g rest ih =>
    unfold nearestBelow at h
    cases hr : nearestBelow rest addr with
    | some f =>
      obtain ⟨hm, hle, hmax⟩ := ih hr
      simp only [hr] at h
      split at h <;> cases h
      · rename_i hg
        refine ⟨by simp, hg.1, fun k hk hkle => ?_⟩
        rcases List.mem_cons.mp hk with rfl | hk
        · exact le_rfl
        · have := hmax k hk hkle; omega
      · rename_i hg
        refine ⟨by simp [hm], hle, fun k hk hkle => ?_⟩
        rcases List.mem_cons.mp hk with rfl | hk
        · by_contra hn; exact hg ⟨hkle, by omega⟩
        · exact hmax k hk hkle
    | none =>
      have hnone : ∀ k ∈ rest, ¬k.base.toNat ≤ addr.toNat := by
        clear ih h
        induction rest with
        | nil => simp
        | cons k ks ihk =>
          unfold nearestBelow at hr
          cases hx : nearestBelow ks addr with
          | some _ => simp only [hx] at hr; split at hr <;> cases hr
          | none =>
            simp only [hx] at hr
            split at hr
            · cases hr
            · intro j hj
              rcases List.mem_cons.mp hj with rfl | hj
              · assumption
              · exact ihk hx j hj
      simp only [hr] at h
      split at h
      · cases h
        rename_i hg
        refine ⟨by simp, hg, fun k hk hkle => ?_⟩
        rcases List.mem_cons.mp hk with rfl | hk
        · exact le_rfl
        · exact absurd hkle (hnone k hk)
      · cases h

/-- There is no entry at or below the address. -/
theorem nearestBelow_none_iff {map : List Entry} {addr : Addr} :
    nearestBelow map addr = none ↔ ∀ e ∈ map, addr.toNat < e.base.toNat := by
  induction map with
  | nil => simp [nearestBelow]
  | cons g rest ih =>
    unfold nearestBelow
    cases hr : nearestBelow rest addr with
    | some f =>
      obtain ⟨hm, hle, -⟩ := nearestBelow_some hr
      constructor
      · intro h; simp only at h; split at h <;> cases h
      · intro h; have := h f (by simp [hm]); omega
    | none =>
      have := ih.mp hr
      simp only [ite_eq_right_iff, reduceCtorEq, imp_false, List.forall_mem_cons, not_le]
      exact ⟨fun h => ⟨h, this⟩, fun h => h.1⟩

/-- What the nearest entry at or above an address is. -/
theorem nearestAbove_some {map : List Entry} {addr : Addr} {e : Entry}
    (h : nearestAbove map addr = some e) : e ∈ map ∧ addr.toNat ≤ e.base.toNat := by
  induction map generalizing e with
  | nil => cases h
  | cons g rest ih =>
    unfold nearestAbove at h
    cases hr : nearestAbove rest addr with
    | some f =>
      obtain ⟨hm, hle⟩ := ih hr
      simp only [hr] at h
      split at h <;> cases h
      · rename_i hg; exact ⟨by simp, hg.1⟩
      · exact ⟨by simp [hm], hle⟩
    | none =>
      simp only [hr] at h
      split at h
      · cases h; rename_i hg; exact ⟨by simp, hg⟩
      · cases h

/-- Every entry at or above the address is at or above the nearest one, which exists. -/
theorem nearestAbove_le {map : List Entry} {addr : Addr} {f : Entry} (hf : f ∈ map)
    (h : addr.toNat ≤ f.base.toNat) :
    ∃ e, nearestAbove map addr = some e ∧ e.base.toNat ≤ f.base.toNat := by
  induction map with
  | nil => cases hf
  | cons g rest ih =>
    unfold nearestAbove
    rcases List.mem_cons.mp hf with rfl | hf
    · cases hr : nearestAbove rest addr with
      | some e =>
        by_cases hc : addr.toNat ≤ f.base.toNat ∧ f.base.toNat < e.base.toNat
        · exact ⟨f, by simp [hc], le_rfl⟩
        · exact ⟨e, by simp [hc], by omega⟩
      | none => exact ⟨f, by simp [h], le_rfl⟩
    · obtain ⟨e, he, hle⟩ := ih hf
      rw [he]
      by_cases hc : addr.toNat ≤ g.base.toNat ∧ g.base.toNat < e.base.toNat
      · exact ⟨g, by simp [hc], by omega⟩
      · exact ⟨e, by simp [hc], hle⟩

/-- In a good map a base names one entry. -/
theorem mapOk_base_inj {map : List Entry} (h : mapOk map) {e f : Entry} (he : e ∈ map) (hf : f ∈ map)
    (hb : e.base.toNat = f.base.toNat) : e = f := by
  obtain ⟨-, hp⟩ := h
  induction map with
  | nil => cases he
  | cons g rest ih =>
    have hs := List.pairwise_cons.mp hp
    rcases List.mem_cons.mp he with rfl | he' <;> rcases List.mem_cons.mp hf with rfl | hf'
    · rfl
    · have := (hs.1 f hf').1; omega
    · have := (hs.1 e he').1; omega
    · exact ih he' hf' hs.2

/-- In a good map an entry with a smaller base ends at or before the other (R15 (c)). -/
theorem mapOk_limit_le {map : List Entry} (h : mapOk map) {e f : Entry} (he : e ∈ map) (hf : f ∈ map)
    (hb : e.base.toNat < f.base.toNat) : e.limit ≤ f.base.toNat := by
  obtain ⟨-, hp⟩ := h
  induction map with
  | nil => cases he
  | cons g rest ih =>
    have hs := List.pairwise_cons.mp hp
    rcases List.mem_cons.mp he with rfl | he' <;> rcases List.mem_cons.mp hf with rfl | hf'
    · omega
    · exact (hs.1 f hf').2
    · have := (hs.1 e he').1; omega
    · exact ih he' hf' hs.2

/-- The nearest entry below an address, from its description. -/
theorem nearestBelow_eq {map : List Entry} (h : mapOk map) {addr : Addr} {e : Entry} (he : e ∈ map)
    (hle : e.base.toNat ≤ addr.toNat)
    (hmax : ∀ f ∈ map, f.base.toNat ≤ addr.toNat → f.base.toNat ≤ e.base.toNat) :
    nearestBelow map addr = some e := by
  cases hn : nearestBelow map addr with
  | none => have := nearestBelow_none_iff.mp hn e he; omega
  | some f =>
    obtain ⟨hf, hfle, hfmax⟩ := nearestBelow_some hn
    have h1 := hmax f hf hfle
    have h2 := hfmax e he hle
    rw [mapOk_base_inj h he hf (by omega)]

/-- The local address of a routed access, as a number. -/
theorem localAddr_toNat (mode : MuxAddrMode) {base addr : Addr} (h : base.toNat ≤ addr.toNat) :
    (localAddr mode base addr).toNat =
      match mode with | .raw => addr.toNat | .offset => addr.toNat - base.toNat := by
  cases mode with
  | raw => rfl
  | offset =>
    have h1 := addr.isLt
    have h2 := base.isLt
    simp only [localAddr, BitVec.toNat_sub]
    omega

/-- A local address is at most the global one. -/
theorem localAddr_le (mode : MuxAddrMode) {base addr : Addr} (h : base.toNat ≤ addr.toNat) :
    (localAddr mode base addr).toNat ≤ addr.toNat := by
  rw [localAddr_toNat mode h]; cases mode <;> simp

/-- Routing finds an entry, or there is none at or below the address. -/
theorem route_cases (mode : MuxAddrMode) (map : List Entry) (addr : Addr) :
    (route mode map addr = none ∧ ∀ e ∈ map, addr.toNat < e.base.toNat) ∨
    ∃ e, route mode map addr = some (e, localAddr mode e.base addr) ∧ e ∈ map ∧
      e.base.toNat ≤ addr.toNat ∧
      ∀ f ∈ map, f.base.toNat ≤ addr.toNat → f.base.toNat ≤ e.base.toNat := by
  cases hn : nearestBelow map addr with
  | none => exact .inl ⟨by simp [route, hn], nearestBelow_none_iff.mp hn⟩
  | some e =>
    obtain ⟨h1, h2, h3⟩ := nearestBelow_some hn
    exact .inr ⟨e, by simp [route, hn], h1, h2, h3⟩

/-- Routing to an entry, from its description. -/
theorem route_eq (mode : MuxAddrMode) {map : List Entry} (h : mapOk map) {addr : Addr} {e : Entry}
    (he : e ∈ map) (hle : e.base.toNat ≤ addr.toNat)
    (hmax : ∀ f ∈ map, f.base.toNat ≤ addr.toNat → f.base.toNat ≤ e.base.toNat) :
    route mode map addr = some (e, localAddr mode e.base addr) := by
  simp [route, nearestBelow_eq h he hle hmax]

theorem muxReadByte_none {mode : MuxAddrMode} {map : List Entry} {addr : Addr}
    (h : route mode map addr = none) : muxReadByte mode map addr = .err .address := by
  simp [muxReadByte, h]

theorem muxReadByte_some {mode : MuxAddrMode} {map : List Entry} {addr a : Addr} {e : Entry}
    (h : route mode map addr = some (e, a)) : muxReadByte mode map addr = e.dev.readByte a := by
  simp [muxReadByte, h]

theorem muxReadWord_none {mode : MuxAddrMode} {map : List Entry} {addr : Addr}
    (h : route mode map addr = none) : muxReadWord mode map addr = .err .address := by
  simp [muxReadWord, h]

theorem muxReadWord_some {mode : MuxAddrMode} {map : List Entry} {addr a : Addr} {e : Entry}
    (h : route mode map addr = some (e, a)) : muxReadWord mode map addr = e.dev.readWord a := by
  simp [muxReadWord, h]

/-! ### Replacing a device -/

/-- Replacing a device by itself changes nothing. -/
theorem replaceAt_same {map : List Entry} (h : mapOk map) {e : Entry} (he : e ∈ map) :
    replaceAt map e.base e.dev = map := by
  unfold replaceAt
  conv_rhs => rw [← List.map_id map]
  apply List.map_congr_left
  intro f hf
  split
  · rename_i hb
    have := mapOk_base_inj h he hf (by rw [hb])
    subst this; rfl
  · rfl

/-- What the entries are after a device is replaced. -/
theorem mem_replaceAt {map : List Entry} (h : mapOk map) {e : Entry} (he : e ∈ map) {dev : Card}
    {f : Entry} : f ∈ replaceAt map e.base dev ↔ f = { e with dev := dev } ∨ (f ∈ map ∧ f ≠ e) := by
  unfold replaceAt
  rw [List.mem_map]
  constructor
  · rintro ⟨g, hg, rfl⟩
    split
    · rename_i hb
      have := mapOk_base_inj h he hg (by rw [hb])
      subst this; exact .inl rfl
    · rename_i hb
      exact .inr ⟨hg, fun hge => hb (by rw [hge])⟩
  · rintro (rfl | ⟨hf, hne⟩)
    · exact ⟨e, he, by simp⟩
    · refine ⟨f, hf, ?_⟩
      split
      · rename_i hb
        exact absurd (mapOk_base_inj h hf he (by rw [hb])) hne
      · rfl

/-- The nearest entry after a device is replaced. -/
theorem nearestBelow_replaceAt (map : List Entry) (base : Addr) (dev : Card) (addr : Addr) :
    nearestBelow (replaceAt map base dev) addr =
      (nearestBelow map addr).map fun e => if e.base = base then { e with dev := dev } else e := by
  induction map with
  | nil => rfl
  | cons g rest ih =>
    simp only [replaceAt, List.map_cons] at ih ⊢
    have hbase : ∀ k : Entry, (if k.base = base then { k with dev := dev } else k).base = k.base := by
      intro k; split <;> rfl
    unfold nearestBelow
    rw [ih]
    cases nearestBelow rest addr with
    | some f => simp only [Option.map_some, hbase]; split <;> rfl
    | none => simp only [Option.map_none, hbase]; split <;> rfl

/-- Routing after a device is replaced: the same entry, with the device replaced if it is that one. -/
theorem route_replaceAt (mode : MuxAddrMode) (map : List Entry) (base : Addr) (dev : Card)
    (addr : Addr) : route mode (replaceAt map base dev) addr =
      (route mode map addr).map fun p =>
        (if p.1.base = base then { p.1 with dev := dev } else p.1, p.2) := by
  unfold route
  rw [nearestBelow_replaceAt]
  cases nearestBelow map addr with
  | none => rfl
  | some e => simp only [Option.map_some]; split <;> rfl

/-- A map stays good when a device is replaced by one of its size. -/
theorem mapOk_replaceAt {map : List Entry} (h : mapOk map) {e : Entry} (he : e ∈ map) {dev : Card}
    (hs : dev.size = e.dev.size) : mapOk (replaceAt map e.base dev) := by
  have hkey : ∀ f ∈ map, ∀ g : Entry, g = (if f.base = e.base then { f with dev := dev } else f) →
      g.base = f.base ∧ g.limit = f.limit := by
    rintro f hf g rfl
    split
    · rename_i hb
      have := mapOk_base_inj h he hf (by rw [hb])
      subst this
      exact ⟨rfl, by simp [Entry.limit, hs]⟩
    · exact ⟨rfl, rfl⟩
  refine ⟨fun g hg => ?_, ?_⟩
  · obtain ⟨f, hf, hfg⟩ := List.mem_map.mp hg
    rw [(hkey f hf g hfg.symm).2]; exact h.1 f hf
  · unfold replaceAt
    rw [List.pairwise_map]
    refine h.2.imp_of_mem fun {a b} ha hb hab => ?_
    rw [(hkey a ha _ rfl).1, (hkey a ha _ rfl).2, (hkey b hb _ rfl).1]
    exact hab

/-- The places, bases and sizes are kept when a device is replaced by one of its size. -/
theorem sameLayout_replaceAt {map : List Entry} (h : mapOk map) {e : Entry} (he : e ∈ map) {dev : Card}
    (hs : dev.size = e.dev.size) :
    (replaceAt map e.base dev).map (fun e => (e.base, e.dev.size)) =
      map.map fun e => (e.base, e.dev.size) := by
  unfold replaceAt
  rw [List.map_map]
  apply List.map_congr_left
  intro f hf
  simp only [Function.comp]
  split
  · rename_i hb
    have := mapOk_base_inj h he hf (by rw [hb])
    subst this; simp [hs]
  · rfl

/-! ### Inserting a device -/

theorem mem_insertEntry {map : List Entry} {e f : Entry} :
    f ∈ insertEntry map e ↔ f ∈ map ∨ f = e := by
  induction map with
  | nil => simp [insertEntry]
  | cons g rest ih =>
    unfold insertEntry
    split
    · simp [or_comm]
    · simp [ih, or_assoc]

theorem length_insertEntry (map : List Entry) (e : Entry) :
    (insertEntry map e).length = map.length + 1 := by
  induction map with
  | nil => rfl
  | cons g rest ih => unfold insertEntry; split <;> simp [ih]

/-- A map stays good when an entry is inserted that ends by 0xFFFF and is clear of every other. -/
theorem mapOk_insertEntry {map : List Entry} (h : mapOk map) {e : Entry} (hl : e.limit ≤ 0xFFFF)
    (hc : ∀ f ∈ map, f.base.toNat ≠ e.base.toNat ∧
      (f.base.toNat < e.base.toNat → f.limit ≤ e.base.toNat) ∧
      (e.base.toNat < f.base.toNat → e.limit ≤ f.base.toNat)) : mapOk (insertEntry map e) := by
  refine ⟨fun f hf => ?_, ?_⟩
  · rcases mem_insertEntry.mp hf with hf | rfl
    · exact h.1 f hf
    · exact hl
  · obtain ⟨-, hp⟩ := h
    induction map with
    | nil => simp [insertEntry]
    | cons g rest ih =>
      have hs := List.pairwise_cons.mp hp
      have hg := hc g (by simp)
      unfold insertEntry
      split
      · rename_i hlt
        refine List.pairwise_cons.mpr ⟨fun f hf => ?_, hp⟩
        rcases List.mem_cons.mp hf with rfl | hf
        · exact ⟨hlt, hg.2.2 hlt⟩
        · have h1 := (hs.1 f hf).1
          exact ⟨by omega, (hc f (by simp [hf])).2.2 (by omega)⟩
      · rename_i hlt
        refine List.pairwise_cons.mpr ⟨fun f hf => ?_, ih (fun f hf => hc f (by simp [hf])) hs.2⟩
        rcases mem_insertEntry.mp hf with hf | rfl
        · exact hs.1 f hf
        · exact ⟨by omega, hg.2.1 (by omega)⟩

/-! ### Registration -/

theorem checkedAdd_eq_none_iff (a b : BitVec 16) : checkedAdd a b = none ↔ 0xFFFF < a.toNat + b.toNat := by
  unfold checkedAdd; split <;> simp <;> omega

theorem checkedAdd_some {a b c : BitVec 16} (h : checkedAdd a b = some c) :
    c.toNat = a.toNat + b.toNat ∧ a.toNat + b.toNat ≤ 0xFFFF := by
  unfold checkedAdd at h
  split at h
  · cases h; rename_i hle; exact ⟨by rw [BitVec.toNat_add]; omega, hle⟩
  · cases h

/-- What a successful registration tells, on any map: the new range is clear of the nearest entries. -/
theorem registerDevice_ok {map map' : List Entry} {addr : Addr} {dev : Card}
    (h : registerDevice map addr dev = .ok map') :
    map' = insertEntry map ⟨addr, dev⟩ ∧ addr.toNat + dev.size.toNat ≤ 0xFFFF ∧
      (∀ e ∈ map, e.base ≠ addr) ∧
      (∀ e, nearestBelow map addr = some e → e.limit ≤ addr.toNat) ∧
      (∀ e, nearestAbove map addr = some e → addr.toNat + dev.size.toNat ≤ e.base.toNat) := by
  unfold registerDevice at h
  cases hc : checkedAdd addr dev.size with
  | none => simp [hc] at h
  | some l =>
    obtain ⟨hl, hle⟩ := checkedAdd_some hc
    simp only [hc] at h
    split at h
    · cases h
    · rename_i h1
      split at h
      · cases h
      · rename_i h2
        split at h
        · cases h
        · rename_i h3
          cases h
          refine ⟨rfl, hle, fun e he hb => h1 ?_, fun e he => ?_, fun e he => ?_⟩
          · exact List.any_eq_true.mpr ⟨e, he, by simp [hb]⟩
          · simpa [he] using h2
          · simp [he] at h3; omega

/-- A failing registration returns one of the two kinds of R105. -/
theorem registerDevice_err {map : List Entry} {addr : Addr} {dev : Card} {e : Error}
    (h : registerDevice map addr dev = .err e) :
    e = .registration .overflow ∨ e = .registration .overlap := by
  unfold registerDevice at h
  split at h
  · cases h; exact .inl rfl
  · split at h
    · cases h; exact .inr rfl
    · split at h
      · cases h; exact .inr rfl
      · split at h
        · cases h; exact .inr rfl
        · cases h

/-- Registration keeps a good map good (R101). -/
theorem mapOk_registerDevice {map map' : List Entry} {addr : Addr} {dev : Card} (hm : mapOk map)
    (h : registerDevice map addr dev = .ok map') : mapOk map' := by
  obtain ⟨rfl, hle, hne, hb, ha⟩ := registerDevice_ok h
  apply mapOk_insertEntry hm (show Entry.limit ⟨addr, dev⟩ ≤ 0xFFFF from hle)
  intro f hf
  have hfb : f.base.toNat ≠ addr.toNat := fun h => hne f hf (BitVec.eq_of_toNat_eq h)
  refine ⟨hfb, fun hlt => ?_, fun hlt => ?_⟩
  · cases hn : nearestBelow map addr with
    | none => have := nearestBelow_none_iff.mp hn f hf; simp at hlt; omega
    | some e =>
      obtain ⟨he, hele, hmax⟩ := nearestBelow_some hn
      have h1 := hmax f hf (by simpa using hlt.le)
      rcases Nat.lt_or_ge f.base.toNat e.base.toNat with h2 | h2
      · have := mapOk_limit_le hm hf he h2; simp; omega
      · rw [mapOk_base_inj hm hf he (by omega)]; exact hb e hn
  · obtain ⟨e, he, hle'⟩ := nearestAbove_le hf (by simpa using hlt.le : addr.toNat ≤ f.base.toNat)
    have := ha e he
    simp only [Entry.limit]; omega

end Sys2Proof.Machine
end

