-- ==== Sys2Proof/Laws/Codec.lean ====
section
/-! SUPPORT. The codec's shared operations: bit fields, register codes, operand values, the words of the
thirteen layouts as numbers, and what reading and appending operand fields do. -/

namespace Sys2Proof

/-- A concatenation as a number: the left part in the more-significant position (R7). -/
theorem append_toNat {n m : Nat} (x : BitVec n) (y : BitVec m) :
    (x ++ y).toNat = x.toNat * 2 ^ m + y.toNat := by
  rw [BitVec.toNat_append, Nat.shiftLeft_eq, Nat.mul_comm, Nat.two_pow_add_eq_or_of_lt y.isLt]

theorem field_lt (w : Word) (lo n : Nat) : field w lo n < 2 ^ n := Nat.mod_lt _ (Nat.two_pow_pos n)

/-- A word's low bits are a field and the bits below it. -/
theorem mod_eq_field_add (w : Word) (lo n : Nat) :
    w.toNat % 2 ^ (n + lo) = field w lo n * 2 ^ lo + w.toNat % 2 ^ lo := by
  rw [Nat.add_comm n lo, Nat.pow_add, Nat.mod_mul, field, Nat.mul_comm, Nat.add_comm]

theorem IntRegister.code_lt (r : IntRegister) : r.code.toNat < 8 := r.code.isLt

theorem RatioRegister.code_lt (q : RatioRegister) : q.code.toNat < 4 := q.code.isLt

/-- Every code below 8 names an integer register (R58). -/
theorem IntRegister.fromCode_lt (x : Byte) (h : x.toNat < 8) :
    ∃ r, IntRegister.fromCode x = some r ∧ r.code.toNat = x.toNat := by
  unfold IntRegister.fromCode
  split <;> simp_all [IntRegister.code]
  omega

/-- Every code below 4 names a ratio register (R60). -/
theorem RatioRegister.fromCode_lt (x : Byte) (h : x.toNat < 4) :
    ∃ q, RatioRegister.fromCode x = some q ∧ q.code.toNat = x.toNat := by
  unfold RatioRegister.fromCode
  split <;> simp_all [RatioRegister.code]
  omega

theorem IntRegister.fromCode_code (r : IntRegister) :
    IntRegister.fromCode (BitVec.ofNat 8 r.code.toNat) = some r := by cases r <;> rfl

theorem RatioRegister.fromCode_code (q : RatioRegister) :
    RatioRegister.fromCode (BitVec.ofNat 8 q.code.toNat) = some q := by cases q <;> rfl

theorem IntRegister.code_inj {r t : IntRegister} (h : r.code.toNat = t.code.toNat) : r = t := by
  have := IntRegister.fromCode_code r
  rw [h, IntRegister.fromCode_code] at this
  exact (Option.some.inj this).symm

theorem RatioRegister.code_inj {r t : RatioRegister} (h : r.code.toNat = t.code.toNat) : r = t := by
  have := RatioRegister.fromCode_code r
  rw [h, RatioRegister.fromCode_code] at this
  exact (Option.some.inj this).symm

/-- A 3-bit field always reads as a register: the error branch of `readInt` is never taken (R51). -/
theorem readInt_eq (w : Word) (lo tag op : Nat) (next : IntRegister → Result Instr) :
    ∃ r, r.code.toNat = field w lo 3 ∧ readInt w lo tag op next = next r := by
  have h := field_lt w lo 3
  obtain ⟨r, hr, hc⟩ := IntRegister.fromCode_lt (BitVec.ofNat 8 (field w lo 3)) (by simp; omega)
  refine ⟨r, by simp at hc; omega, by simp [readInt, hr]⟩

/-- A 2-bit field always reads as a register: the error branch of `readRatio` is never taken (R51). -/
theorem readRatio_eq (w : Word) (lo tag op : Nat) (next : RatioRegister → Result Instr) :
    ∃ q, q.code.toNat = field w lo 2 ∧ readRatio w lo tag op next = next q := by
  have h := field_lt w lo 2
  obtain ⟨r, hr, hc⟩ := RatioRegister.fromCode_lt (BitVec.ofNat 8 (field w lo 2)) (by simp; omega)
  refine ⟨r, by simp at hc; omega, by simp [readRatio, hr]⟩

/-- A field that holds a register's code reads as that register. -/
theorem readInt_code {w : Word} {lo : Nat} {r : IntRegister} (h : field w lo 3 = r.code.toNat)
    (tag op : Nat) (next : IntRegister → Result Instr) : readInt w lo tag op next = next r := by
  rw [readInt, h, IntRegister.fromCode_code]

theorem readRatio_code {w : Word} {lo : Nat} {q : RatioRegister} (h : field w lo 2 = q.code.toNat)
    (tag op : Nat) (next : RatioRegister → Result Instr) : readRatio w lo tag op next = next q := by
  rw [readRatio, h, RatioRegister.fromCode_code]

@[simp] theorem immBits_toNat (m : Int) : (immBits m).toNat = (m % 256).toNat := by
  simp [immBits]; omega

/-- `sext_8` and `mod 256` are inverse on an `i8` (R52). -/
theorem sext8_immBits {m : Int} (h : immInRange m = true) : sext8 (immBits m) = m := by
  simp only [immInRange, Bool.and_eq_true, decide_eq_true_eq] at h
  unfold sext8
  rw [immBits_toNat]
  split <;> omega

/-- `mod 256` and `sext_8` are inverse on a byte (R52). -/
theorem immBits_sext8 (v : Byte) : immBits (sext8 v) = v := by
  apply BitVec.eq_of_toNat_eq
  have := v.isLt
  rw [immBits_toNat]
  unfold sext8
  split <;> omega

/-- Every immediate a byte stands for is an `i8`. -/
theorem immInRange_sext8 (v : Byte) : immInRange (sext8 v) = true := by
  have := v.isLt
  simp only [immInRange, Bool.and_eq_true, decide_eq_true_eq]
  unfold sext8
  split <;> omega

theorem readImm_eq (w : Word) (lo : Nat) :
    readImm w lo = if field w lo 8 < 128 then (field w lo 8 : Int) else (field w lo 8 : Int) - 256 := by
  have h := field_lt w lo 8
  have : (BitVec.ofNat 8 (field w lo 8)).toNat = field w lo 8 := by simp; omega
  simp [readImm, sext8, this]

/-- A field that holds an immediate's bits reads as that immediate. -/
theorem readImm_bits {w : Word} {lo : Nat} {m : Int} (hm : immInRange m = true)
    (h : field w lo 8 = (m % 256).toNat) : readImm w lo = m := by
  rw [readImm, h, ← immBits, sext8_immBits hm]

/-! ### The words of the formats as numbers -/

theorem wordF0_toNat (op : BitVec 2) (a : IntRegister) (m : Int) :
    (wordF0 op a m).toNat = 0 * 2 ^ 13 + op.toNat * 2 ^ 11 + a.code.toNat * 2 ^ 8 + (m % 256).toNat := by
  simp only [wordF0, append_toNat, immBits_toNat, BitVec.toNat_ofNat]; omega

theorem wordF1_toNat (op : BitVec 3) (q : RatioRegister) (m : Int) :
    (wordF1 op q m).toNat = 1 * 2 ^ 13 + op.toNat * 2 ^ 10 + q.code.toNat * 2 ^ 8 + (m % 256).toNat := by
  simp only [wordF1, append_toNat, immBits_toNat, BitVec.toNat_ofNat]; omega

theorem wordF2_toNat (op : BitVec 5) (m : Int) :
    (wordF2 op m).toNat = 2 * 2 ^ 13 + op.toNat * 2 ^ 8 + (m % 256).toNat := by
  simp only [wordF2, append_toNat, immBits_toNat, BitVec.toNat_ofNat]; omega

theorem wordF3_toNat (op : BitVec 4) (a : IntRegister) (b : IntRegister) (c : IntRegister) :
    (wordF3 op a b c).toNat = 3 * 2 ^ 13 + op.toNat * 2 ^ 9 + a.code.toNat * 2 ^ 6 + b.code.toNat * 2 ^ 3 + c.code.toNat := by
  simp only [wordF3, append_toNat, BitVec.toNat_ofNat]; omega

theorem wordF4_toNat (op : BitVec 7) (q : RatioRegister) (r : RatioRegister) (u : RatioRegister) :
    (wordF4 op q r u).toNat = 4 * 2 ^ 13 + op.toNat * 2 ^ 6 + q.code.toNat * 2 ^ 4 + r.code.toNat * 2 ^ 2 + u.code.toNat := by
  simp only [wordF4, append_toNat, BitVec.toNat_ofNat]; omega

theorem wordF5_toNat (op : BitVec 7) (a : IntRegister) (b : IntRegister) :
    (wordF5 op a b).toNat = 5 * 2 ^ 13 + op.toNat * 2 ^ 6 + a.code.toNat * 2 ^ 3 + b.code.toNat := by
  simp only [wordF5, append_toNat, BitVec.toNat_ofNat]; omega

theorem wordF6_toNat (op : BitVec 7) (a : IntRegister) (q : RatioRegister) :
    (wordF6 op a q).toNat = 12 * 2 ^ 12 + op.toNat * 2 ^ 5 + a.code.toNat * 2 ^ 2 + q.code.toNat := by
  simp only [wordF6, append_toNat, BitVec.toNat_ofNat]; omega

theorem wordF7_toNat (op : BitVec 7) (q : RatioRegister) (a : IntRegister) :
    (wordF7 op q a).toNat = 13 * 2 ^ 12 + op.toNat * 2 ^ 5 + q.code.toNat * 2 ^ 3 + a.code.toNat := by
  simp only [wordF7, append_toNat, BitVec.toNat_ofNat]; omega

theorem wordF8_toNat (op : BitVec 7) (q : RatioRegister) (r : RatioRegister) :
    (wordF8 op q r).toNat = 28 * 2 ^ 11 + op.toNat * 2 ^ 4 + q.code.toNat * 2 ^ 2 + r.code.toNat := by
  simp only [wordF8, append_toNat, BitVec.toNat_ofNat]; omega

theorem wordF9_toNat (op : BitVec 8) (a : IntRegister) :
    (wordF9 op a).toNat = 29 * 2 ^ 11 + op.toNat * 2 ^ 3 + a.code.toNat := by
  simp only [wordF9, append_toNat, BitVec.toNat_ofNat]; omega

theorem wordF10_toNat (op : BitVec 9) (q : RatioRegister) :
    (wordF10 op q).toNat = 30 * 2 ^ 11 + op.toNat * 2 ^ 2 + q.code.toNat := by
  simp only [wordF10, append_toNat, BitVec.toNat_ofNat]; omega

theorem wordF11_toNat (op : BitVec 2) (a : IntRegister) (b : IntRegister) (q : RatioRegister) :
    (wordF11 op a b q).toNat = 62 * 2 ^ 10 + op.toNat * 2 ^ 8 + a.code.toNat * 2 ^ 5 + b.code.toNat * 2 ^ 2 + q.code.toNat := by
  simp only [wordF11, append_toNat, BitVec.toNat_ofNat]; omega

theorem wordF12_toNat (op : BitVec 10) :
    (wordF12 op).toNat = 63 * 2 ^ 10 + op.toNat := by
  simp only [wordF12, append_toNat, BitVec.toNat_ofNat]

/-! ### Typed instructions and their values -/

/-- The typed instruction of a value of REF13, the other way round from `Instr.value`. -/
def Instr.ofValue : Instruction → Option Instr
  | ⟨0, op, [.int a, .imm m]⟩ => (opsF0 op).map fun build => build a m
  | ⟨1, op, [.ratio q, .imm m]⟩ => (opsF1 op).map fun build => build q m
  | ⟨2, op, [.imm m]⟩ => (opsF2 op).map fun build => build m
  | ⟨3, op, [.int a, .int b, .int c]⟩ => (opsF3 op).map fun build => build a b c
  | ⟨4, op, [.ratio q, .ratio r, .ratio u]⟩ => (opsF4 op).map fun build => build q r u
  | ⟨5, op, [.int a, .int b]⟩ => (opsF5 op).map fun build => build a b
  | ⟨6, op, [.int a, .ratio q]⟩ => (opsF6 op).map fun build => build a q
  | ⟨7, op, [.ratio q, .int a]⟩ => (opsF7 op).map fun build => build q a
  | ⟨8, op, [.ratio q, .ratio r]⟩ => (opsF8 op).map fun build => build q r
  | ⟨9, op, [.int a]⟩ => (opsF9 op).map fun build => build a
  | ⟨10, op, [.ratio q]⟩ => (opsF10 op).map fun build => build q
  | ⟨11, op, [.int a, .int b, .ratio q]⟩ => (opsF11 op).map fun build => build a b q
  | ⟨12, op, []⟩ => opsF12 op
  | _ => none

theorem Instr.ofValue_value (i : Instr) : Instr.ofValue i.value = some i := by cases i <;> rfl

/-- A typed instruction is determined by its value. -/
theorem Instr.value_inj {i j : Instr} (h : i.value = j.value) : i = j := by
  have := Instr.ofValue_value i
  rw [h, Instr.ofValue_value] at this
  exact (Option.some.inj this).symm

/-- What `exec` does, of every instruction at once. -/
theorem exec_eq (i : Instr) (s : Machine.State) :
    Machine.exec i s = .next (s.answer (.ok (.instruction i.value))) := by cases i <;> rfl

/-- A decode that fails with an error other than `NoFormat` returns it to the host. -/
theorem Machine.decodeFails_next {e : Error} (s : Machine.State) (h : e ≠ .decode .noFormat) :
    Machine.decodeFails e s = .next (s.answer (.err e)) := by
  unfold Machine.decodeFails
  split
  · exact absurd rfl h
  · rfl

/-- What the host's encode does under a well-formed catalog that encodes the value. -/
theorem hostEncode_some {i : Instruction} {s : Machine.State} {w : Word} (h : s.cfg.catalog.wf = true)
    (hw : s.cfg.catalog.encode i = some w) :
    Machine.hostEncode i s = .next (s.answer (.ok (.word w))) := by
  simp [Machine.hostEncode, h, hw]

/-- What the host's decode does under a well-formed catalog other than REF13, but for `NoFormat`. -/
theorem hostDecode_catalog {w : Word} {s : Machine.State} (h : s.cfg.catalog.wf = true)
    (hc : s.cfg.catalog ≠ ref13) (hn : s.cfg.catalog.decode w ≠ .err (.decode .noFormat)) :
    Machine.hostDecode w s = .next (s.answer ((s.cfg.catalog.decode w).map .instruction)) := by
  simp only [Machine.hostDecode, hc, h, if_true, if_false, Machine.decodeCatalog]
  cases hd : s.cfg.catalog.decode w with
  | ok v => rfl
  | err e => exact Machine.decodeFails_next s fun he => hn (by rw [hd, he])

/-- What the host's decode does under REF13, from the typed decoder, but for `NoFormat`. -/
theorem hostDecode_ref13 {w : Word} {s : Machine.State} (hc : s.cfg.catalog = ref13)
    (hn : decode w ≠ .err (.decode .noFormat)) :
    Machine.hostDecode w s = .next (s.answer (((decode w).map Instr.value).map .instruction)) := by
  simp only [Machine.hostDecode, hc, if_true, Machine.decodeRef13]
  cases hd : decode w with
  | ok i => exact exec_eq i s
  | err e => exact Machine.decodeFails_next s fun he => hn (by rw [hd, he])

/-! ### Operand fields of any catalog -/

/-- A field's bits always read as an operand of its kind, whose bits they are (R51). -/
theorem operand_of_lt (k : FieldKind) (v : Nat) (h : v < 2 ^ k.width) :
    ∃ x, k.operand v = some x ∧ k.admits x = true ∧ x.bits = v := by
  cases k with
  | intReg =>
    simp only [FieldKind.width] at h
    obtain ⟨r, hr, hc⟩ := IntRegister.fromCode_lt (BitVec.ofNat 8 v) (by simp; omega)
    exact ⟨.int r, by simp [FieldKind.operand, hr], rfl, by simp [Operand.bits] at hc ⊢; omega⟩
  | ratioReg =>
    simp only [FieldKind.width] at h
    obtain ⟨r, hr, hc⟩ := RatioRegister.fromCode_lt (BitVec.ofNat 8 v) (by simp; omega)
    exact ⟨.ratio r, by simp [FieldKind.operand, hr], rfl, by simp [Operand.bits] at hc ⊢; omega⟩
  | imm8 =>
    simp only [FieldKind.width] at h
    refine ⟨.imm (sext8 (BitVec.ofNat 8 v)), rfl, immInRange_sext8 _, ?_⟩
    rw [Operand.bits, immBits_sext8]; simp; omega

/-- The bits of an operand of the kind fit the field and read as that operand. -/
theorem operand_bits {k : FieldKind} {x : Operand} (h : k.admits x = true) :
    x.bits < 2 ^ k.width ∧ k.operand x.bits = some x := by
  cases k <;> cases x <;> simp [FieldKind.admits] at h
  · rename_i r; exact ⟨r.code.isLt, by
    rw [FieldKind.operand, Operand.bits, IntRegister.fromCode_code]; rfl⟩
  · rename_i q; exact ⟨q.code.isLt, by
    rw [FieldKind.operand, Operand.bits, RatioRegister.fromCode_code]; rfl⟩
  · rename_i m
    refine ⟨(immBits m).isLt, ?_⟩
    simp only [FieldKind.operand, Operand.bits]
    rw [BitVec.ofNat_toNat, BitVec.setWidth_eq, sext8_immBits h]

/-- Reading operand fields always succeeds, with values the fields admit, and appending those values
gives the word's bits back (R65, R67). -/
theorem readFields_spec (w : Word) (tag op : Nat) (ks : List FieldKind) :
    ∃ vals, readFields w tag op (ks.map FieldKind.width).sum ks = .ok vals ∧
      admitsAll ks vals = true ∧ ∀ acc, appendFields acc ks vals =
        acc * 2 ^ (ks.map FieldKind.width).sum + w.toNat % 2 ^ (ks.map FieldKind.width).sum := by
  induction ks with
  | nil => exact ⟨[], rfl, rfl, fun acc => by simp [appendFields, Nat.mod_one]⟩
  | cons k ks ih =>
    obtain ⟨vals, hr, ha, happ⟩ := ih
    simp only [List.map_cons, List.sum_cons]
    generalize (ks.map FieldKind.width).sum = pos at *
    have hlt := field_lt w pos k.width
    obtain ⟨x, hx, hxa, hxb⟩ := operand_of_lt k _ hlt
    refine ⟨x :: vals, ?_, by simp [admitsAll, hxa, ha], fun acc => ?_⟩
    · have : k.width + pos - k.width = pos := by omega
      simp [readFields, this, hx, hr, Result.map]
    · simp only [appendFields, happ, hxb, Nat.mod_eq_of_lt hlt]
      rw [mod_eq_field_add, Nat.pow_add]
      ring

/-- Appending admitted values puts them in the low bits, from where reading gives them back. -/
theorem appendFields_spec (tag op : Nat) (ks : List FieldKind) (vals : List Operand)
    (h : admitsAll ks vals = true) :
    ∃ r, r < 2 ^ (ks.map FieldKind.width).sum ∧
      (∀ acc, appendFields acc ks vals = acc * 2 ^ (ks.map FieldKind.width).sum + r) ∧
      ∀ w : Word, w.toNat % 2 ^ (ks.map FieldKind.width).sum = r →
        readFields w tag op (ks.map FieldKind.width).sum ks = .ok vals := by
  induction ks generalizing vals with
  | nil =>
    cases vals with
    | nil => exact ⟨0, by simp, fun acc => by simp [appendFields], fun w _ => rfl⟩
    | cons _ _ => simp [admitsAll] at h
  | cons k ks ih =>
    cases vals with
    | nil => simp [admitsAll] at h
    | cons x xs =>
      simp only [admitsAll, Bool.and_eq_true] at h
      obtain ⟨hx, hxs⟩ := h
      obtain ⟨r, hr, happ, hread⟩ := ih xs hxs
      obtain ⟨hb, ho⟩ := operand_bits hx
      simp only [List.map_cons, List.sum_cons]
      generalize (ks.map FieldKind.width).sum = pos at *
      refine ⟨x.bits * 2 ^ pos + r, ?_, fun acc => ?_, fun w hw => ?_⟩
      · calc x.bits * 2 ^ pos + r < (x.bits + 1) * 2 ^ pos := by rw [Nat.add_mul]; omega
          _ ≤ 2 ^ k.width * 2 ^ pos := Nat.mul_le_mul_right _ hb
          _ = _ := by rw [Nat.pow_add]
      · simp only [appendFields, happ, Nat.mod_eq_of_lt hb, Nat.pow_add]; ring
      · rw [mod_eq_field_add] at hw
        have hlo : w.toNat % 2 ^ pos < 2 ^ pos := Nat.mod_lt _ (Nat.two_pow_pos pos)
        have hf : field w pos k.width = x.bits := by
          have h1 := congrArg (· / 2 ^ pos) hw
          simp only [Nat.mul_comm _ (2 ^ pos), Nat.mul_add_div (Nat.two_pow_pos pos),
            Nat.div_eq_of_lt hlo, Nat.div_eq_of_lt hr, Nat.add_zero] at h1
          exact h1
        have hm : w.toNat % 2 ^ pos = r := by rw [hf] at hw; omega
        have : k.width + pos - k.width = pos := by omega
        simp [readFields, this, hf, ho, hread w hm, Result.map]

end Sys2Proof
end

