-- ==== Sys2Proof/Laws/PerInstr.lean ====
section
/-! SUPPORT. One law per instruction: its word carries the fixed bits spec/opcode_table.json gives its
row. -/

namespace Sys2Proof.Laws

/-- The one fixed range of the instruction's row in spec/opcode_table.json: its lowest bit (it runs up
to bit 15) and its value. -/
def fixedRow : Instr → Nat × Nat
  | .f0op0 _ _ => (11, 0)
  | .f0op1 _ _ => (11, 1)
  | .f0op2 _ _ => (11, 2)
  | .f1op0 _ _ => (10, 8)
  | .f1op1 _ _ => (10, 9)
  | .f1op2 _ _ => (10, 10)
  | .f1op3 _ _ => (10, 11)
  | .f1op4 _ _ => (10, 12)
  | .f2op0 _ => (8, 64)
  | .f2op1 _ => (8, 65)
  | .f2op2 _ => (8, 66)
  | .f2op3 _ => (8, 67)
  | .f2op4 _ => (8, 68)
  | .f2op5 _ => (8, 69)
  | .f3op0 _ _ _ => (9, 48)
  | .f3op1 _ _ _ => (9, 49)
  | .f3op2 _ _ _ => (9, 50)
  | .f3op3 _ _ _ => (9, 51)
  | .f3op4 _ _ _ => (9, 52)
  | .f3op5 _ _ _ => (9, 53)
  | .f3op6 _ _ _ => (9, 54)
  | .f3op7 _ _ _ => (9, 55)
  | .f3op8 _ _ _ => (9, 56)
  | .f3op9 _ _ _ => (9, 57)
  | .f4op0 _ _ _ => (6, 512)
  | .f4op1 _ _ _ => (6, 513)
  | .f4op2 _ _ _ => (6, 514)
  | .f4op3 _ _ _ => (6, 515)
  | .f4op4 _ _ _ => (6, 516)
  | .f4op5 _ _ _ => (6, 517)
  | .f4op6 _ _ _ => (6, 518)
  | .f4op7 _ _ _ => (6, 519)
  | .f5op0 _ _ => (6, 640)
  | .f5op1 _ _ => (6, 641)
  | .f5op2 _ _ => (6, 642)
  | .f5op3 _ _ => (6, 643)
  | .f5op4 _ _ => (6, 644)
  | .f5op5 _ _ => (6, 645)
  | .f5op6 _ _ => (6, 646)
  | .f5op7 _ _ => (6, 647)
  | .f5op8 _ _ => (6, 648)
  | .f5op9 _ _ => (6, 649)
  | .f5op10 _ _ => (6, 650)
  | .f5op11 _ _ => (6, 651)
  | .f6op0 _ _ => (5, 1536)
  | .f6op1 _ _ => (5, 1537)
  | .f6op2 _ _ => (5, 1538)
  | .f6op3 _ _ => (5, 1539)
  | .f7op0 _ _ => (5, 1664)
  | .f7op1 _ _ => (5, 1665)
  | .f7op2 _ _ => (5, 1666)
  | .f7op3 _ _ => (5, 1667)
  | .f8op0 _ _ => (4, 3584)
  | .f8op1 _ _ => (4, 3585)
  | .f8op2 _ _ => (4, 3586)
  | .f8op3 _ _ => (4, 3587)
  | .f8op4 _ _ => (4, 3588)
  | .f8op5 _ _ => (4, 3589)
  | .f9op0 _ => (3, 7424)
  | .f9op1 _ => (3, 7425)
  | .f9op2 _ => (3, 7426)
  | .f9op3 _ => (3, 7427)
  | .f9op4 _ => (3, 7428)
  | .f9op5 _ => (3, 7429)
  | .f9op6 _ => (3, 7430)
  | .f9op7 _ => (3, 7431)
  | .f10op0 _ => (2, 15360)
  | .f10op1 _ => (2, 15361)
  | .f10op2 _ => (2, 15362)
  | .f10op3 _ => (2, 15363)
  | .f11op0 _ _ _ => (8, 248)
  | .f11op1 _ _ _ => (8, 249)
  | .f12op0 => (0, 64512)
  | .f12op1 => (0, 64513)
  | .f12op2 => (0, 64514)
  | .f12op3 => (0, 64515)

/-- Every word with the row's fixed bits, and only those, can be the instruction's: `encode` puts the
row's value in the row's fixed range. -/
def FixedBits.Statement (i : Instr) : Prop :=
  field (encode i) (fixedRow i).1 (16 - (fixedRow i).1) = (fixedRow i).2

/-- Prefix and opcode of an F0 word, together. -/
theorem wordF0_top (op : BitVec 2) (a : IntRegister) (m : Int) :
    field (wordF0 op a m) 11 5 = 0 + op.toNat := by
  have hop := op.isLt
  have ha := a.code_lt
  rw [field, wordF0_toNat]; omega

theorem FixedBits.f0op0 (a : IntRegister) (m : Int) : FixedBits.Statement (.f0op0 a m) :=
  wordF0_top 0 a m

theorem FixedBits.f0op1 (a : IntRegister) (m : Int) : FixedBits.Statement (.f0op1 a m) :=
  wordF0_top 1 a m

theorem FixedBits.f0op2 (a : IntRegister) (m : Int) : FixedBits.Statement (.f0op2 a m) :=
  wordF0_top 2 a m

/-- Prefix and opcode of an F1 word, together. -/
theorem wordF1_top (op : BitVec 3) (q : RatioRegister) (m : Int) :
    field (wordF1 op q m) 10 6 = 8 + op.toNat := by
  have hop := op.isLt
  have hq := q.code_lt
  rw [field, wordF1_toNat]; omega

theorem FixedBits.f1op0 (q : RatioRegister) (m : Int) : FixedBits.Statement (.f1op0 q m) :=
  wordF1_top 0 q m

theorem FixedBits.f1op1 (q : RatioRegister) (m : Int) : FixedBits.Statement (.f1op1 q m) :=
  wordF1_top 1 q m

theorem FixedBits.f1op2 (q : RatioRegister) (m : Int) : FixedBits.Statement (.f1op2 q m) :=
  wordF1_top 2 q m

theorem FixedBits.f1op3 (q : RatioRegister) (m : Int) : FixedBits.Statement (.f1op3 q m) :=
  wordF1_top 3 q m

theorem FixedBits.f1op4 (q : RatioRegister) (m : Int) : FixedBits.Statement (.f1op4 q m) :=
  wordF1_top 4 q m

/-- Prefix and opcode of an F2 word, together. -/
theorem wordF2_top (op : BitVec 5) (m : Int) :
    field (wordF2 op m) 8 8 = 64 + op.toNat := by
  have hop := op.isLt
  rw [field, wordF2_toNat]; omega

theorem FixedBits.f2op0 (m : Int) : FixedBits.Statement (.f2op0 m) :=
  wordF2_top 0 m

theorem FixedBits.f2op1 (m : Int) : FixedBits.Statement (.f2op1 m) :=
  wordF2_top 1 m

theorem FixedBits.f2op2 (m : Int) : FixedBits.Statement (.f2op2 m) :=
  wordF2_top 2 m

theorem FixedBits.f2op3 (m : Int) : FixedBits.Statement (.f2op3 m) :=
  wordF2_top 3 m

theorem FixedBits.f2op4 (m : Int) : FixedBits.Statement (.f2op4 m) :=
  wordF2_top 4 m

theorem FixedBits.f2op5 (m : Int) : FixedBits.Statement (.f2op5 m) :=
  wordF2_top 5 m

/-- Prefix and opcode of an F3 word, together. -/
theorem wordF3_top (op : BitVec 4) (a : IntRegister) (b : IntRegister) (c : IntRegister) :
    field (wordF3 op a b c) 9 7 = 48 + op.toNat := by
  have hop := op.isLt
  have ha := a.code_lt; have hb := b.code_lt; have hc := c.code_lt
  rw [field, wordF3_toNat]; omega

theorem FixedBits.f3op0 (a : IntRegister) (b : IntRegister) (c : IntRegister) : FixedBits.Statement (.f3op0 a b c) :=
  wordF3_top 0 a b c

theorem FixedBits.f3op1 (a : IntRegister) (b : IntRegister) (c : IntRegister) : FixedBits.Statement (.f3op1 a b c) :=
  wordF3_top 1 a b c

theorem FixedBits.f3op2 (a : IntRegister) (b : IntRegister) (c : IntRegister) : FixedBits.Statement (.f3op2 a b c) :=
  wordF3_top 2 a b c

theorem FixedBits.f3op3 (a : IntRegister) (b : IntRegister) (c : IntRegister) : FixedBits.Statement (.f3op3 a b c) :=
  wordF3_top 3 a b c

theorem FixedBits.f3op4 (a : IntRegister) (b : IntRegister) (c : IntRegister) : FixedBits.Statement (.f3op4 a b c) :=
  wordF3_top 4 a b c

theorem FixedBits.f3op5 (a : IntRegister) (b : IntRegister) (c : IntRegister) : FixedBits.Statement (.f3op5 a b c) :=
  wordF3_top 5 a b c

theorem FixedBits.f3op6 (a : IntRegister) (b : IntRegister) (c : IntRegister) : FixedBits.Statement (.f3op6 a b c) :=
  wordF3_top 6 a b c

theorem FixedBits.f3op7 (a : IntRegister) (b : IntRegister) (c : IntRegister) : FixedBits.Statement (.f3op7 a b c) :=
  wordF3_top 7 a b c

theorem FixedBits.f3op8 (a : IntRegister) (b : IntRegister) (c : IntRegister) : FixedBits.Statement (.f3op8 a b c) :=
  wordF3_top 8 a b c

theorem FixedBits.f3op9 (a : IntRegister) (b : IntRegister) (c : IntRegister) : FixedBits.Statement (.f3op9 a b c) :=
  wordF3_top 9 a b c

/-- Prefix and opcode of an F4 word, together. -/
theorem wordF4_top (op : BitVec 7) (q : RatioRegister) (r : RatioRegister) (u : RatioRegister) :
    field (wordF4 op q r u) 6 10 = 512 + op.toNat := by
  have hop := op.isLt
  have hq := q.code_lt; have hr := r.code_lt; have hu := u.code_lt
  rw [field, wordF4_toNat]; omega

theorem FixedBits.f4op0 (q : RatioRegister) (r : RatioRegister) (u : RatioRegister) : FixedBits.Statement (.f4op0 q r u) :=
  wordF4_top 0 q r u

theorem FixedBits.f4op1 (q : RatioRegister) (r : RatioRegister) (u : RatioRegister) : FixedBits.Statement (.f4op1 q r u) :=
  wordF4_top 1 q r u

theorem FixedBits.f4op2 (q : RatioRegister) (r : RatioRegister) (u : RatioRegister) : FixedBits.Statement (.f4op2 q r u) :=
  wordF4_top 2 q r u

theorem FixedBits.f4op3 (q : RatioRegister) (r : RatioRegister) (u : RatioRegister) : FixedBits.Statement (.f4op3 q r u) :=
  wordF4_top 3 q r u

theorem FixedBits.f4op4 (q : RatioRegister) (r : RatioRegister) (u : RatioRegister) : FixedBits.Statement (.f4op4 q r u) :=
  wordF4_top 4 q r u

theorem FixedBits.f4op5 (q : RatioRegister) (r : RatioRegister) (u : RatioRegister) : FixedBits.Statement (.f4op5 q r u) :=
  wordF4_top 5 q r u

theorem FixedBits.f4op6 (q : RatioRegister) (r : RatioRegister) (u : RatioRegister) : FixedBits.Statement (.f4op6 q r u) :=
  wordF4_top 6 q r u

theorem FixedBits.f4op7 (q : RatioRegister) (r : RatioRegister) (u : RatioRegister) : FixedBits.Statement (.f4op7 q r u) :=
  wordF4_top 7 q r u

/-- Prefix and opcode of an F5 word, together. -/
theorem wordF5_top (op : BitVec 7) (a : IntRegister) (b : IntRegister) :
    field (wordF5 op a b) 6 10 = 640 + op.toNat := by
  have hop := op.isLt
  have ha := a.code_lt; have hb := b.code_lt
  rw [field, wordF5_toNat]; omega

theorem FixedBits.f5op0 (a : IntRegister) (b : IntRegister) : FixedBits.Statement (.f5op0 a b) :=
  wordF5_top 0 a b

theorem FixedBits.f5op1 (a : IntRegister) (b : IntRegister) : FixedBits.Statement (.f5op1 a b) :=
  wordF5_top 1 a b

theorem FixedBits.f5op2 (a : IntRegister) (b : IntRegister) : FixedBits.Statement (.f5op2 a b) :=
  wordF5_top 2 a b

theorem FixedBits.f5op3 (a : IntRegister) (b : IntRegister) : FixedBits.Statement (.f5op3 a b) :=
  wordF5_top 3 a b

theorem FixedBits.f5op4 (a : IntRegister) (b : IntRegister) : FixedBits.Statement (.f5op4 a b) :=
  wordF5_top 4 a b

theorem FixedBits.f5op5 (a : IntRegister) (b : IntRegister) : FixedBits.Statement (.f5op5 a b) :=
  wordF5_top 5 a b

theorem FixedBits.f5op6 (a : IntRegister) (b : IntRegister) : FixedBits.Statement (.f5op6 a b) :=
  wordF5_top 6 a b

theorem FixedBits.f5op7 (a : IntRegister) (b : IntRegister) : FixedBits.Statement (.f5op7 a b) :=
  wordF5_top 7 a b

theorem FixedBits.f5op8 (a : IntRegister) (b : IntRegister) : FixedBits.Statement (.f5op8 a b) :=
  wordF5_top 8 a b

theorem FixedBits.f5op9 (a : IntRegister) (b : IntRegister) : FixedBits.Statement (.f5op9 a b) :=
  wordF5_top 9 a b

theorem FixedBits.f5op10 (a : IntRegister) (b : IntRegister) : FixedBits.Statement (.f5op10 a b) :=
  wordF5_top 10 a b

theorem FixedBits.f5op11 (a : IntRegister) (b : IntRegister) : FixedBits.Statement (.f5op11 a b) :=
  wordF5_top 11 a b

/-- Prefix and opcode of an F6 word, together. -/
theorem wordF6_top (op : BitVec 7) (a : IntRegister) (q : RatioRegister) :
    field (wordF6 op a q) 5 11 = 1536 + op.toNat := by
  have hop := op.isLt
  have ha := a.code_lt; have hq := q.code_lt
  rw [field, wordF6_toNat]; omega

theorem FixedBits.f6op0 (a : IntRegister) (q : RatioRegister) : FixedBits.Statement (.f6op0 a q) :=
  wordF6_top 0 a q

theorem FixedBits.f6op1 (a : IntRegister) (q : RatioRegister) : FixedBits.Statement (.f6op1 a q) :=
  wordF6_top 1 a q

theorem FixedBits.f6op2 (a : IntRegister) (q : RatioRegister) : FixedBits.Statement (.f6op2 a q) :=
  wordF6_top 2 a q

theorem FixedBits.f6op3 (a : IntRegister) (q : RatioRegister) : FixedBits.Statement (.f6op3 a q) :=
  wordF6_top 3 a q

/-- Prefix and opcode of an F7 word, together. -/
theorem wordF7_top (op : BitVec 7) (q : RatioRegister) (a : IntRegister) :
    field (wordF7 op q a) 5 11 = 1664 + op.toNat := by
  have hop := op.isLt
  have hq := q.code_lt; have ha := a.code_lt
  rw [field, wordF7_toNat]; omega

theorem FixedBits.f7op0 (q : RatioRegister) (a : IntRegister) : FixedBits.Statement (.f7op0 q a) :=
  wordF7_top 0 q a

theorem FixedBits.f7op1 (q : RatioRegister) (a : IntRegister) : FixedBits.Statement (.f7op1 q a) :=
  wordF7_top 1 q a

theorem FixedBits.f7op2 (q : RatioRegister) (a : IntRegister) : FixedBits.Statement (.f7op2 q a) :=
  wordF7_top 2 q a

theorem FixedBits.f7op3 (q : RatioRegister) (a : IntRegister) : FixedBits.Statement (.f7op3 q a) :=
  wordF7_top 3 q a

/-- Prefix and opcode of an F8 word, together. -/
theorem wordF8_top (op : BitVec 7) (q : RatioRegister) (r : RatioRegister) :
    field (wordF8 op q r) 4 12 = 3584 + op.toNat := by
  have hop := op.isLt
  have hq := q.code_lt; have hr := r.code_lt
  rw [field, wordF8_toNat]; omega

theorem FixedBits.f8op0 (q : RatioRegister) (r : RatioRegister) : FixedBits.Statement (.f8op0 q r) :=
  wordF8_top 0 q r

theorem FixedBits.f8op1 (q : RatioRegister) (r : RatioRegister) : FixedBits.Statement (.f8op1 q r) :=
  wordF8_top 1 q r

theorem FixedBits.f8op2 (q : RatioRegister) (r : RatioRegister) : FixedBits.Statement (.f8op2 q r) :=
  wordF8_top 2 q r

theorem FixedBits.f8op3 (q : RatioRegister) (r : RatioRegister) : FixedBits.Statement (.f8op3 q r) :=
  wordF8_top 3 q r

theorem FixedBits.f8op4 (q : RatioRegister) (r : RatioRegister) : FixedBits.Statement (.f8op4 q r) :=
  wordF8_top 4 q r

theorem FixedBits.f8op5 (q : RatioRegister) (r : RatioRegister) : FixedBits.Statement (.f8op5 q r) :=
  wordF8_top 5 q r

/-- Prefix and opcode of an F9 word, together. -/
theorem wordF9_top (op : BitVec 8) (a : IntRegister) :
    field (wordF9 op a) 3 13 = 7424 + op.toNat := by
  have hop := op.isLt
  have ha := a.code_lt
  rw [field, wordF9_toNat]; omega

theorem FixedBits.f9op0 (a : IntRegister) : FixedBits.Statement (.f9op0 a) :=
  wordF9_top 0 a

theorem FixedBits.f9op1 (a : IntRegister) : FixedBits.Statement (.f9op1 a) :=
  wordF9_top 1 a

theorem FixedBits.f9op2 (a : IntRegister) : FixedBits.Statement (.f9op2 a) :=
  wordF9_top 2 a

theorem FixedBits.f9op3 (a : IntRegister) : FixedBits.Statement (.f9op3 a) :=
  wordF9_top 3 a

theorem FixedBits.f9op4 (a : IntRegister) : FixedBits.Statement (.f9op4 a) :=
  wordF9_top 4 a

theorem FixedBits.f9op5 (a : IntRegister) : FixedBits.Statement (.f9op5 a) :=
  wordF9_top 5 a

theorem FixedBits.f9op6 (a : IntRegister) : FixedBits.Statement (.f9op6 a) :=
  wordF9_top 6 a

theorem FixedBits.f9op7 (a : IntRegister) : FixedBits.Statement (.f9op7 a) :=
  wordF9_top 7 a

/-- Prefix and opcode of an F10 word, together. -/
theorem wordF10_top (op : BitVec 9) (q : RatioRegister) :
    field (wordF10 op q) 2 14 = 15360 + op.toNat := by
  have hop := op.isLt
  have hq := q.code_lt
  rw [field, wordF10_toNat]; omega

theorem FixedBits.f10op0 (q : RatioRegister) : FixedBits.Statement (.f10op0 q) :=
  wordF10_top 0 q

theorem FixedBits.f10op1 (q : RatioRegister) : FixedBits.Statement (.f10op1 q) :=
  wordF10_top 1 q

theorem FixedBits.f10op2 (q : RatioRegister) : FixedBits.Statement (.f10op2 q) :=
  wordF10_top 2 q

theorem FixedBits.f10op3 (q : RatioRegister) : FixedBits.Statement (.f10op3 q) :=
  wordF10_top 3 q

/-- Prefix and opcode of an F11 word, together. -/
theorem wordF11_top (op : BitVec 2) (a : IntRegister) (b : IntRegister) (q : RatioRegister) :
    field (wordF11 op a b q) 8 8 = 248 + op.toNat := by
  have hop := op.isLt
  have ha := a.code_lt; have hb := b.code_lt; have hq := q.code_lt
  rw [field, wordF11_toNat]; omega

theorem FixedBits.f11op0 (a : IntRegister) (b : IntRegister) (q : RatioRegister) : FixedBits.Statement (.f11op0 a b q) :=
  wordF11_top 0 a b q

theorem FixedBits.f11op1 (a : IntRegister) (b : IntRegister) (q : RatioRegister) : FixedBits.Statement (.f11op1 a b q) :=
  wordF11_top 1 a b q

/-- Prefix and opcode of an F12 word, together. -/
theorem wordF12_top (op : BitVec 10) :
    field (wordF12 op) 0 16 = 64512 + op.toNat := by
  have hop := op.isLt
  rw [field, wordF12_toNat]; omega

theorem FixedBits.f12op0 : FixedBits.Statement (.f12op0) :=
  wordF12_top 0

theorem FixedBits.f12op1 : FixedBits.Statement (.f12op1) :=
  wordF12_top 1

theorem FixedBits.f12op2 : FixedBits.Statement (.f12op2) :=
  wordF12_top 2

theorem FixedBits.f12op3 : FixedBits.Statement (.f12op3) :=
  wordF12_top 3

end Sys2Proof.Laws
end

