-- ==== Sys2Proof/Tests/Slice0.lean ====
section
/-! SUPPORT. Tests and witnesses.
The expected values are the spec's: its test vectors L1, L2 and P1 to P4 (95_test_vectors.md) and the
examples of its rules. A `witness_` theorem shows a state and operands that meet the hypotheses of the
statement it is named after. -/

namespace Sys2Proof.Tests

open Sys2Proof Sys2Proof.Machine

/-! ### Helpers -/

/-- The state a step leads to. -/
def nextOf : Host.Outcome State Fault Refusal → Option State
  | .next t => some t
  | _ => none

/-- What a step returned to the host. -/
def replyOf (o : Host.Outcome State Fault Refusal) : Option (Result Value) := (nextOf o).bind (·.reply)

/-- The name under which a step was refused. -/
def refusalOf : Host.Outcome State Fault Refusal → Option Refusal
  | .refused r => some r
  | _ => none

/-- REF13 with the format of one tag changed. -/
def ref13With (tag : Nat) (change : Format → Format) : Catalog :=
  ref13.map fun F => if F.tag = tag then change F else F

theorem ref13_wf : ref13.wf = true := by decide

/-- A block with a mode, a map, and cards the host holds. -/
def block (mode : MuxAddrMode) (map : List Entry) (held : List (Option Card)) : State :=
  { State.reset with cfg := ⟨ref13, mode, .nothing⟩, map := map, held := held }

/-- A block built over REF13's formats in the opposite order. -/
def reversed : State := { State.reset with cfg := ⟨ref13.reverse, .raw, .nothing⟩ }

/-- A 16-byte card, all 0. -/
def card16 : Card := Card.new 16

/-- The two adjacent cards of scenario 1 (L1.9). -/
def twoCards (mode : MuxAddrMode) : State := block mode [⟨0x0000, card16⟩, ⟨0x0010, card16⟩] []

/-- The 32-byte card at 0x0008 of L2.6. -/
def cardAt8 (mode : MuxAddrMode) : State := block mode [⟨0x0008, Card.new 32⟩] []

/-- A host that holds a 16-byte, a 0-byte and an 8-byte card. -/
def holder : State := block .raw [] [some card16, some (Card.new 0), some (Card.new 8)]

/-- The same with scenario 1's cards registered. -/
def holderOfTwo : State := { holder with map := (twoCards .raw).map }

theorem inv_twoCards (mode : MuxAddrMode) : (twoCards mode).Inv :=
  ⟨ref13_wf, by cases mode <;> decide, by cases mode <;> decide, by simp [twoCards, block]⟩

theorem inv_cardAt8 (mode : MuxAddrMode) : (cardAt8 mode).Inv :=
  ⟨ref13_wf, by cases mode <;> decide, by cases mode <;> decide, by simp [cardAt8, block]⟩

theorem inv_holder : holder.Inv := ⟨ref13_wf, by decide, by simp [holder, block], by decide⟩

theorem inv_holderOfTwo : holderOfTwo.Inv := ⟨ref13_wf, by decide, by decide, by decide⟩

/-! ### Well-formedness: what is refused -/

theorem test_wf_imm_below : (Instr.f0op0 .I0 (-129)).wf = false := by decide
theorem test_wf_imm_above : (Instr.f1op4 .Q3 128).wf = false := by decide
theorem test_wf_imm_bounds : (Instr.f2op5 (-128)).wf = true ∧ (Instr.f2op5 127).wf = true := by decide

/-- Twelve formats (R40). -/
theorem test_catalog_twelve : Catalog.wf (ref13.take 12) = false := by decide
/-- Two formats with one tag (R40). -/
theorem test_catalog_tags : (ref13With 5 fun F => { F with tag := 4 }).wf = false := by
  decide
/-- A format whose widths do not fill the word (R41). -/
theorem test_catalog_widths :
    (ref13With 9 fun F => { F with opWidth := 7 }).wf = false := by decide
/-- A prefix that extends another (R42). -/
theorem test_catalog_prefixes :
    (ref13With 6 fun F => { F with pfx := 0b1011 }).wf = false := by decide
/-- Thirteen formats that leave words without one (R43). -/
theorem test_catalog_sum :
    (ref13With 5 fun F => { F with pfx := 0b1010, pfxWidth := 4, opWidth := 6 }).wf =
      false := by decide
/-- An opcode that does not fit its field (R44). -/
theorem test_catalog_ops :
    (ref13With 0 fun F => { F with ops := [0, 4] }).wf = false := by decide
/-- Two immediates in a format (R45). -/
theorem test_catalog_imms : Format.oneImm ⟨0, 0, 0, 0, [0], [.imm8, .imm8]⟩ = false := by decide
/-- The zero format without opcode 0 (R46 (a)). -/
theorem test_catalog_zero :
    (ref13With 0 fun F => { F with ops := [1, 2] }).wf = false := by decide
/-- The zero format with fewer operand bits than another (R46 (b)). -/
theorem test_catalog_heaviest :
    (ref13With 0 fun F => { F with opWidth := 5, fields := [.imm8] }).wf = false := by
  decide

/-! ### Decode: the words of L2.2, bit by bit, and the registers and immediates they name -/

theorem test_decode_F0 : decode 0b0000000000000000 = .ok (.f0op0 .I0 0) ∧
    decode 0b0000000010000000 = .ok (.f0op0 .I0 (-128)) ∧
    decode 0b0000011111111111 = .ok (.f0op0 .I7 (-1)) ∧
    decode 0b0000101111111011 = .ok (.f0op1 .I3 (-5)) ∧
    decode 0b0001011101111111 = .ok (.f0op2 .I7 127) := by decide
theorem test_decode_F1 : decode 0b0010000000000000 = .ok (.f1op0 .Q0 0) ∧
    decode 0b0011001111111111 = .ok (.f1op4 .Q3 (-1)) ∧
    decode 0b0010000101100100 = .ok (.f1op0 .Q1 100) := by decide
theorem test_decode_F2 : decode 0b0100010110000000 = .ok (.f2op5 (-128)) ∧
    decode 0b0100001101000000 = .ok (.f2op3 64) := by decide
theorem test_decode_F3 : decode 0b0110010011000111 = .ok (.f3op2 .I3 .I0 .I7) ∧
    decode 0b0110110100101111 = .ok (.f3op6 .I4 .I5 .I7) ∧
    decode 0b0111001111111111 = .ok (.f3op9 .I7 .I7 .I7) := by decide
theorem test_decode_F4 : decode 0b1000000000000000 = .ok (.f4op0 .Q0 .Q0 .Q0) ∧
    decode 0b1000000111011011 = .ok (.f4op7 .Q1 .Q2 .Q3) := by decide
theorem test_decode_F5 : decode 0b1010000101110001 = .ok (.f5op5 .I6 .I1) ∧
    decode 0b1010001011010010 = .ok (.f5op11 .I2 .I2) := by decide
theorem test_decode_F6 : decode 0b1100000001110110 = .ok (.f6op3 .I5 .Q2) ∧
    decode 0b1100000000111100 = .ok (.f6op1 .I7 .Q0) := by decide
theorem test_decode_F7 : decode 0b1101000000111100 = .ok (.f7op1 .Q3 .I4) ∧
    decode 0b1101000001111111 = .ok (.f7op3 .Q3 .I7) := by decide
theorem test_decode_F8 : decode 0b1110000001011001 = .ok (.f8op5 .Q2 .Q1) ∧
    decode 0b1110000000000000 = .ok (.f8op0 .Q0 .Q0) := by decide
theorem test_decode_F9 : decode 0b1110100000111110 = .ok (.f9op7 .I6) ∧
    decode 0b1110100000000000 = .ok (.f9op0 .I0) := by decide
theorem test_decode_F10 : decode 0b1111000000001111 = .ok (.f10op3 .Q3) ∧
    decode 0b1111000000000000 = .ok (.f10op0 .Q0) := by decide
theorem test_decode_F11 : decode 0b1111100111100010 = .ok (.f11op1 .I7 .I0 .Q2) ∧
    decode 0b1111100000000000 = .ok (.f11op0 .I0 .I0 .Q0) := by decide
theorem test_decode_F12 : decode 0b1111110000000000 = .ok .f12op0 ∧
    decode 0b1111110000000011 = .ok .f12op3 := by decide

/-- Every constructor's word, written out from the encodings of R70 to R82 with the operands at the values
of the digits shown: every opcode of F0 to F3. -/
theorem test_decode_opcodes_F0_F3 :
    [decode 0b0000000100000010, decode 0b0000100100000010, decode 0b0001000100000010,
     decode 0b0010001000000011, decode 0b0010011000000011, decode 0b0010101000000011,
     decode 0b0010111000000011, decode 0b0011001000000011,
     decode 0b0100000011111110, decode 0b0100000111111110, decode 0b0100001011111110,
     decode 0b0100001111111110, decode 0b0100010011111110, decode 0b0100010111111110,
     decode 0b0110000001010011, decode 0b0110001001010011, decode 0b0110010001010011,
     decode 0b0110011001010011, decode 0b0110100001010011, decode 0b0110101001010011,
     decode 0b0110110001010011, decode 0b0110111001010011, decode 0b0111000001010011,
     decode 0b0111001001010011] =
    [.ok (.f0op0 .I1 2), .ok (.f0op1 .I1 2), .ok (.f0op2 .I1 2),
     .ok (.f1op0 .Q2 3), .ok (.f1op1 .Q2 3), .ok (.f1op2 .Q2 3), .ok (.f1op3 .Q2 3), .ok (.f1op4 .Q2 3),
     .ok (.f2op0 (-2)), .ok (.f2op1 (-2)), .ok (.f2op2 (-2)), .ok (.f2op3 (-2)), .ok (.f2op4 (-2)),
     .ok (.f2op5 (-2)),
     .ok (.f3op0 .I1 .I2 .I3), .ok (.f3op1 .I1 .I2 .I3), .ok (.f3op2 .I1 .I2 .I3),
     .ok (.f3op3 .I1 .I2 .I3), .ok (.f3op4 .I1 .I2 .I3), .ok (.f3op5 .I1 .I2 .I3),
     .ok (.f3op6 .I1 .I2 .I3), .ok (.f3op7 .I1 .I2 .I3), .ok (.f3op8 .I1 .I2 .I3),
     .ok (.f3op9 .I1 .I2 .I3)] := by decide

/-- The same for every opcode of F4 and F5. -/
theorem test_decode_opcodes_F4_F5 :
    [decode 0b1000000000011011, decode 0b1000000001011011, decode 0b1000000010011011,
     decode 0b1000000011011011, decode 0b1000000100011011, decode 0b1000000101011011,
     decode 0b1000000110011011, decode 0b1000000111011011,
     decode 0b1010000000100101, decode 0b1010000001100101, decode 0b1010000010100101,
     decode 0b1010000011100101, decode 0b1010000100100101, decode 0b1010000101100101,
     decode 0b1010000110100101, decode 0b1010000111100101, decode 0b1010001000100101,
     decode 0b1010001001100101, decode 0b1010001010100101, decode 0b1010001011100101] =
    [.ok (.f4op0 .Q1 .Q2 .Q3), .ok (.f4op1 .Q1 .Q2 .Q3), .ok (.f4op2 .Q1 .Q2 .Q3),
     .ok (.f4op3 .Q1 .Q2 .Q3), .ok (.f4op4 .Q1 .Q2 .Q3), .ok (.f4op5 .Q1 .Q2 .Q3),
     .ok (.f4op6 .Q1 .Q2 .Q3), .ok (.f4op7 .Q1 .Q2 .Q3),
     .ok (.f5op0 .I4 .I5), .ok (.f5op1 .I4 .I5), .ok (.f5op2 .I4 .I5), .ok (.f5op3 .I4 .I5),
     .ok (.f5op4 .I4 .I5), .ok (.f5op5 .I4 .I5), .ok (.f5op6 .I4 .I5), .ok (.f5op7 .I4 .I5),
     .ok (.f5op8 .I4 .I5), .ok (.f5op9 .I4 .I5), .ok (.f5op10 .I4 .I5), .ok (.f5op11 .I4 .I5)] := by
  decide

/-- The same for every opcode of F6 to F12. -/
theorem test_decode_opcodes_F6_F12 :
    [decode 0b1100000000011001, decode 0b1100000000111001, decode 0b1100000001011001,
     decode 0b1100000001111001, decode 0b1101000000001110, decode 0b1101000000101110,
     decode 0b1101000001001110, decode 0b1101000001101110,
     decode 0b1110000000001101, decode 0b1110000000011101, decode 0b1110000000101101,
     decode 0b1110000000111101, decode 0b1110000001001101, decode 0b1110000001011101,
     decode 0b1110100000000101, decode 0b1110100000001101, decode 0b1110100000010101,
     decode 0b1110100000011101, decode 0b1110100000100101, decode 0b1110100000101101,
     decode 0b1110100000110101, decode 0b1110100000111101,
     decode 0b1111000000000010, decode 0b1111000000000110, decode 0b1111000000001010,
     decode 0b1111000000001110, decode 0b1111100000101001, decode 0b1111100100101001,
     decode 0b1111110000000000, decode 0b1111110000000001, decode 0b1111110000000010,
     decode 0b1111110000000011] =
    [.ok (.f6op0 .I6 .Q1), .ok (.f6op1 .I6 .Q1), .ok (.f6op2 .I6 .Q1), .ok (.f6op3 .I6 .Q1),
     .ok (.f7op0 .Q1 .I6), .ok (.f7op1 .Q1 .I6), .ok (.f7op2 .Q1 .I6), .ok (.f7op3 .Q1 .I6),
     .ok (.f8op0 .Q3 .Q1), .ok (.f8op1 .Q3 .Q1), .ok (.f8op2 .Q3 .Q1), .ok (.f8op3 .Q3 .Q1),
     .ok (.f8op4 .Q3 .Q1), .ok (.f8op5 .Q3 .Q1),
     .ok (.f9op0 .I5), .ok (.f9op1 .I5), .ok (.f9op2 .I5), .ok (.f9op3 .I5), .ok (.f9op4 .I5),
     .ok (.f9op5 .I5), .ok (.f9op6 .I5), .ok (.f9op7 .I5),
     .ok (.f10op0 .Q2), .ok (.f10op1 .Q2), .ok (.f10op2 .Q2), .ok (.f10op3 .Q2),
     .ok (.f11op0 .I1 .I2 .Q1), .ok (.f11op1 .I1 .I2 .Q1),
     .ok .f12op0, .ok .f12op1, .ok .f12op2, .ok .f12op3] := by decide

/-- The invalid words of L2.2 and of R72, R74, R76, R78, R79. -/
theorem test_decode_unknown_opcode :
    [decode 0x1800, decode 0x1FFF, decode 0x3FFF, decode 0x4600, decode 0x5FFF, decode 0x7FFF,
     decode 0x8200, decode 0xA3FF, decode 0xC080, decode 0xDFFF, decode 0xE060, decode 0xEA03,
     decode 0xF7FF, decode 0xFA00, decode 0xFFFF] =
    [(0, 3), (0, 3), (1, 7), (2, 6), (2, 31), (3, 15), (4, 8), (5, 15), (6, 4), (7, 127), (8, 6), (9, 64),
      (10, 511), (11, 2), (12, 1023)].map
      fun p => .err (.decode (.unknownOpcode p.1 p.2)) := by decide

/-- The encodings of L2.3. -/
theorem test_encode_words :
    [encode (.f0op2 .I7 127), encode (.f0op0 .I0 (-128)), encode (.f1op4 .Q3 (-1)), encode (.f2op5 (-128)),
     encode (.f3op9 .I7 .I7 .I7), encode (.f4op7 .Q3 .Q3 .Q3), encode (.f5op11 .I7 .I7),
     encode (.f6op3 .I7 .Q3), encode (.f7op3 .Q3 .I7), encode (.f8op5 .Q3 .Q3), encode (.f9op7 .I7),
     encode (.f10op3 .Q3), encode (.f11op1 .I7 .I7 .Q3), encode .f12op3] =
    [0x177F, 0x0080, 0x33FF, 0x4580, 0x73FF, 0x81FF, 0xA2FF, 0xC07F, 0xD07F, 0xE05F, 0xE83F, 0xF00F,
     0xF9FF, 0xFC03] := by decide

/-- R70 and R73's examples, through the decode and encode that a catalog drives. -/
theorem test_catalog_codec : ref13.decode 0x0BFB = .ok ⟨0, 1, [.int .I3, .imm (-5)]⟩ ∧
    ref13.encode ⟨3, 2, [.int .I3, .int .I0, .int .I7]⟩ = some 0x64C7 ∧
    ref13.encode ⟨0, 3, [.int .I0, .imm 0]⟩ = none := by decide

/-! ### Steps -/

/-- A word placed by `withFetchWord` runs as the first instruction after reset (R70's example). -/
theorem test_fetch_word : replyOf (step (State.reset.withFetchWord 16 0x0BFB)) =
    some (.ok (.instruction ⟨0, 1, [.int .I3, .imm (-5)]⟩)) := by decide

/-- An invalid word is an error value (R104), not a stop. -/
theorem test_step_unknown_opcode : replyOf (step (State.reset.asks (.decode 0x1FFF))) =
    some (.err (.decode (.unknownOpcode 0 3))) := by decide

/-- Encode returns a word to the host: the example of R67. -/
theorem test_step_encode : replyOf (step (State.reset.asks (.encode ⟨3, 2, [.int .I3, .int .I0, .int .I7]⟩))) =
    some (.ok (.word 0x64C7)) := by decide

/-- The codec under a catalog that is not REF13, the same formats in the opposite order, gives the same
(R63): R70's example, one of its invalid words, and the example of R67. -/
theorem test_step_other_catalog :
    [replyOf (step (reversed.asks (.decode 0x0BFB))), replyOf (step (reversed.asks (.decode 0x1FFF))),
     replyOf (step (reversed.asks (.encode ⟨3, 2, [.int .I3, .int .I0, .int .I7]⟩)))] =
    [some (.ok (.instruction ⟨0, 1, [.int .I3, .imm (-5)]⟩)), some (.err (.decode (.unknownOpcode 0 3))),
     some (.ok (.word 0x64C7))] := by decide

/-- The codes of R106. -/
theorem test_error_numbers : [Error.address, .registration .overflow, .registration .overlap,
    .decode .noFormat, .decode (.unknownOpcode 0 3)].map errorNumber = [1, 2, 3, 4, 5] := by decide

/-- L2.1. -/
theorem test_register_codes : [IntRegister.fromCode 0, IntRegister.fromCode 7, IntRegister.fromCode 8,
      IntRegister.fromCode 255] = [some .I0, some .I7, none, none] ∧ IntRegister.I5.code = 5 ∧
    [RatioRegister.fromCode 3, RatioRegister.fromCode 4, RatioRegister.fromCode 7] =
      [some .Q3, none, none] := by decide

/-- L2.4: sizes, reads and their bounds, on a fresh 16-byte card. -/
theorem test_card_reads :
    [replyOf (step (holder.asks (.cardSize 0))), replyOf (step (holder.asks (.cardReadByte 0 15))),
     replyOf (step (holder.asks (.cardReadByte 0 16))), replyOf (step (holder.asks (.cardReadWord 0 14))),
     replyOf (step (holder.asks (.cardReadWord 0 15))), replyOf (step (holder.asks (.cardReadByte 1 0)))] =
    [some (.ok (.size 16)), some (.ok (.byte 0)), some (.err .address), some (.ok (.word 0)),
     some (.err .address), some (.err .address)] := by decide

/-- L2.4: `write_word(4, 0x1234)` stores 0x34 at 4 and 0x12 at 5; the word read back at 5 is 0x0012. -/
theorem test_card_write_word :
    (nextOf (step (holder.asks (.cardWriteWord 0 4 0x1234)))).bind (·.heldCard 0) =
      some ⟨16, [(4, 0x34), (5, 0x12)]⟩ ∧
    (⟨16, [(4, 0x34), (5, 0x12)]⟩ : Card).readWord 5 = .ok 0x0012 := by decide

/-- L2.4: `write_byte(16, 0xAB)` and, under NONE, `write_word(15, 0xBEEF)` fail and change nothing. -/
theorem test_card_failing_writes :
    nextOf (step (holder.asks (.cardWriteByte 0 16 0xAB))) = some (holder.answer (.err .address)) ∧
    nextOf (step (holder.asks (.cardWriteWord 0 15 0xBEEF))) = some (holder.answer (.err .address)) := by
  decide

/-- L2.4: under LOW_MAY_BE_WRITTEN byte 15 holds 0x00 or 0xEF after that, by the draw. -/
theorem test_card_low_may_be_written : (card16.writeWord .lowMayBeWritten false 15 0xBEEF).1 = card16 ∧
    (card16.writeWord .lowMayBeWritten true 15 0xBEEF).1 = ⟨16, [(15, 0xEF)]⟩ := by decide

/-- Writing 0 takes the byte off the list. -/
theorem test_memory_canonical : Memory.write [(4, 0x34), (5, 0x12)] 4 0 = [(5, 0x12)] := by decide

/-- L1.9, scenario 1: the card at 0x0010 fits, the 8-byte card at 0x0008 overlaps. -/
theorem test_registration :
    replyOf (step (State.asks { holder with map := [⟨0, card16⟩] } (.addDevice 0x0010 0))) = some (.ok .unit) ∧
    nextOf (step (holderOfTwo.asks (.addDevice 0x0008 2))) =
      some ((holderOfTwo.setHeld 2 none).answer (.err (.registration .overlap))) := by decide

/-- The map of L2.5 before its steps 4 to 12, as far as each needs it, and their results. -/
theorem test_registration_corners :
    (registerDevice holderOfTwo.map 0x0020 (Card.new 0)).map List.length = .ok 3 ∧
    [registerDevice [⟨0x0020, Card.new 0⟩] 0x0020 (Card.new 0), registerDevice holderOfTwo.map 0x0018 (Card.new 0),
     registerDevice [⟨0x0020, Card.new 0⟩] 0x0020 (Card.new 4), registerDevice holderOfTwo.map 0x001C (Card.new 4)] =
      List.replicate 4 (.err (.registration .overlap)) ∧
    (registerDevice [⟨0xFFF0, Card.new 15⟩] 0xFFE0 card16).map (·.map (·.base)) = .ok [0xFFE0, 0xFFF0] ∧
    [registerDevice [] 0x0001 (Card.new 65535), registerDevice [⟨0xFFE0, card16⟩] 0x0030 (Card.new 65488)] =
      List.replicate 2 (.err (.registration .overflow)) ∧
    (registerDevice [⟨0, Card.new 65535⟩] 0xFFFF (Card.new 0)).map List.length = .ok 2 := by decide

/-- L2.6, the card at 0x0008 under RAW: 0x0007, 0x001F and 0x0020 read, and 0x0008 written. -/
theorem test_routing_raw :
    [(cardAt8 .raw).byteAt 0x0007, (cardAt8 .raw).byteAt 0x001F, (cardAt8 .raw).byteAt 0x0020] =
      [.err .address, .ok 0, .err .address] ∧
    (nextOf (step ((cardAt8 .raw).asks (.writeByte 0x0008 0x5A)))).map (·.map) =
      some [⟨0x0008, ⟨32, [(8, 0x5A)]⟩⟩] := by decide

/-- The same under OFFSET. -/
theorem test_routing_offset :
    [(cardAt8 .offset).byteAt 0x0007, (cardAt8 .offset).byteAt 0x0020, (cardAt8 .offset).byteAt 0x0027,
     (cardAt8 .offset).byteAt 0x0028] = [.err .address, .ok 0, .ok 0, .err .address] ∧
    (nextOf (step ((cardAt8 .offset).asks (.writeByte 0x0008 0x5A)))).map (·.map) =
      some [⟨0x0008, ⟨32, [(0, 0x5A)]⟩⟩] := by decide

/-- P2: `write_word(0x0010, 0x1234)` fails under RAW and reaches the second card under OFFSET. -/
theorem test_second_card :
    replyOf (step ((twoCards .raw).asks (.writeWord 0x0010 0x1234))) = some (.err .address) ∧
    (nextOf (step ((twoCards .offset).asks (.writeWord 0x0010 0x1234)))).map (·.map) =
      some [⟨0, card16⟩, ⟨0x0010, ⟨16, [(0, 0x34), (1, 0x12)]⟩⟩] := by decide

/-- P2: the word at 0x000F is not merged across the two cards. -/
theorem test_cross_device : replyOf (step ((twoCards .offset).asks (.readWord 0x000F))) =
    some (.err .address) := by decide

/-- P1: reads of the three stored instruction words, one unaligned. -/
theorem test_program_words :
    let s := block .raw [⟨0, ⟨16, [(0, 0xFB), (1, 0x0B), (2, 0xC7), (3, 0x64), (5, 0xFC)]⟩⟩] []
    [replyOf (step (s.asks (.readWord 0x0000))), replyOf (step (s.asks (.readWord 0x0002))),
     replyOf (step (s.asks (.readWord 0x0004))), replyOf (step (s.asks (.readWord 0x0005))),
     replyOf (step (s.asks (.readWord 0x000F)))] =
    [some (.ok (.word 0x0BFB)), some (.ok (.word 0x64C7)), some (.ok (.word 0xFC00)),
     some (.ok (.word 0x00FC)), some (.err .address)] := by decide

/-! ### Witnesses of the statements' hypotheses -/

theorem witness_IntRegisterFromCode : (7 : Byte).toNat < 8 ∧ 8 ≤ (8 : Byte).toNat ∧
    replyOf (step (State.reset.asks (.intFromCode 7))) = some (.ok (.intRegister (some .I7))) ∧
    replyOf (step (State.reset.asks (.intFromCode 8))) = some (.ok (.intRegister none)) := by decide

theorem witness_RatioRegisterFromCode : (3 : Byte).toNat < 4 ∧ 4 ≤ (4 : Byte).toNat ∧
    replyOf (step (State.reset.asks (.ratioFromCode 3))) = some (.ok (.ratioRegister (some .Q3))) ∧
    replyOf (step (State.reset.asks (.ratioFromCode 4))) = some (.ok (.ratioRegister none)) := by decide

theorem witness_RegisterCodesInvert : IntRegister.fromCode 7 = some .I7 ∧
    RatioRegister.fromCode 3 = some .Q3 := by decide

/-- Two well-formed catalogs: REF13 and the same formats in the opposite order. It stands for every
statement over a well-formed catalog and its formats. -/
theorem witness_catalogs : ref13.wf = true ∧ Catalog.wf ref13.reverse = true ∧ ref13.reverse ≠ ref13 := by
  decide

theorem witness_PrefixWidthsAreOneToSixteen : ref13.wf = true ∧ ∃ F ∈ ref13, F.pfxWidth = 6 := by decide

theorem witness_EveryWordMatchesExactlyOneFormat : ref13.wf = true ∧
    (∃ F ∈ ref13, F.matches 0xFFFF = true) ∧ ref13.all Format.layoutOk = true ∧
    ref13.pairwisePrefixFree = true ∧ ref13.exhaustive = true ∧ Catalog.exhaustive (ref13.take 12) = false := by
  decide

/-- A legal opcode and an illegal one, both at the boundary: F0's opcodes 2 and 3. -/
theorem witness_OpcodeIsCheckedBeforeOperands : ref13.wf = true ∧ ∃ F ∈ ref13,
    field 0x177F (16 - F.pfxWidth) F.pfxWidth = F.pfx ∧
    field 0x177F (16 - F.pfxWidth - F.opWidth) F.opWidth ∈ F.ops ∧
    field 0x1FFF (16 - F.pfxWidth) F.pfxWidth = F.pfx ∧
    field 0x1FFF (16 - F.pfxWidth - F.opWidth) F.opWidth ∉ F.ops := by decide

/-- A word with an integer register above an immediate, and one that ends in a ratio register. -/
theorem witness_OperandFieldsAreReadInOrder : ref13.wf = true ∧
    (∃ F ∈ ref13, F.matches 0x0BFB = true ∧ ref13.decode 0x0BFB = .ok ⟨0, 1, [.int .I3, .imm (-5)]⟩ ∧
      F.fields[0]? = some .intReg ∧ F.fields[1]? = some .imm8 ∧ fieldLow F 0 = 8 ∧ fieldLow F 1 = 0) ∧
    ∃ F ∈ ref13, F.matches 0xF00F = true ∧ ref13.decode 0xF00F = .ok ⟨10, 3, [.ratio .Q3]⟩ ∧
      F.fields[0]? = some .ratioReg := by decide

theorem witness_ZeroWordDecodesToZeroInstruction : ref13.wf = true ∧
    ref13.decode 0 = .ok ⟨0, 0, [.int .I0, .imm 0]⟩ := by decide

theorem witness_DecodeOfEncodeForEveryCatalog : ref13.wf = true ∧
    ref13.admits ⟨0, 1, [.int .I3, .imm (-128)]⟩ = true ∧ ref13.admits ⟨0, 1, [.int .I3, .imm 127]⟩ = true ∧
    ref13.admits ⟨0, 1, [.int .I3, .imm 128]⟩ = false ∧ State.reset.cfg.catalog = ref13 := by decide

theorem witness_EncodeOfDecodeForEveryCatalog : ref13.wf = true ∧
    ref13.decode 0xFC03 = .ok ⟨12, 3, []⟩ ∧ ref13.admits ⟨12, 3, []⟩ = true ∧
    ref13.encode ⟨12, 3, []⟩ = some 0xFC03 := by decide

theorem witness_FormatOrderDoesNotMatter : ref13.wf = true ∧ List.Perm ref13 ref13.reverse :=
  ⟨ref13_wf, (List.reverse_perm ref13).symm⟩

/-- An ill-formed catalog and a well-formed one. -/
theorem witness_IllFormedCatalogIsRefused : Catalog.wf [] = false ∧ ref13.wf = true ∧
    reversed.cfg.catalog.wf = true ∧ reversed.cfg.catalog ≠ ref13 ∧
    refusalOf (step (State.asks { State.reset with cfg := ⟨[], .raw, .nothing⟩ } (.decode 0))) =
      some .illFormedCatalog ∧
    refusalOf (State.build ⟨[], .raw, .nothing⟩) = some .illFormedCatalog ∧
    nextOf (State.build ⟨ref13, .offset, .lowMayBeWritten⟩) =
      some { State.reset with cfg := ⟨ref13, .offset, .lowMayBeWritten⟩ } := by decide

/-- The last legal opcode and the first illegal one of every format, under REF13, with the operand fields
of all ones: the hypotheses of the two decode clauses of the thirteen format statements. -/
theorem witness_formats_F0_F5 : State.reset.cfg.catalog = ref13 ∧
    (field 0x17FF 13 3 = 0b000 ∧ field 0x17FF 11 2 = 2 ∧ field 0x1FFF 13 3 = 0b000 ∧ field 0x1FFF 11 2 = 3) ∧
    (field 0x33FF 13 3 = 0b001 ∧ field 0x33FF 10 3 = 4 ∧ field 0x37FF 13 3 = 0b001 ∧ field 0x37FF 10 3 = 5) ∧
    (field 0x45FF 13 3 = 0b010 ∧ field 0x45FF 8 5 = 5 ∧ field 0x46FF 13 3 = 0b010 ∧ field 0x46FF 8 5 = 6) ∧
    (field 0x73FF 13 3 = 0b011 ∧ field 0x73FF 9 4 = 9 ∧ field 0x75FF 13 3 = 0b011 ∧ field 0x75FF 9 4 = 10) ∧
    (field 0x81FF 13 3 = 0b100 ∧ field 0x81FF 6 7 = 7 ∧ field 0x823F 13 3 = 0b100 ∧ field 0x823F 6 7 = 8) ∧
    (field 0xA2FF 13 3 = 0b101 ∧ field 0xA2FF 6 7 = 11 ∧ field 0xA33F 13 3 = 0b101 ∧ field 0xA33F 6 7 = 12) := by
  decide

theorem witness_formats_F6_F12 : State.reset.cfg.catalog = ref13 ∧
    (field 0xC07F 12 4 = 0b1100 ∧ field 0xC07F 5 7 = 3 ∧ field 0xC09F 12 4 = 0b1100 ∧ field 0xC09F 5 7 = 4) ∧
    (field 0xD07F 12 4 = 0b1101 ∧ field 0xD07F 5 7 = 3 ∧ field 0xD09F 12 4 = 0b1101 ∧ field 0xD09F 5 7 = 4) ∧
    (field 0xE05F 11 5 = 0b11100 ∧ field 0xE05F 4 7 = 5 ∧ field 0xE06F 11 5 = 0b11100 ∧ field 0xE06F 4 7 = 6) ∧
    (field 0xE83F 11 5 = 0b11101 ∧ field 0xE83F 3 8 = 7 ∧ field 0xE847 11 5 = 0b11101 ∧ field 0xE847 3 8 = 8) ∧
    (field 0xF00F 11 5 = 0b11110 ∧ field 0xF00F 2 9 = 3 ∧ field 0xF013 11 5 = 0b11110 ∧ field 0xF013 2 9 = 4) ∧
    (field 0xF9FF 10 6 = 0b111110 ∧ field 0xF9FF 8 2 = 1 ∧ field 0xFAFF 10 6 = 0b111110 ∧ field 0xFAFF 8 2 = 2) ∧
    (field 0xFC03 10 6 = 0b111111 ∧ field 0xFC03 0 10 = 3 ∧ field 0xFC04 10 6 = 0b111111 ∧ field 0xFC04 0 10 = 4) := by
  decide

theorem witness_TypedEncodeIsCatalogEncode : (Instr.f0op1 .I3 (-5)).wf = true ∧
    ref13.admits ⟨0, 1, [.int .I3, .imm (-5)]⟩ = true := by decide

theorem witness_DecodeOfEncode : (Instr.f2op0 (-128)).wf = true ∧ (Instr.f2op0 127).wf = true := by decide

theorem witness_EncodeOfDecode : decode 0x0BFB = .ok (.f0op1 .I3 (-5)) := by decide

theorem witness_StepRunsTheDecodedInstruction : (State.reset.asks (.decode 0xFC00)).requests = [.decode 0xFC00] ∧
    State.reset.cfg.catalog = ref13 ∧ decode 0xFC00 = .ok .f12op0 ∧ decodeTableWord 16 0xFC00 = some .f12op0 ∧
    State.reset.requests = [] := by decide

/-- Each clause at its boundary: bytes 15 and 16, words at 14 and 15. -/
theorem witness_CardReads : holder.heldCard 0 = some card16 ∧ (15 : Addr).toNat < card16.size.toNat ∧
    card16.size.toNat ≤ (16 : Addr).toNat ∧ (14 : Addr).toNat + 1 < card16.size.toNat ∧
    card16.size.toNat ≤ (15 : Addr).toNat + 1 := by decide

theorem witness_CardByteWrite : holder.Inv ∧ holder.heldCard 0 = some card16 ∧
    (15 : Addr).toNat < card16.size.toNat ∧ card16.size.toNat ≤ (16 : Addr).toNat :=
  ⟨inv_holder, by decide⟩

theorem witness_CardWordWrite : holder.Inv ∧ holder.heldCard 0 = some card16 ∧
    (14 : Addr).toNat + 1 < card16.size.toNat ∧ card16.size.toNat ≤ (15 : Addr).toNat + 1 ∧
    holder.cfg.failEffect = .nothing := ⟨inv_holder, by decide⟩

theorem witness_NoAliasSurvivesRegistration : ∃ t, step (holder.asks (.addDevice 0 0)) = .next t ∧
    refusalOf (step (t.asks (.cardSize 0))) = some .deviceNotHeld := ⟨_, rfl, by decide⟩

theorem witness_EveryAccessFailsOnAnEmptyMap : State.reset.map = [] := by decide

/-- Overflow at 0xFFF0 + 16, overlap at 0x0008 and at 0x001F, and the free place 0x0020. -/
theorem witness_AddDeviceChecks : holderOfTwo.Inv ∧ holderOfTwo.heldCard 0 = some card16 ∧
    0xFFFF < (0xFFF0 : Addr).toNat + card16.size.toNat ∧ (0x001F : Addr).toNat + card16.size.toNat ≤ 0xFFFF ∧
    (∃ e ∈ holderOfTwo.map, e.base.toNat < (0x001F : Addr).toNat ∧
      (0x001F : Addr).toNat < e.base.toNat + e.dev.size.toNat) ∧
    (∃ e ∈ holderOfTwo.map, (0x0008 : Addr).toNat < e.base.toNat ∧
      e.base.toNat < (0x0008 : Addr).toNat + card16.size.toNat) ∧
    (∃ e ∈ holderOfTwo.map, e.base = 0x0010) ∧
    ∀ e ∈ holderOfTwo.map, e.base ≠ 0x0020 ∧
      (e.base.toNat < (0x0020 : Addr).toNat → e.base.toNat + e.dev.size.toNat ≤ (0x0020 : Addr).toNat) ∧
      ((0x0020 : Addr).toNat < e.base.toNat → (0x0020 : Addr).toNat + card16.size.toNat ≤ e.base.toNat) :=
  ⟨inv_holderOfTwo, by decide⟩

theorem witness_FailedAddDeviceLeavesTheMap : ∃ t, step (holderOfTwo.asks (.addDevice 0x0008 2)) = .next t ∧
    t.reply = some (.err (.registration .overlap)) := ⟨_, rfl, by decide⟩

/-- P3: the 8-byte card at 0x0008 first, then the 16-byte card at 0x0000. -/
theorem witness_FirstRegisteredRangeWins : holder.Inv ∧ holder.heldCard 2 = some (Card.new 8) ∧
    holder.heldCard 0 = some card16 ∧ (0 : Addr).toNat + card16.size.toNat ≤ 0xFFFF ∧
    (8 : Addr).toNat < (0 : Addr).toNat + card16.size.toNat ∧
    (0 : Addr).toNat < (8 : Addr).toNat + (Card.new 8).size.toNat ∧
    ∃ t, step (holder.asks (.addDevice 8 2)) = .next t ∧ t.reply = some (.ok .unit) :=
  ⟨inv_holder, by decide, by decide, by decide, by decide, by decide, _, rfl, by decide⟩

theorem witness_StepKeepsTheInvariant : (State.asks (twoCards .raw) (.writeByte 0 0xAB)).Inv ∧
    ∃ t, step ((twoCards .raw).asks (.writeByte 0 0xAB)) = .next t ∧ t.byteAt 0 = .ok 0xAB :=
  ⟨⟨ref13_wf, (inv_twoCards .raw).2, (inv_twoCards .raw).3, (inv_twoCards .raw).4⟩, _, rfl, by decide⟩

theorem witness_ResetMeetsTheInvariant : ∃ s, State.build ⟨ref13, .offset, .nothing⟩ = .next s :=
  ⟨_, if_pos ref13_wf⟩

/-- Two operations of a block just built: a card is created and registered. -/
theorem witness_EveryReachableMapIsDisjoint : ∃ t,
    stepsTo 2 { State.reset with requests := [.cardNew 16, .addDevice 0x0010 0] } t ∧
    t.map = [⟨0x0010, card16⟩] := ⟨_, ⟨_, rfl, _, rfl, rfl⟩, by decide⟩

/-- No entry at or below 0x0007; the entry at 0x0008 for 0x0008, in both modes. -/
theorem witness_RoutingSelectsTheGreatestBase : (cardAt8 .raw).Inv ∧ (cardAt8 .offset).Inv ∧
    (∀ e ∈ (cardAt8 .raw).map, (7 : Addr).toNat < e.base.toNat) ∧
    ∃ e ∈ (cardAt8 .offset).map, e.base.toNat ≤ (8 : Addr).toNat ∧
      (∀ f ∈ (cardAt8 .offset).map, f.base.toNat ≤ (8 : Addr).toNat → f.base.toNat ≤ e.base.toNat) ∧
      (0 : Addr).toNat = (8 : Addr).toNat - e.base.toNat :=
  ⟨inv_cardAt8 .raw, inv_cardAt8 .offset, by decide⟩

/-- Under RAW the card at 0x0008 answers at 0x001F and not at 0x0020. -/
theorem witness_RawReachableBytes : (cardAt8 .raw).Inv ∧ (cardAt8 .raw).cfg.addrMode = .raw ∧
    replyOf (step ((cardAt8 .raw).asks (.readByte 0x001F))) = some (.ok (.byte 0)) ∧
    replyOf (step ((cardAt8 .raw).asks (.readByte 0x0020))) = some (.err .address) :=
  ⟨inv_cardAt8 .raw, by decide⟩

/-- Under OFFSET it answers at 0x0027, and not at 0x0028; a word at 0x0026, and not at 0x0027. -/
theorem witness_OffsetReachableBytes : (cardAt8 .offset).Inv ∧ (cardAt8 .offset).cfg.addrMode = .offset ∧
    replyOf (step ((cardAt8 .offset).asks (.readByte 0x0027))) = some (.ok (.byte 0)) ∧
    replyOf (step ((cardAt8 .offset).asks (.readByte 0x0028))) = some (.err .address) ∧
    replyOf (step ((cardAt8 .offset).asks (.readWord 0x0026))) = some (.ok (.word 0)) ∧
    replyOf (step ((cardAt8 .offset).asks (.readWord 0x0027))) = some (.err .address) :=
  ⟨inv_cardAt8 .offset, by decide⟩

/-- The last byte of the card at 0x0008: 0x001F under RAW, 0x0027 under OFFSET; and of a held card. -/
theorem witness_LastAddressAlwaysFails : (cardAt8 .raw).Inv ∧ (cardAt8 .offset).Inv ∧
    (∃ e ∈ (cardAt8 .raw).map, e.base.toNat ≤ (0x1F : Addr).toNat ∧ (0x1F : Addr).toNat + 1 = e.dev.size.toNat) ∧
    (∃ e ∈ (cardAt8 .offset).map, e.base.toNat ≤ (0x27 : Addr).toNat ∧
      (0x27 : Addr).toNat + 1 = e.base.toNat + e.dev.size.toNat) ∧
    holder.heldCard 0 = some card16 ∧ (15 : Addr).toNat + 1 = card16.size.toNat ∧
    (0xFFFF : Addr).toNat = 0xFFFF := ⟨inv_cardAt8 .raw, inv_cardAt8 .offset, by decide⟩

theorem witness_MuxByteWrite : (twoCards .raw).Inv ∧ (twoCards .raw).byteAt 0x000F = .ok 0 ∧
    (twoCards .raw).byteAt 0x0010 = .err .address := ⟨inv_twoCards .raw, by decide⟩

theorem witness_MuxWordWrite : (twoCards .offset).Inv ∧
    muxReadWord .offset (twoCards .offset).map 0x000E = .ok 0 ∧
    muxReadWord .offset (twoCards .offset).map 0x000F = .err .address ∧
    (twoCards .offset).cfg.failEffect = .nothing := ⟨inv_twoCards .offset, by decide⟩

theorem witness_WordsAreLittleEndian : (twoCards .raw).Inv ∧
    step ((twoCards .raw).asks (.readWord 0x000E)) = .next ((twoCards .raw).answer (.ok (.word 0))) ∧
    ∃ t, step ((twoCards .raw).asks (.writeWord 0x000E 0x1234)) = .next t ∧ t.reply = some (.ok .unit) ∧
      t.byteAt 0x000E = .ok 0x34 ∧ t.byteAt 0x000F = .ok 0x12 :=
  ⟨inv_twoCards .raw, rfl, _, rfl, by decide⟩

theorem witness_WordsNeverCrossDevices : (twoCards .offset).Inv ∧
    ∃ f ∈ (twoCards .offset).map, f.base.toNat = (0x000F : Addr).toNat + 1 :=
  ⟨inv_twoCards .offset, by decide⟩

/-- A legal operation that succeeds, and one that returns an error. -/
theorem witness_EveryLegalOperationReturns : (twoCards .raw).Inv ∧
    Request.legal (twoCards .raw) (.readByte 0x000F) = true ∧
    Request.legal (twoCards .raw) (.writeWord 0x000F 0xBEEF) = true ∧
    (twoCards .raw).cfg.failEffect = .nothing ∧
    replyOf (step ((twoCards .raw).asks (.writeWord 0x000F 0xBEEF))) = some (.err .address) ∧
    Request.legal holder (.addDevice 0 0) = true ∧ Request.legal holder (.addDevice 0 3) = false :=
  ⟨inv_twoCards .raw, by decide⟩

theorem witness_BytesStayUntilWritten : (twoCards .raw).Inv ∧ (twoCards .raw).byteAt 0x0005 = .ok 0 ∧
    (∀ x, Request.writeWord 0x0006 0x1234 ≠ .writeByte 0x0005 x) ∧
    Request.writeWord 0x0006 0x1234 ≠ .muxNew ∧ (0x0006 : Addr) ≠ 0x0005 ∧
    (0x0006 : Addr).toNat + 1 ≠ (0x0005 : Addr).toNat ∧
    ∃ t, step ((twoCards .raw).asks (.writeWord 0x0006 0x1234)) = .next t :=
  ⟨inv_twoCards .raw, by decide, by simp, by decide, by decide, by decide, _, rfl⟩

theorem witness_ParametersNeverChange : ∃ t, step (State.reset.asks .muxNew) = .next t := ⟨_, rfl⟩

theorem witness_RegisteredCardsStay : holderOfTwo.Inv ∧ holderOfTwo.heldCard 0 = some card16 ∧
    (∃ e ∈ holderOfTwo.map, e.base = 0x0010) ∧
    ∃ t, step (holderOfTwo.asks (.cardWriteByte 0 0 1)) = .next t :=
  ⟨inv_holderOfTwo, by decide, by decide, _, rfl⟩

theorem witness_FetchSeesTheWordJustWritten : (twoCards .raw).Inv ∧ (twoCards .raw).cfg.catalog = ref13 ∧
    (Instr.f0op1 .I3 (-5)).wf = true ∧ muxReadWord .raw (twoCards .raw).map 0x000E = .ok 0 :=
  ⟨inv_twoCards .raw, by decide⟩

end Sys2Proof.Tests
end

section
/-! The family of spec/10_state.md. What a performed operation can do to the state is said once, by
`Effect`; that every operation keeps a good map (R101) is a case analysis of it. -/

namespace Sys2Proof.Machine

/-! ### Operations that only answer -/

/-- A failing decode that does not stop the machine only answers. -/
theorem eq_answer_of_decodeFails {e : Error} {s t : State} (h : decodeFails e s = .next t) :
    t = s.answer (.err e) := by
  unfold decodeFails at h
  split at h
  · cases h
  · cases h; rfl

/-- A decode that is not refused only answers (R62). -/
theorem hostDecode_next {w : Word} {s t : State} (h : hostDecode w s = .next t) :
    ∃ r, t = s.answer r := by
  unfold hostDecode at h
  split at h
  · unfold decodeRef13 at h
    split at h
    · rw [exec_eq] at h; cases h; exact ⟨_, rfl⟩
    · exact ⟨_, eq_answer_of_decodeFails h⟩
  · split at h
    · unfold decodeCatalog at h
      split at h
      · cases h; exact ⟨_, rfl⟩
      · exact ⟨_, eq_answer_of_decodeFails h⟩
    · cases h

/-- An encode that is not refused answers with the word (R67). -/
theorem hostEncode_next {i : Instruction} {s t : State} (h : hostEncode i s = .next t) :
    ∃ w, s.cfg.catalog.encode i = some w ∧ t = s.answer (.ok (.word w)) := by
  unfold hostEncode at h
  split at h
  · split at h
    · rename_i w hw; cases h; exact ⟨w, hw, rfl⟩
    · cases h
  · cases h

/-! ### What an operation can do -/

/-- The operations that write the held cards or the map whenever they are performed. -/
def Request.alwaysWrites : Request → Bool
  | .cardNew _ | .muxNew | .addDevice _ _ => true
  | _ => false

/-- The state `t` that performing an operation in `s` can lead to: an answer alone, or one of
the eight ways an operation writes the held cards or the map. -/
inductive Effect (s : State) : Request → State → Prop
  | answers {q : Request} (r : Result Value) (unforced : q.alwaysWrites = false) :
      Effect s q (s.answer r)
  | cardNew (size : BitVec 16) : Effect s (.cardNew size)
      ({ s with held := s.held ++ [some (Card.new size)] }.answer (.ok (.slot s.held.length)))
  | cardWriteByte {slot : Nat} {c : Card} {a : Addr} (v : Byte) (held : s.heldCard slot = some c)
      (inside : a.toNat < c.size.toNat) : Effect s (.cardWriteByte slot a v)
      ((s.setHeld slot (some (c.setByte a.toNat v))).answer (.ok .unit))
  | cardWriteWord {slot : Nat} {c : Card} (a : Addr) (v : Word)
      (held : s.heldCard slot = some c) : Effect s (.cardWriteWord slot a v)
      (((s.setHeld slot (some (c.writeWord s.cfg.failEffect s.nextDraw a v).1)).countDraw
        (c.drawsAt s.cfg.failEffect a)).answer
          ((c.writeWord s.cfg.failEffect s.nextDraw a v).2.map fun _ => .unit))
  | muxNew : Effect s .muxNew ({ s with map := [] }.answer (.ok .unit))
  | registers {slot : Nat} {c : Card} {addr : Addr} {map : List Entry}
      (held : s.heldCard slot = some c) (registered : registerDevice s.map addr c = .ok map) :
      Effect s (.addDevice addr slot) ({ s.setHeld slot none with map := map }.answer (.ok .unit))
  | rejects {slot : Nat} {c : Card} {addr : Addr} {x : Error} (held : s.heldCard slot = some c)
      (rejected : registerDevice s.map addr c = .err x) :
      Effect s (.addDevice addr slot) ((s.setHeld slot none).answer (.err x))
  | writeByte {addr a : Addr} {e : Entry} (v : Byte)
      (routed : route s.cfg.addrMode s.map addr = some (e, a)) (inside : a.toNat < e.dev.size.toNat) :
      Effect s (.writeByte addr v)
        ({ s with map := replaceAt s.map e.base (e.dev.setByte a.toNat v) }.answer (.ok .unit))
  | writeWord {addr a : Addr} {e : Entry} (v : Word)
      (routed : route s.cfg.addrMode s.map addr = some (e, a)) : Effect s (.writeWord addr v)
      (({ s with
          map := replaceAt s.map e.base (e.dev.writeWord s.cfg.failEffect s.nextDraw a v).1 }.countDraw
        (e.dev.drawsAt s.cfg.failEffect a)).answer
          ((e.dev.writeWord s.cfg.failEffect s.nextDraw a v).2.map fun _ => .unit))

theorem hostCardWriteByte_effect {slot : Nat} {a : Addr} {v : Byte} {s t : State}
    (h : hostCardWriteByte slot a v s = .next t) : Effect s (.cardWriteByte slot a v) t := by
  obtain ⟨c, hc, rfl⟩ := withHeld_next h
  rcases Nat.lt_or_ge a.toNat c.size.toNat with ha | ha
  · simp only [writeByte_ok v ha]; exact .cardWriteByte v hc ha
  · simp only [writeByte_err v ha]; exact .answers _ rfl

theorem hostAddDevice_effect {addr : Addr} {slot : Nat} {s t : State}
    (h : hostAddDevice addr slot s = .next t) : Effect s (.addDevice addr slot) t := by
  obtain ⟨c, hc, rfl⟩ := withHeld_next h
  cases hr : registerDevice s.map addr c with
  | ok map => exact .registers hc hr
  | err x => exact .rejects hc hr

theorem hostWriteByte_effect {addr : Addr} {v : Byte} {s t : State}
    (h : hostWriteByte addr v s = .next t) : Effect s (.writeByte addr v) t := by
  unfold hostWriteByte at h
  split at h
  · cases h; exact .answers _ rfl
  · rename_i e a hroute
    rcases Nat.lt_or_ge a.toNat e.dev.size.toNat with ha | ha
    · rw [writeByte_ok v ha] at h; cases h; exact .writeByte v hroute ha
    · rw [writeByte_err v ha] at h; cases h; exact .answers _ rfl

theorem hostWriteWord_effect {addr : Addr} {v : Word} {s t : State}
    (h : hostWriteWord addr v s = .next t) : Effect s (.writeWord addr v) t := by
  unfold hostWriteWord at h
  split at h
  · cases h; exact .answers _ rfl
  · rename_i e a hroute
    cases h; exact .writeWord v hroute

/-- Every performed operation has one of the effects. -/
theorem perform_effect {q : Request} {s t : State} (h : perform q s = .next t) : Effect s q t := by
  cases q with
  | intCode | intFromCode | ratioCode | ratioFromCode | readByte | readWord =>
    cases h; exact .answers _ rfl
  | decode w => obtain ⟨r, rfl⟩ := hostDecode_next h; exact .answers r rfl
  | encode i => obtain ⟨w, -, rfl⟩ := hostEncode_next h; exact .answers _ rfl
  | cardNew size => cases h; exact .cardNew size
  | cardSize | cardReadByte | cardReadWord =>
    obtain ⟨c, -, rfl⟩ := withHeld_next h; exact .answers _ rfl
  | cardWriteByte slot a v => exact hostCardWriteByte_effect h
  | cardWriteWord slot a v => obtain ⟨c, hc, rfl⟩ := withHeld_next h; exact .cardWriteWord a v hc
  | muxNew => cases h; exact .muxNew
  | addDevice addr slot => exact hostAddDevice_effect h
  | writeByte addr v => exact hostWriteByte_effect h
  | writeWord addr v => exact hostWriteWord_effect h

/-- A step with no operation issued leaves the state; with one it has that operation's effect. -/
theorem step_effect {s t : State} (h : step s = .next t) :
    t = s ∨ ∃ q rest, s.requests = q :: rest ∧ Effect { s with requests := rest } q t := by
  cases hr : s.requests with
  | nil => rw [step_idle s hr] at h; cases h; exact .inl rfl
  | cons q rest =>
    rw [eq_asks_of_requests s q hr, step_asks] at h
    exact .inr ⟨q, rest, rfl, perform_effect h⟩

/-! ### Every step keeps a good map -/

/-- A routed entry is one of the map. -/
theorem mem_of_route {mode : MuxAddrMode} {map : List Entry} {addr a : Addr} {e : Entry}
    (h : route mode map addr = some (e, a)) : e ∈ map := by
  obtain ⟨f, hf, heq⟩ := Option.map_eq_some_iff.mp h
  cases heq
  exact (nearestBelow_some hf).1

/-- R101 for registration; the routed writes keep every base and size, and `new()` leaves no entry. -/
theorem Effect.keeps_mapOk {s t : State} {q : Request} (h : Effect s q t) (hm : mapOk s.map) :
    mapOk t.map := by
  cases h with
  | answers | cardNew | cardWriteByte | rejects => exact hm
  | cardWriteWord => simpa using hm
  | muxNew => exact ⟨by simp, .nil⟩
  | registers _ hr => exact mapOk_registerDevice hm hr
  | writeByte v hroute _ => exact mapOk_replaceAt hm (mem_of_route hroute) rfl
  | writeWord v hroute =>
    simpa using mapOk_replaceAt hm (mem_of_route hroute) (writeWord_size _ _ _ _ v)

theorem step_keeps_mapOk {s t : State} (hm : mapOk s.map) (h : step s = .next t) : mapOk t.map := by
  obtain rfl | ⟨q, rest, -, he⟩ := step_effect h
  · exact hm
  · exact he.keeps_mapOk hm

/-- What holds at first and is kept by every step holds after any number of steps. -/
theorem stepsTo_keeps {P : State → Prop} (hstep : ∀ {s t}, P s → step s = .next t → P t)
    {n : Nat} {s t : State} (h : stepsTo n s t) (hs : P s) : P t := by
  induction n generalizing s with
  | zero => cases h; exact hs
  | succ n ih =>
    obtain ⟨u, hu, hrest⟩ := h
    exact ih hrest (hstep hs hu)

/-- A block is built only under a well-formed catalog (R48), and is then the reset state with its
parameters (R115). -/
theorem build_next {cfg : Config} {s : State} (h : State.build cfg = .next s) :
    cfg.catalog.wf = true ∧ s = { State.reset with cfg := cfg } := by
  unfold State.build at h
  split at h
  · rename_i hw; cases h; exact ⟨hw, rfl⟩
  · cases h

/-! ### R15 (b) from the sorted form -/

/-- In a good map the entry at an earlier place has the smaller base and ends at or before
the later one. -/
theorem mapOk_getElem?_lt {map : List Entry} (h : mapOk map) {i j : Nat} {e f : Entry} (hij : i < j)
    (he : map[i]? = some e) (hf : map[j]? = some f) :
    e.base.toNat < f.base.toNat ∧ e.limit ≤ f.base.toNat := by
  obtain ⟨hi, rfl⟩ := List.getElem?_eq_some_iff.mp he
  obtain ⟨hj, rfl⟩ := List.getElem?_eq_some_iff.mp hf
  exact List.pairwise_iff_getElem.mp h.2 i j hi hj hij

/-- In a good map the entries at two places differ in base, and one ends at or before the other. -/
theorem mapOk_getElem?_ne {map : List Entry} (h : mapOk map) {i j : Nat} {e f : Entry} (hij : i ≠ j)
    (he : map[i]? = some e) (hf : map[j]? = some f) :
    e.base ≠ f.base ∧ (e.limit ≤ f.base.toNat ∨ f.limit ≤ e.base.toNat) := by
  rcases Nat.lt_or_gt_of_ne hij with hlt | hgt
  · obtain ⟨hb, hl⟩ := mapOk_getElem?_lt h hlt he hf
    exact ⟨fun heq => hb.ne (congrArg _ heq), .inl hl⟩
  · obtain ⟨hb, hl⟩ := mapOk_getElem?_lt h hgt hf he
    exact ⟨fun heq => hb.ne (congrArg _ heq.symm), .inr hl⟩

/-- Settles O45: every step keeps `mapOk`, a built block starts from the empty map, and `mapOk` gives
R15 (a), (b) and (c). -/
theorem everyReachableMapIsDisjoint : Obligations.EveryReachableMapIsDisjoint := by
  intro cfg s t ops n hbuild hrun
  obtain ⟨-, rfl⟩ := build_next hbuild
  have hm : mapOk t.map :=
    stepsTo_keeps (P := fun u => mapOk u.map) step_keeps_mapOk hrun ⟨by simp [State.reset], .nil⟩
  refine ⟨hm.1, fun i j e f hij he hf => ?_, fun e he f hf hb => mapOk_limit_le hm he hf hb⟩
  obtain ⟨hne, hends⟩ := mapOk_getElem?_ne hm hij he hf
  refine ⟨hne, fun a ⟨hae, haf⟩ => ?_⟩
  unfold Entry.limit at hends
  omega

end Sys2Proof.Machine
end

section
/-! The family of spec/20_memory.md. A word that fits in the routed card has both of its bytes there
(`route_succ`), which gives R22; a word just below another entry's base does not fit
(`size_le_localAddr_succ`), which gives R36. -/

namespace Sys2Proof.Machine

/-! ### Word accesses of the multiplexer -/

/-- A word read answers what the multiplexer reads and changes nothing else (R95). -/
theorem step_readWord (s : State) (addr : Addr) :
    step (s.asks (.readWord addr)) =
      .next (s.answer ((muxReadWord s.cfg.addrMode s.map addr).map .word)) := rfl

/-- A word is read only from a card that holds both of its bytes (R86). -/
theorem muxReadWord_ok {mode : MuxAddrMode} {map : List Entry} {addr : Addr} {w : Word}
    (h : muxReadWord mode map addr = .ok w) :
    ∃ e a, route mode map addr = some (e, a) ∧ a.toNat + 1 < e.dev.size.toNat ∧
      w = wordOfBytes (e.dev.byteAt a.toNat) (e.dev.byteAt (a.toNat + 1)) := by
  obtain ⟨hr, -⟩ | ⟨e, hr, -⟩ := route_cases mode map addr
  · rw [muxReadWord_none hr] at h; cases h
  · rw [muxReadWord_some hr] at h
    rcases Nat.lt_or_ge ((localAddr mode e.base addr).toNat + 1) e.dev.size.toNat with hin | hout
    · rw [readWord_ok hin] at h; cases h; exact ⟨e, _, hr, hin, rfl⟩
    · rw [readWord_err hout] at h; cases h

/-- A word write that routes to no card answers the error and changes nothing else (R97). -/
theorem step_writeWord_unrouted {s : State} {addr : Addr}
    (h : route s.cfg.addrMode s.map addr = none) (v : Word) :
    step (s.asks (.writeWord addr v)) = .next (s.answer (.err .address)) := by
  simp [perform, hostWriteWord, h]

/-- A routed word write puts the written card in its entry and answers that card's result (R97). -/
theorem step_writeWord_routed {s : State} {addr a : Addr} {e : Entry}
    (h : route s.cfg.addrMode s.map addr = some (e, a)) (v : Word) :
    step (s.asks (.writeWord addr v)) =
      .next (({ s with
          map := replaceAt s.map e.base (e.dev.writeWord s.cfg.failEffect s.nextDraw a v).1 }.countDraw
        (e.dev.drawsAt s.cfg.failEffect a)).answer
          ((e.dev.writeWord s.cfg.failEffect s.nextDraw a v).2.map fun _ => .unit)) := by
  simp [perform, hostWriteWord, h]

/-- A word write that does not fit in the card fails, whatever it leaves in the card (R88). -/
theorem writeWord_result_err {c : Card} {a : Addr} (eff : WordWriteFailEffect) (draw : Bool) (v : Word)
    (h : c.size.toNat ≤ a.toNat + 1) : (c.writeWord eff draw a v).2 = .err .address := by
  obtain he | ⟨-, he⟩ := writeWord_err eff draw v h <;> rw [he]

/-- The two bytes of a written word are its halves (R88). -/
theorem writeWord_halves {c : Card} (hc : c.wf) {a : Addr} (eff : WordWriteFailEffect) (draw : Bool)
    (v : Word) (h : a.toNat + 1 < c.size.toNat) :
    (c.writeWord eff draw a v).1.byteAt a.toNat = lo8 v ∧
      (c.writeWord eff draw a v).1.byteAt (a.toNat + 1) = hi8 v := by
  rw [writeWord_ok eff draw v h]
  have hlow : (c.setByte a.toNat (lo8 v)).wf := setByte_wf c hc _ _ (by omega)
  exact ⟨by rw [setByte_other _ _ _ _ (by omega), setByte_same c hc], setByte_same _ hlow _ _⟩

/-- A word write that succeeds was routed to a card that holds both bytes of the word (R88, R97). -/
theorem writeWord_unit {s t : State} {addr : Addr} {v : Word}
    (h : step (s.asks (.writeWord addr v)) = .next t) (hok : t.reply = some (.ok .unit)) :
    ∃ e a, route s.cfg.addrMode s.map addr = some (e, a) ∧ a.toNat + 1 < e.dev.size.toNat := by
  obtain ⟨hr, -⟩ | ⟨e, hr, -⟩ := route_cases s.cfg.addrMode s.map addr
  · rw [step_writeWord_unrouted hr] at h; cases h; cases hok
  · refine ⟨e, _, hr, ?_⟩
    by_contra hout
    rw [step_writeWord_routed hr, writeWord_result_err _ _ _ (by omega)] at h
    cases h; cases hok

/-! ### Where the bytes of a word are routed -/

/-- No mode sends a device an address below the offset from its base. -/
theorem le_base_add_localAddr (mode : MuxAddrMode) {base addr : Addr} (h : base.toNat ≤ addr.toNat) :
    addr.toNat ≤ base.toNat + (localAddr mode base addr).toNat := by
  rw [localAddr_toNat mode h]
  cases mode with
  | raw => exact Nat.le_add_left _ _
  | offset => simp only; omega

/-- A word whose high byte has the base of another entry does not fit in the card below it. -/
theorem size_le_localAddr_succ (mode : MuxAddrMode) {map : List Entry} (hm : mapOk map) {e f : Entry}
    (he : e ∈ map) (hf : f ∈ map) {addr : Addr} (hle : e.base.toNat ≤ addr.toNat)
    (hb : f.base.toNat = addr.toNat + 1) :
    e.dev.size.toNat ≤ (localAddr mode e.base addr).toNat + 1 := by
  have hlimit : e.base.toNat + e.dev.size.toNat ≤ f.base.toNat := mapOk_limit_le hm he hf (by omega)
  have hlocal := le_base_add_localAddr mode hle
  omega

/-- The local addresses of two neighbouring global ones are neighbours. -/
theorem localAddr_succ (mode : MuxAddrMode) (base addr : Addr) :
    localAddr mode base (addr + 1) = localAddr mode base addr + 1 := by
  cases mode with
  | raw => rfl
  | offset => simp only [localAddr]; bv_omega

/-- When both bytes of a word lie in the routed card, its high byte's address is routed there too. -/
theorem route_succ {mode : MuxAddrMode} {map : List Entry} (hm : mapOk map) {addr a : Addr} {e : Entry}
    (hr : route mode map addr = some (e, a)) (hin : a.toNat + 1 < e.dev.size.toNat) :
    route mode map (addr + 1) = some (e, a + 1) := by
  obtain ⟨hnone, -⟩ | ⟨e', hr', he, hle, hmax⟩ := route_cases mode map addr
  · rw [hnone] at hr; cases hr
  rw [hr'] at hr; cases hr
  have hlimit : e.base.toNat + e.dev.size.toNat ≤ 0xFFFF := hm.1 e he
  have hlocal := le_base_add_localAddr mode hle
  have hsucc : (addr + 1).toNat = addr.toNat + 1 := BitVec.toNat_add_of_lt (by simp; omega)
  rw [← localAddr_succ]
  refine route_eq mode hm he (by omega) fun f hf hfle => hmax f hf ?_
  by_contra hgt
  have := size_le_localAddr_succ mode hm he hf hle (by omega)
  omega

/-- The two bytes at the addresses of a word that lies in the routed card are that card's. -/
theorem byteAt_of_route {s : State} (hm : mapOk s.map) {addr a : Addr} {e : Entry}
    (hr : route s.cfg.addrMode s.map addr = some (e, a)) (hin : a.toNat + 1 < e.dev.size.toNat) :
    s.byteAt addr = .ok (e.dev.byteAt a.toNat) ∧
      s.byteAt (addr + 1) = .ok (e.dev.byteAt (a.toNat + 1)) := by
  have hsize := e.dev.size.isLt
  have hsucc : (a + 1).toNat = a.toNat + 1 := BitVec.toNat_add_of_lt (by simp; omega)
  constructor
  · rw [State.byteAt, muxReadByte_some hr, readByte_ok (by omega)]
  · rw [State.byteAt, muxReadByte_some (route_succ hm hr hin), readByte_ok (by omega), hsucc]

/-- After a word write into the routed card the two bytes read as the word's halves. -/
theorem byteAt_after_writeWord {s t : State} (hs : s.Inv) {addr a : Addr} {e : Entry} {v : Word}
    (hr : route s.cfg.addrMode s.map addr = some (e, a)) (hin : a.toNat + 1 < e.dev.size.toNat)
    (h : step (s.asks (.writeWord addr v)) = .next t) :
    t.byteAt addr = .ok (lo8 v) ∧ t.byteAt (addr + 1) = .ok (hi8 v) := by
  have he : e ∈ s.map := mem_of_route hr
  have hsize := writeWord_size e.dev s.cfg.failEffect s.nextDraw a v
  obtain ⟨hlo, hhi⟩ := writeWord_halves (hs.cards e he) s.cfg.failEffect s.nextDraw v hin
  rw [step_writeWord_routed hr] at h
  cases h
  rw [← hlo, ← hhi, answer_byteAt, answer_byteAt, countDraw_byteAt, countDraw_byteAt]
  exact byteAt_of_route (e := { e with dev := (e.dev.writeWord s.cfg.failEffect s.nextDraw a v).1 })
    (mapOk_replaceAt hs.map he hsize) (by simp [route_replaceAt, hr]) (by rw [hsize]; exact hin)

/-- Settles O52: a word access succeeds only on a card that holds both bytes, and then the byte
accesses at `addr` and `addr + 1` reach the same card at neighbouring places. -/
theorem wordsAreLittleEndian : Obligations.WordsAreLittleEndian := by
  intro s addr hs
  constructor
  · intro w hread
    have hw : muxReadWord s.cfg.addrMode s.map addr = .ok w := by
      rw [step_readWord] at hread
      cases hm : muxReadWord s.cfg.addrMode s.map addr with
      | ok w' => rw [hm] at hread; cases hread; rfl
      | err x => rw [hm] at hread; cases hread
    obtain ⟨e, a, hr, hin, rfl⟩ := muxReadWord_ok hw
    obtain ⟨hlo, hhi⟩ := byteAt_of_route hs.map hr hin
    exact ⟨_, _, hlo, hhi, by rw [wordOfBytes_toNat]; omega⟩
  · intro w t hwrite hok
    obtain ⟨e, a, hr, hin⟩ := writeWord_unit hwrite hok
    obtain ⟨hlo, hhi⟩ := byteAt_after_writeWord hs hr hin hwrite
    exact ⟨_, _, hlo, hhi, lo8_toNat w, hi8_toNat w⟩

/-- Settles O53: the card the low byte is routed to ends at or before the next base, so its own check
rejects the word; a failing write touches at most that card. -/
theorem wordsNeverCrossDevices : Obligations.WordsNeverCrossDevices := by
  intro s addr f hs hf hb
  obtain ⟨hr, -⟩ | ⟨e, hr, he, hle, -⟩ := route_cases s.cfg.addrMode s.map addr
  · exact ⟨by rw [step_readWord, muxReadWord_none hr, Result.map],
      fun w => ⟨_, step_writeWord_unrouted hr w, rfl, hf⟩⟩
  · have hout := size_le_localAddr_succ s.cfg.addrMode hs.map he hf hle hb
    refine ⟨by rw [step_readWord, muxReadWord_some hr, readWord_err hout, Result.map],
      fun w => ⟨_, step_writeWord_routed hr w, ?_, ?_⟩⟩
    · rw [answer_reply, writeWord_result_err _ _ _ hout, Result.map]
    · have hne : f ≠ e := by rintro rfl; omega
      rw [answer_map, countDraw_map]
      exact (mem_replaceAt hs.map he).mpr (.inr ⟨hf, hne⟩)

end Sys2Proof.Machine
end

section
/-! The family of spec/30_encoding.md. Under a well-formed catalog every word matches exactly one format:
at most one by R42 (`countP_matches_le_one`) and at least one by counting (`exhaustive_iff`), so decode is
that format's (`decode_eq_of_matches`). The typed decoder of REF13 agrees with it (`decode_value`). -/

namespace Sys2Proof

/-! ### Which words a format matches (R42, R49) -/

/-- The `p` most-significant bits of a word are its quotient by `2 ^ (16 - p)`. -/
theorem field_top (w : Word) (p : Nat) (hp : p ≤ 16) :
    field w (16 - p) p = w.toNat / 2 ^ (16 - p) := by
  have hpow : 2 ^ (16 - p) * 2 ^ p = 65536 := by rw [← Nat.pow_add, Nat.sub_add_cancel hp]
  have hw : w.toNat < 2 ^ (16 - p) * 2 ^ p := hpow ▸ w.isLt
  exact Nat.mod_eq_of_lt (Nat.div_lt_of_lt_mul hw)

/-- What R39 and R41 say of a format's parts. -/
theorem layoutOk_iff {F : Format} :
    F.layoutOk = true ↔ F.pfxWidth + F.opWidth + F.operandBits = 16 ∧ F.pfx < 2 ^ F.pfxWidth := by
  simp [Format.layoutOk]

/-- A format matches the words whose most-significant bits are its `pfx`. -/
theorem matches_iff {F : Format} (hF : F.layoutOk = true) (w : Word) :
    F.matches w = true ↔ w.toNat / 2 ^ F.below = F.pfx := by
  obtain ⟨hsum, -⟩ := layoutOk_iff.mp hF
  rw [Format.matches, decide_eq_true_eq, Format.below, field_top w _ (by omega)]

/-- A word's bits from a higher position up are those from a lower position up without their own low bits. -/
theorem div_below_of_le (F G : Format) (hG : G.pfxWidth ≤ 16) (h : F.pfxWidth ≤ G.pfxWidth) (n : Nat) :
    n / 2 ^ G.below / 2 ^ (G.pfxWidth - F.pfxWidth) = n / 2 ^ F.below := by
  rw [Nat.div_div_eq_div_mul, ← Nat.pow_add]
  congr 2
  unfold Format.below
  omega

/-- No word matches two formats that `prefixFree` holds of (R42). -/
theorem not_matches_of_prefixFree {F G : Format} (hF : F.layoutOk = true) (hG : G.layoutOk = true)
    (hfree : F.prefixFree G = true) {w : Word} (hw : F.matches w = true) : G.matches w = false := by
  rw [Bool.eq_false_iff]
  intro hwG
  rw [matches_iff hF] at hw
  rw [matches_iff hG] at hwG
  obtain ⟨hsumF, -⟩ := layoutOk_iff.mp hF
  obtain ⟨hsumG, -⟩ := layoutOk_iff.mp hG
  unfold Format.prefixFree at hfree
  split at hfree
  · refine of_decide_eq_true hfree ?_
    rw [← hwG, div_below_of_le F G (by omega) ‹_›, hw]
  · refine of_decide_eq_true hfree ?_
    rw [← hw, div_below_of_le G F (by omega) (by omega), hwG]

/-- At most one format of a pairwise `prefixFree` list matches a word. -/
theorem countP_matches_le_one {cat : Catalog} (hl : cat.all Format.layoutOk = true)
    (hp : cat.pairwisePrefixFree = true) (w : Word) : cat.countP (·.matches w) ≤ 1 := by
  induction cat with
  | nil => simp
  | cons F rest ih =>
    simp only [List.all_cons, Bool.and_eq_true, Catalog.pairwisePrefixFree] at hl hp
    obtain ⟨hF, hrest⟩ := hl
    obtain ⟨hfree, hpair⟩ := hp
    rw [List.countP_cons]
    split
    · next hw =>
      have hnone : rest.countP (·.matches w) = 0 := List.countP_eq_zero.mpr fun G hG => by
        have := not_matches_of_prefixFree hF (List.all_eq_true.mp hrest G hG)
          (List.all_eq_true.mp hfree G hG) hw
        simp [this]
      omega
    · exact ih hrest hpair

/-! ### The sum check counts the matched words (R43) -/

/-- The words of a format are an interval of `2 ^ below` numbers. -/
theorem filter_matches_eq_Ico {F : Format} (hF : F.layoutOk = true) :
    (Finset.range 65536).filter (fun n => F.matches (BitVec.ofNat 16 n) = true) =
      Finset.Ico (F.pfx * 2 ^ F.below) (F.pfx * 2 ^ F.below + 2 ^ F.below) := by
  obtain ⟨hsum, hpfx⟩ := layoutOk_iff.mp hF
  have hpow : 2 ^ F.pfxWidth * 2 ^ F.below = 65536 := by
    rw [← Nat.pow_add, Format.below, Nat.add_sub_cancel' (by omega)]
  have htop : F.pfx * 2 ^ F.below + 2 ^ F.below ≤ 65536 := by
    rw [← hpow, ← Nat.succ_mul]
    exact Nat.mul_le_mul_right _ hpfx
  have hdiv (n : Nat) : n / 2 ^ F.below = F.pfx ↔
      F.pfx * 2 ^ F.below ≤ n ∧ n < F.pfx * 2 ^ F.below + 2 ^ F.below := by
    rw [Nat.div_eq_iff (Nat.two_pow_pos _)]
    have := Nat.two_pow_pos F.below
    omega
  ext n
  rw [Finset.mem_filter, Finset.mem_range, Finset.mem_Ico, matches_iff hF, BitVec.toNat_ofNat, ← hdiv]
  refine ⟨fun ⟨hn, h⟩ => by rwa [Nat.mod_eq_of_lt hn] at h, fun h => ?_⟩
  have hn : n < 65536 := ((hdiv n).mp h).2.trans_le htop
  exact ⟨hn, by rwa [Nat.mod_eq_of_lt hn]⟩

/-- Counting the matches of every word, format by format, gives the sum of R43. -/
theorem sum_countP_matches {cat : Catalog} (hl : cat.all Format.layoutOk = true) :
    ∑ n ∈ Finset.range 65536, cat.countP (·.matches (BitVec.ofNat 16 n)) =
      (cat.map fun F => 2 ^ F.below).sum := by
  induction cat with
  | nil => simp
  | cons F rest ih =>
    simp only [List.all_cons, Bool.and_eq_true] at hl
    obtain ⟨hF, hrest⟩ := hl
    simp only [List.countP_cons, Finset.sum_add_distrib, ih hrest, ← Finset.card_filter,
      filter_matches_eq_Ico hF, Nat.card_Ico, Nat.add_sub_cancel_left, List.map_cons, List.sum_cons]
    exact Nat.add_comm _ _

/-- The sum check of a pairwise `prefixFree` list holds exactly when every word matches some format: no
word is counted twice, so the sum is the number of matched words. -/
theorem exhaustive_iff {cat : Catalog} (hl : cat.all Format.layoutOk = true)
    (hp : cat.pairwisePrefixFree = true) :
    cat.exhaustive = true ↔ ∀ w : Word, ∃ F ∈ cat, F.matches w = true := by
  have hle (n : Nat) (_ : n ∈ Finset.range 65536) : cat.countP (·.matches (BitVec.ofNat 16 n)) ≤ 1 :=
    countP_matches_le_one hl hp _
  have hone (n : Nat) : cat.countP (·.matches (BitVec.ofNat 16 n)) = 1 ↔
      ∃ F ∈ cat, F.matches (BitVec.ofNat 16 n) = true := by
    have := countP_matches_le_one hl hp (BitVec.ofNat 16 n)
    rw [← List.countP_pos_iff]
    omega
  have hsum : cat.exhaustive = true ↔ ∑ n ∈ Finset.range 65536,
      cat.countP (·.matches (BitVec.ofNat 16 n)) = ∑ _n ∈ Finset.range 65536, 1 := by
    rw [Catalog.exhaustive, decide_eq_true_eq, sum_countP_matches hl]
    simp
  rw [hsum, Finset.sum_eq_sum_iff_of_le hle]
  refine ⟨fun h w => ?_, fun h n _ => (hone n).mpr (h _)⟩
  have := (hone w.toNat).mp (h w.toNat (Finset.mem_range.mpr w.isLt))
  rwa [BitVec.ofNat_toNat, BitVec.setWidth_eq] at this

/-! ### Decode under a well-formed catalog (R48, R62, R64) -/

/-- The checks of R40 to R46, by name. -/
theorem Catalog.wf_iff {cat : Catalog} : cat.wf = true ↔
    cat.length = 13 ∧ (cat.map Format.tag).Nodup ∧ cat.all Format.layoutOk = true ∧
      cat.pairwisePrefixFree = true ∧ cat.exhaustive = true ∧ cat.all Format.opsFit = true ∧
      cat.all Format.oneImm = true ∧ cat.zeroFormatOk = true := by
  simp only [Catalog.wf, Bool.and_eq_true, decide_eq_true_eq, and_assoc]

/-- Under a well-formed catalog every word matches some format (R43). -/
theorem exists_matches {cat : Catalog} (h : cat.wf = true) (w : Word) :
    ∃ F ∈ cat, F.matches w = true := by
  obtain ⟨-, -, hl, hp, hex, -⟩ := Catalog.wf_iff.mp h
  exact (exhaustive_iff hl hp).mp hex w

/-- Under a well-formed catalog a word's decode is that of the one format it matches (R62, R63). -/
theorem decode_eq_of_matches {cat : Catalog} (h : cat.wf = true) {F : Format} (hF : F ∈ cat) {w : Word}
    (hw : F.matches w = true) : cat.decode w = F.decode w := by
  obtain ⟨-, -, hl, hp, -⟩ := Catalog.wf_iff.mp h
  have hle : (cat.filter (·.matches w)).length ≤ 1 := by
    rw [← List.countP_eq_length_filter]
    exact countP_matches_le_one hl hp w
  have hmem : F ∈ cat.filter (·.matches w) := List.mem_filter.mpr ⟨hF, hw⟩
  obtain ⟨G, hG⟩ := List.length_eq_one_iff.mp (hle.antisymm (List.length_pos_of_mem hmem))
  rw [hG, List.mem_singleton] at hmem
  rw [Catalog.decode, hG, hmem]

/-- With a legal opcode a word decodes to the format's instruction with that opcode (R64, R65). -/
theorem Format.decode_legal {F : Format} (hF : F.layoutOk = true) {w : Word} (hop : F.opcode w ∈ F.ops) :
    F.decode w = (readFields w F.tag (F.opcode w) F.operandBits F.fields).map fun vals =>
      ⟨F.tag, F.opcode w, vals⟩ := by
  obtain ⟨hsum, -⟩ := layoutOk_iff.mp hF
  have hpos : F.below - F.opWidth = F.operandBits := by unfold Format.below; omega
  rw [Format.decode, if_pos (List.contains_iff_mem.mpr hop), hpos]

/-- With any other opcode it does not decode (R64). -/
theorem Format.decode_illegal {F : Format} {w : Word} (hop : F.opcode w ∉ F.ops) :
    F.decode w = .err (.decode (.unknownOpcode F.tag (F.opcode w))) :=
  if_neg fun h => hop (List.contains_iff_mem.mp h)

/-- Decode under a well-formed catalog never ends with `NoFormat` (R48). -/
theorem decode_ne_noFormat {cat : Catalog} (h : cat.wf = true) (w : Word) :
    cat.decode w ≠ .err (.decode .noFormat) := by
  obtain ⟨-, -, hl, -⟩ := Catalog.wf_iff.mp h
  obtain ⟨F, hF, hw⟩ := exists_matches h w
  rw [decode_eq_of_matches h hF hw]
  by_cases hop : F.opcode w ∈ F.ops
  · obtain ⟨vals, hread, -⟩ := readFields_spec w F.tag (F.opcode w) F.fields
    rw [Format.decode_legal (List.all_eq_true.mp hl F hF) hop, Format.operandBits, hread]
    exact nofun
  · rw [Format.decode_illegal hop]
    simp

/-! ### The zero word (R46) -/

theorem field_zero (lo n : Nat) : field 0 lo n = 0 := by simp [field]

/-- Operand fields of all zero bits read as the zero operands. -/
theorem readFields_zero (tag op pos : Nat) (ks : List FieldKind) :
    readFields 0 tag op pos ks = .ok (ks.map zeroOperand) := by
  induction ks generalizing pos with
  | nil => rfl
  | cons k ks ih =>
    have hk : k.operand 0 = some (zeroOperand k) := by cases k <;> rfl
    simp only [readFields, field_zero, hk, ih, Result.map, List.map_cons]

/-- Settles O8: R46 (a) and (b) are a check of well-formedness, the zero word matches that format, and
all its fields are 0. -/
theorem zeroWordDecodesToZeroInstruction : Obligations.ZeroWordDecodesToZeroInstruction := by
  intro cat h
  obtain ⟨-, -, hl, -, -, -, -, hzero⟩ := Catalog.wf_iff.mp h
  obtain ⟨F, hF, hz⟩ := List.any_eq_true.mp hzero
  simp only [Bool.and_eq_true, decide_eq_true_eq, List.contains_iff_mem, List.all_eq_true] at hz
  obtain ⟨⟨hpfx, hop⟩, hmax⟩ := hz
  have hw : F.matches 0 = true := by rw [Format.matches, field_zero, hpfx, decide_eq_true_eq]
  have hopcode : F.opcode 0 = 0 := field_zero _ _
  refine ⟨F, hF, hpfx, hop, hmax, ?_⟩
  rw [decode_eq_of_matches h hF hw, Format.decode_legal (List.all_eq_true.mp hl F hF) (by rwa [hopcode]),
    hopcode, readFields_zero, Result.map]

/-! ### The typed decoder of REF13 reads the fields of its formats -/

/-- Two maps over a result are one. -/
theorem Result.map_map {α β γ : Type} (f : α → β) (g : β → γ) (r : Result α) :
    (r.map f).map g = r.map (g ∘ f) := by cases r <;> rfl

section
variable {w : Word} {tag op lo : Nat} {ks : List FieldKind} {value : List Operand → Instruction}

/-- A typed read of an integer register is the catalog's read of an `IntReg` field. -/
theorem readInt_value {next : IntRegister → Result Instr}
    (h : ∀ r, (next r).map Instr.value =
      (readFields w tag op lo ks).map fun vals => value (.int r :: vals)) :
    (readInt w lo tag op next).map Instr.value =
      (readFields w tag op (lo + 3) (.intReg :: ks)).map value := by
  simp only [readInt, readFields, FieldKind.operand, FieldKind.width, Nat.add_sub_cancel]
  cases IntRegister.fromCode (BitVec.ofNat 8 (field w lo 3)) with
  | none => rfl
  | some r => rw [Option.map_some, Result.map_map]; exact h r

/-- A typed read of a ratio register is the catalog's read of a `RatioReg` field. -/
theorem readRatio_value {next : RatioRegister → Result Instr}
    (h : ∀ q, (next q).map Instr.value =
      (readFields w tag op lo ks).map fun vals => value (.ratio q :: vals)) :
    (readRatio w lo tag op next).map Instr.value =
      (readFields w tag op (lo + 2) (.ratioReg :: ks)).map value := by
  simp only [readRatio, readFields, FieldKind.operand, FieldKind.width, Nat.add_sub_cancel]
  cases RatioRegister.fromCode (BitVec.ofNat 8 (field w lo 2)) with
  | none => rfl
  | some q => rw [Option.map_some, Result.map_map]; exact h q

end

/-! ### The legal opcodes of the typed formats and their values (R70 to R82)

The opcode table of a format has a constructor for its first opcodes and for no others, and the values of
that constructor's instructions carry the opcode. -/

theorem opsF0_value (op : Nat) : (opsF0 op).map (fun build a b => (build a b).value) =
    if op < 3 then some (Machine.valueF0 op) else none :=
  match op with
  | 0 | 1 | 2 => rfl
  | _ + 3 => by simp [opsF0]

theorem opsF1_value (op : Nat) : (opsF1 op).map (fun build a b => (build a b).value) =
    if op < 5 then some (Machine.valueF1 op) else none :=
  match op with
  | 0 | 1 | 2 | 3 | 4 => rfl
  | _ + 5 => by simp [opsF1]

theorem opsF2_value (op : Nat) : (opsF2 op).map (fun build a => (build a).value) =
    if op < 6 then some (Machine.valueF2 op) else none :=
  match op with
  | 0 | 1 | 2 | 3 | 4 | 5 => rfl
  | _ + 6 => by simp [opsF2]

theorem opsF3_value (op : Nat) : (opsF3 op).map (fun build a b c => (build a b c).value) =
    if op < 10 then some (Machine.valueF3 op) else none :=
  match op with
  | 0 | 1 | 2 | 3 | 4 | 5 | 6 | 7 | 8 | 9 => rfl
  | _ + 10 => by simp [opsF3]

theorem opsF4_value (op : Nat) : (opsF4 op).map (fun build a b c => (build a b c).value) =
    if op < 8 then some (Machine.valueF4 op) else none :=
  match op with
  | 0 | 1 | 2 | 3 | 4 | 5 | 6 | 7 => rfl
  | _ + 8 => by simp [opsF4]

theorem opsF5_value (op : Nat) : (opsF5 op).map (fun build a b => (build a b).value) =
    if op < 12 then some (Machine.valueF5 op) else none :=
  match op with
  | 0 | 1 | 2 | 3 | 4 | 5 | 6 | 7 | 8 | 9 | 10 | 11 => rfl
  | _ + 12 => by simp [opsF5]

theorem opsF6_value (op : Nat) : (opsF6 op).map (fun build a b => (build a b).value) =
    if op < 4 then some (Machine.valueF6 op) else none :=
  match op with
  | 0 | 1 | 2 | 3 => rfl
  | _ + 4 => by simp [opsF6]

theorem opsF7_value (op : Nat) : (opsF7 op).map (fun build a b => (build a b).value) =
    if op < 4 then some (Machine.valueF7 op) else none :=
  match op with
  | 0 | 1 | 2 | 3 => rfl
  | _ + 4 => by simp [opsF7]

theorem opsF8_value (op : Nat) : (opsF8 op).map (fun build a b => (build a b).value) =
    if op < 6 then some (Machine.valueF8 op) else none :=
  match op with
  | 0 | 1 | 2 | 3 | 4 | 5 => rfl
  | _ + 6 => by simp [opsF8]

theorem opsF9_value (op : Nat) : (opsF9 op).map (fun build a => (build a).value) =
    if op < 8 then some (Machine.valueF9 op) else none :=
  match op with
  | 0 | 1 | 2 | 3 | 4 | 5 | 6 | 7 => rfl
  | _ + 8 => by simp [opsF9]

theorem opsF10_value (op : Nat) : (opsF10 op).map (fun build a => (build a).value) =
    if op < 4 then some (Machine.valueF10 op) else none :=
  match op with
  | 0 | 1 | 2 | 3 => rfl
  | _ + 4 => by simp [opsF10]

theorem opsF11_value (op : Nat) : (opsF11 op).map (fun build a b c => (build a b c).value) =
    if op < 2 then some (Machine.valueF11 op) else none :=
  match op with
  | 0 | 1 => rfl
  | _ + 2 => by simp [opsF11]

theorem opsF12_value (op : Nat) : (opsF12 op).map Instr.value =
    if op < 4 then some (Machine.valueF12 op) else none :=
  match op with
  | 0 | 1 | 2 | 3 => rfl
  | _ + 4 => by simp [opsF12]

/-! ### Each typed format decoder is its format's decode

The format is written out as its row of `ref13`. -/

/-- A typed decoder that answers `UnknownOpcode` when its table `o` has no constructor, and otherwise
reads the format's fields into the constructor's value, is the format's decode. -/
theorem typedDecode_value {β γ : Type} {F : Format} {w : Word} (op pos : Nat) {n : Nat} {o : Option β}
    {val : β → γ} {v : γ} {r : Result Instr} (hF : F.layoutOk = true) (hn : F.ops = List.range n)
    (hop : F.opcode w = op) (hpos : F.operandBits = pos)
    (hops : o.map val = if op < n then some v else none)
    (hnone : o = none → r = .err (.decode (.unknownOpcode F.tag op)))
    (hsome : ∀ build, o = some build → val build = v → r.map Instr.value =
      (readFields w F.tag op pos F.fields).map fun vals => ⟨F.tag, op, vals⟩) :
    r.map Instr.value = F.decode w := by
  subst hop hpos
  by_cases hlegal : F.opcode w < n
  · rw [if_pos hlegal, Option.map_eq_some_iff] at hops
    obtain ⟨build, ho, hval⟩ := hops
    rw [hsome build ho hval, F.decode_legal hF (by rwa [hn, List.mem_range])]
  · rw [if_neg hlegal, Option.map_eq_none_iff] at hops
    rw [hnone hops, F.decode_illegal (by rwa [hn, List.mem_range]), Result.map]

theorem decodeF0_value (w : Word) : (decodeF0 w).map Instr.value =
    Format.decode ⟨0, 0b000, 3, 2, List.range 3, [.intReg, .imm8]⟩ w :=
  typedDecode_value (field w 11 2) 11 rfl rfl rfl rfl (opsF0_value _) (fun ho => by rw [decodeF0, ho])
    fun build ho hbuild => by
      rw [decodeF0, ho]
      exact readInt_value fun a => congrArg Result.ok (congrFun₂ hbuild a _)

theorem decodeF1_value (w : Word) : (decodeF1 w).map Instr.value =
    Format.decode ⟨1, 0b001, 3, 3, List.range 5, [.ratioReg, .imm8]⟩ w :=
  typedDecode_value (field w 10 3) 10 rfl rfl rfl rfl (opsF1_value _) (fun ho => by rw [decodeF1, ho])
    fun build ho hbuild => by
      rw [decodeF1, ho]
      exact readRatio_value fun a => congrArg Result.ok (congrFun₂ hbuild a _)

theorem decodeF2_value (w : Word) : (decodeF2 w).map Instr.value =
    Format.decode ⟨2, 0b010, 3, 5, List.range 6, [.imm8]⟩ w :=
  typedDecode_value (field w 8 5) 8 rfl rfl rfl rfl (opsF2_value _) (fun ho => by rw [decodeF2, ho])
    fun build ho hbuild => by
      rw [decodeF2, ho]
      exact congrArg Result.ok (congrFun hbuild _)

theorem decodeF3_value (w : Word) : (decodeF3 w).map Instr.value =
    Format.decode ⟨3, 0b011, 3, 4, List.range 10, [.intReg, .intReg, .intReg]⟩ w :=
  typedDecode_value (field w 9 4) 9 rfl rfl rfl rfl (opsF3_value _) (fun ho => by rw [decodeF3, ho])
    fun build ho hbuild => by
      rw [decodeF3, ho]
      exact readInt_value fun a => readInt_value fun b => readInt_value fun c =>
        congrArg Result.ok (congrFun₃ hbuild a b c)

theorem decodeF4_value (w : Word) : (decodeF4 w).map Instr.value =
    Format.decode ⟨4, 0b100, 3, 7, List.range 8, [.ratioReg, .ratioReg, .ratioReg]⟩ w :=
  typedDecode_value (field w 6 7) 6 rfl rfl rfl rfl (opsF4_value _) (fun ho => by rw [decodeF4, ho])
    fun build ho hbuild => by
      rw [decodeF4, ho]
      exact readRatio_value fun a => readRatio_value fun b => readRatio_value fun c =>
        congrArg Result.ok (congrFun₃ hbuild a b c)

theorem decodeF5_value (w : Word) : (decodeF5 w).map Instr.value =
    Format.decode ⟨5, 0b101, 3, 7, List.range 12, [.intReg, .intReg]⟩ w :=
  typedDecode_value (field w 6 7) 6 rfl rfl rfl rfl (opsF5_value _) (fun ho => by rw [decodeF5, ho])
    fun build ho hbuild => by
      rw [decodeF5, ho]
      exact readInt_value fun a => readInt_value fun b => congrArg Result.ok (congrFun₂ hbuild a b)

theorem decodeF6_value (w : Word) : (decodeF6 w).map Instr.value =
    Format.decode ⟨6, 0b1100, 4, 7, List.range 4, [.intReg, .ratioReg]⟩ w :=
  typedDecode_value (field w 5 7) 5 rfl rfl rfl rfl (opsF6_value _) (fun ho => by rw [decodeF6, ho])
    fun build ho hbuild => by
      rw [decodeF6, ho]
      exact readInt_value fun a => readRatio_value fun b => congrArg Result.ok (congrFun₂ hbuild a b)

theorem decodeF7_value (w : Word) : (decodeF7 w).map Instr.value =
    Format.decode ⟨7, 0b1101, 4, 7, List.range 4, [.ratioReg, .intReg]⟩ w :=
  typedDecode_value (field w 5 7) 5 rfl rfl rfl rfl (opsF7_value _) (fun ho => by rw [decodeF7, ho])
    fun build ho hbuild => by
      rw [decodeF7, ho]
      exact readRatio_value fun a => readInt_value fun b => congrArg Result.ok (congrFun₂ hbuild a b)

theorem decodeF8_value (w : Word) : (decodeF8 w).map Instr.value =
    Format.decode ⟨8, 0b11100, 5, 7, List.range 6, [.ratioReg, .ratioReg]⟩ w :=
  typedDecode_value (field w 4 7) 4 rfl rfl rfl rfl (opsF8_value _) (fun ho => by rw [decodeF8, ho])
    fun build ho hbuild => by
      rw [decodeF8, ho]
      exact readRatio_value fun a => readRatio_value fun b => congrArg Result.ok (congrFun₂ hbuild a b)

theorem decodeF9_value (w : Word) : (decodeF9 w).map Instr.value =
    Format.decode ⟨9, 0b11101, 5, 8, List.range 8, [.intReg]⟩ w :=
  typedDecode_value (field w 3 8) 3 rfl rfl rfl rfl (opsF9_value _) (fun ho => by rw [decodeF9, ho])
    fun build ho hbuild => by
      rw [decodeF9, ho]
      exact readInt_value fun a => congrArg Result.ok (congrFun hbuild a)

theorem decodeF10_value (w : Word) : (decodeF10 w).map Instr.value =
    Format.decode ⟨10, 0b11110, 5, 9, List.range 4, [.ratioReg]⟩ w :=
  typedDecode_value (field w 2 9) 2 rfl rfl rfl rfl (opsF10_value _) (fun ho => by rw [decodeF10, ho])
    fun build ho hbuild => by
      rw [decodeF10, ho]
      exact readRatio_value fun a => congrArg Result.ok (congrFun hbuild a)

theorem decodeF11_value (w : Word) : (decodeF11 w).map Instr.value =
    Format.decode ⟨11, 0b111110, 6, 2, List.range 2, [.intReg, .intReg, .ratioReg]⟩ w :=
  typedDecode_value (field w 8 2) 8 rfl rfl rfl rfl (opsF11_value _) (fun ho => by rw [decodeF11, ho])
    fun build ho hbuild => by
      rw [decodeF11, ho]
      exact readInt_value fun a => readInt_value fun b => readRatio_value fun c =>
        congrArg Result.ok (congrFun₃ hbuild a b c)

theorem decodeF12_value (w : Word) : (decodeF12 w).map Instr.value =
    Format.decode ⟨12, 0b111111, 6, 10, List.range 4, []⟩ w :=
  typedDecode_value (field w 0 10) 0 rfl rfl rfl rfl (opsF12_value _) (fun ho => by rw [decodeF12, ho])
    fun build ho hbuild => by
      rw [decodeF12, ho]
      exact congrArg Result.ok hbuild

/-- REF13 meets the checks of R40 to R46 (R55). -/
theorem wf_ref13 : ref13.wf = true := by decide

/-- One test of the typed decoder: it sends the words of a format of REF13 to that format's decoder. -/
theorem ite_value_eq_decode {F : Format} {w : Word} {c : Prop} [Decidable c] {r t : Result Instr}
    (hr : r.map Instr.value = F.decode w) (hF : F ∈ ref13) (hc : c → F.matches w = true)
    (ht : ¬c → t.map Instr.value = ref13.decode w) :
    (if c then r else t).map Instr.value = ref13.decode w := by
  split
  · next h => rw [hr, decode_eq_of_matches wf_ref13 hF (hc h)]
  · next h => exact ht h

/-- The typed decoder and the decode driven by REF13 agree on every word. -/
theorem decode_value (w : Word) : (decode w).map Instr.value = ref13.decode w := by
  unfold decode
  refine ite_value_eq_decode (decodeF0_value w) (by decide) decide_eq_true fun h0 => ?_
  refine ite_value_eq_decode (decodeF1_value w) (by decide) decide_eq_true fun h1 => ?_
  refine ite_value_eq_decode (decodeF2_value w) (by decide) decide_eq_true fun h2 => ?_
  refine ite_value_eq_decode (decodeF3_value w) (by decide) decide_eq_true fun h3 => ?_
  refine ite_value_eq_decode (decodeF4_value w) (by decide) decide_eq_true fun h4 => ?_
  refine ite_value_eq_decode (decodeF5_value w) (by decide) decide_eq_true fun h5 => ?_
  refine ite_value_eq_decode (decodeF6_value w) (by decide) decide_eq_true fun h6 => ?_
  refine ite_value_eq_decode (decodeF7_value w) (by decide) decide_eq_true fun h7 => ?_
  refine ite_value_eq_decode (decodeF8_value w) (by decide) decide_eq_true fun h8 => ?_
  refine ite_value_eq_decode (decodeF9_value w) (by decide) decide_eq_true fun h9 => ?_
  refine ite_value_eq_decode (decodeF10_value w) (by decide) decide_eq_true fun h10 => ?_
  refine ite_value_eq_decode (decodeF11_value w) (by decide) decide_eq_true fun h11 => ?_
  refine ite_value_eq_decode (decodeF12_value w) (by decide) decide_eq_true fun h12 => ?_
  unfold field at *
  omega

/-- The typed decoder never takes its last branch (R48). -/
theorem typedDecode_ne_noFormat (w : Word) : decode w ≠ .err (.decode .noFormat) := by
  intro h
  have hv := decode_value w
  rw [h, Result.map] at hv
  exact decode_ne_noFormat wf_ref13 w hv.symm

end Sys2Proof

namespace Sys2Proof.Machine

/-! ### The host's codec operations and the check of the catalog (R48) -/

/-- Under a well-formed catalog the host gets exactly the catalog's decode, by the typed decoder under
REF13 and from the catalog under every other. -/
theorem hostDecode_wf {s : State} (h : s.cfg.catalog.wf = true) (w : Word) :
    hostDecode w s = .next (s.answer ((s.cfg.catalog.decode w).map .instruction)) := by
  by_cases hc : s.cfg.catalog = ref13
  · rw [hostDecode_ref13 hc (typedDecode_ne_noFormat w), decode_value, hc]
  · exact hostDecode_catalog h hc (decode_ne_noFormat h w)

theorem hostDecode_illFormed {s : State} (h : s.cfg.catalog.wf = false) (w : Word) :
    hostDecode w s = .refused .illFormedCatalog := by
  have hc : s.cfg.catalog ≠ ref13 := fun hc => by rw [hc, wf_ref13] at h; cases h
  rw [hostDecode, if_neg hc, h]
  rfl

theorem hostEncode_illFormed {s : State} (h : s.cfg.catalog.wf = false) (i : Instruction) :
    hostEncode i s = .refused .illFormedCatalog := by
  rw [hostEncode, h]
  rfl

theorem build_illFormed {cfg : Config} (h : cfg.catalog.wf = false) :
    State.build cfg = .refused .illFormedCatalog := by
  rw [State.build, h]
  rfl

/-- Settles O12: each entry to the block tests well-formedness, and the decode of a well-formed catalog
never falls through. -/
theorem illFormedCatalogIsRefused : Obligations.IllFormedCatalogIsRefused := by
  refine ⟨fun cfg => build_illFormed, fun s h => ⟨?decode, ?encode⟩,
    fun cfg h => ⟨{ State.reset with cfg := cfg }, if_pos h, rfl, rfl⟩, fun s h w => ⟨?host, ?total⟩⟩
  case decode => exact hostDecode_illFormed h
  case encode => exact hostEncode_illFormed h
  case host => exact hostDecode_wf h w
  case total => exact decode_ne_noFormat h w

end Sys2Proof.Machine
end

section
/-! The family of spec/40_register_codes.md. `from_code` gives a register exactly when the register's code
is the byte asked for (`fromCode_eq_some_iff`); its `None` and R61 follow from that. -/

namespace Sys2Proof

/-! ### `from_code` and `code` (R57 to R61) -/

theorem IntRegister.fromCode_eq_some_iff {x : Byte} {r : IntRegister} :
    IntRegister.fromCode x = some r ↔ r.code.toNat = x.toNat := by
  constructor
  · intro h
    unfold IntRegister.fromCode at h
    split at h <;> cases h <;> exact Eq.symm ‹_›
  · intro h
    have hr := IntRegister.fromCode_code r
    rwa [h, BitVec.ofNat_toNat, BitVec.setWidth_eq] at hr

theorem RatioRegister.fromCode_eq_some_iff {x : Byte} {q : RatioRegister} :
    RatioRegister.fromCode x = some q ↔ q.code.toNat = x.toNat := by
  constructor
  · intro h
    unfold RatioRegister.fromCode at h
    split at h <;> cases h <;> exact Eq.symm ‹_›
  · intro h
    have hq := RatioRegister.fromCode_code q
    rwa [h, BitVec.ofNat_toNat, BitVec.setWidth_eq] at hq

/-- No register's code reaches 8 (R58). -/
theorem IntRegister.fromCode_ge {x : Byte} (h : 8 ≤ x.toNat) : IntRegister.fromCode x = none := by
  refine Option.eq_none_iff_forall_ne_some.mpr fun r hr => ?_
  have hc := IntRegister.fromCode_eq_some_iff.mp hr
  have hlt := r.code_lt
  omega

/-- No register's code reaches 4 (R60). -/
theorem RatioRegister.fromCode_ge {x : Byte} (h : 4 ≤ x.toNat) : RatioRegister.fromCode x = none := by
  refine Option.eq_none_iff_forall_ne_some.mpr fun q hq => ?_
  have hc := RatioRegister.fromCode_eq_some_iff.mp hq
  have hlt := q.code_lt
  omega

end Sys2Proof

namespace Sys2Proof.Machine

/-! ### The host's register-code operations -/

theorem step_intCode (s : State) (r : IntRegister) :
    step (s.asks (.intCode r)) = .next (s.answer (.ok (.intCode r.code))) := rfl

theorem step_intFromCode (s : State) (x : Byte) :
    step (s.asks (.intFromCode x)) = .next (s.answer (.ok (.intRegister (IntRegister.fromCode x)))) := rfl

theorem step_ratioCode (s : State) (q : RatioRegister) :
    step (s.asks (.ratioCode q)) = .next (s.answer (.ok (.ratioCode q.code))) := rfl

theorem step_ratioFromCode (s : State) (x : Byte) :
    step (s.asks (.ratioFromCode x)) =
      .next (s.answer (.ok (.ratioRegister (RatioRegister.fromCode x)))) := rfl

/-- Settles O1: every code below 8 names a register, and no register has a code from 8 on. -/
theorem intRegisterFromCode : Obligations.IntRegisterFromCode := by
  refine fun s x => ⟨fun h => ?below, fun h => ?above⟩
  case below =>
    obtain ⟨r, hr, hc⟩ := IntRegister.fromCode_lt x h
    exact ⟨r, hc, by rw [step_intFromCode, hr]⟩
  case above => rw [step_intFromCode, IntRegister.fromCode_ge h]

/-- Settles O2: every code below 4 names a register, and no register has a code from 4 on. -/
theorem ratioRegisterFromCode : Obligations.RatioRegisterFromCode := by
  refine fun s x => ⟨fun h => ?below, fun h => ?above⟩
  case below =>
    obtain ⟨q, hq, hc⟩ := RatioRegister.fromCode_lt x h
    exact ⟨q, hc, by rw [step_ratioFromCode, hq]⟩
  case above => rw [step_ratioFromCode, RatioRegister.fromCode_ge h]

/-- Settles O3: the two lists of codes by evaluation, and both directions of R61 from
`fromCode_eq_some_iff`. -/
theorem registerCodesInvert : Obligations.RegisterCodesInvert := by
  refine ⟨step_intCode, step_ratioCode, by decide, by decide, fun r => ?int, fun q => ?ratio,
    fun _ _ => IntRegister.fromCode_eq_some_iff.mp, fun _ _ => RatioRegister.fromCode_eq_some_iff.mp⟩
  case int =>
    rw [IntRegister.fromCode_eq_some_iff, BitVec.toNat_setWidth_of_le (by decide)]
  case ratio =>
    rw [RatioRegister.fromCode_eq_some_iff, BitVec.toNat_setWidth_of_le (by decide)]

end Sys2Proof.Machine
end

section
/-! The family of spec/41_codec.md. Encode writes `pfx`, opcode and operands where decode reads them, under
any well-formed catalog (`Catalog.decode_encode`). The statements of REF13's formats follow from the decode
of a row of the catalog (`step_decode_row`) and the reads of its operand fields. -/

namespace Sys2Proof

/-! ### Reading operand fields (R65) -/

/-- Reading gives the first field's operand and, from below it, the others' (R65). -/
theorem readFields_cons_iff {w : Word} {tag op pos : Nat} {k : FieldKind} {ks : List FieldKind}
    {vals : List Operand} : readFields w tag op pos (k :: ks) = .ok vals ↔
      ∃ x xs, k.operand (field w (pos - k.width) k.width) = some x ∧
        readFields w tag op (pos - k.width) ks = .ok xs ∧ vals = x :: xs := by
  rw [readFields]
  cases k.operand (field w (pos - k.width) k.width) with
  | none => simp
  | some x => cases readFields w tag op (pos - k.width) ks <;> simp [Result.map, eq_comm]

theorem readFields_length {w : Word} {tag op pos : Nat} {ks : List FieldKind} {vals : List Operand}
    (h : readFields w tag op pos ks = .ok vals) : vals.length = ks.length := by
  induction ks generalizing pos vals with
  | nil => cases h; rfl
  | cons k ks ih =>
    obtain ⟨x, xs, -, hxs, rfl⟩ := readFields_cons_iff.mp h
    rw [List.length_cons, List.length_cons, ih hxs]

/-- The operand at place `j` is read from the field that ends below the first `j + 1` fields. -/
theorem readFields_getElem? {w : Word} {tag op pos : Nat} {ks : List FieldKind} {vals : List Operand}
    (h : readFields w tag op pos ks = .ok vals) {j : Nat} {k : FieldKind} {x : Operand}
    (hk : ks[j]? = some k) (hx : vals[j]? = some x) :
    k.operand (field w (pos - ((ks.take (j + 1)).map FieldKind.width).sum) k.width) = some x := by
  induction ks generalizing pos vals j with
  | nil => cases hk
  | cons l ks ih =>
    obtain ⟨y, ys, hy, hys, rfl⟩ := readFields_cons_iff.mp h
    cases j with
    | zero => cases hk; cases hx; simpa using hy
    | succ j =>
      rw [List.take_succ_cons, List.map_cons, List.sum_cons, ← Nat.sub_sub]
      exact ih hys hk hx

/-- A field is read above the fields that are read from below it (R65). -/
theorem readFields_cons {w : Word} {lo tag op : Nat} {k : FieldKind} {ks : List FieldKind} {x : Operand}
    {vals : List Operand} (hx : k.operand (field w lo k.width) = some x)
    (h : readFields w tag op lo ks = .ok vals) :
    readFields w tag op (lo + k.width) (k :: ks) = .ok (x :: vals) :=
  readFields_cons_iff.mpr
    ⟨x, vals, by rwa [Nat.add_sub_cancel], by rwa [Nat.add_sub_cancel], rfl⟩

section
variable (w : Word) (lo : Nat)

/-- An `IntReg` field reads as the register whose code it holds (R51). -/
theorem readFields_int : ∃ r : IntRegister, r.code.toNat = field w lo 3 ∧
    ∀ {tag op : Nat} {ks : List FieldKind} {vals : List Operand}, readFields w tag op lo ks = .ok vals →
      readFields w tag op (lo + 3) (.intReg :: ks) = .ok (.int r :: vals) := by
  obtain ⟨x, hx, hkind, hbits⟩ := operand_of_lt .intReg _ (field_lt w lo 3)
  cases x with
  | int r => exact ⟨r, hbits, readFields_cons hx⟩
  | ratio | imm => cases hkind

/-- A `RatioReg` field reads as the register whose code it holds (R51). -/
theorem readFields_ratio : ∃ q : RatioRegister, q.code.toNat = field w lo 2 ∧
    ∀ {tag op : Nat} {ks : List FieldKind} {vals : List Operand}, readFields w tag op lo ks = .ok vals →
      readFields w tag op (lo + 2) (.ratioReg :: ks) = .ok (.ratio q :: vals) := by
  obtain ⟨x, hx, hkind, hbits⟩ := operand_of_lt .ratioReg _ (field_lt w lo 2)
  cases x with
  | ratio q => exact ⟨q, hbits, readFields_cons hx⟩
  | int | imm => cases hkind

/-- An `Imm8` field reads as its sign-extended bits (R52). -/
theorem readFields_imm : ∃ m : Int,
    m = (if field w lo 8 < 128 then (field w lo 8 : Int) else (field w lo 8 : Int) - 256) ∧
    ∀ {tag op : Nat} {ks : List FieldKind} {vals : List Operand}, readFields w tag op lo ks = .ok vals →
      readFields w tag op (lo + 8) (.imm8 :: ks) = .ok (.imm m :: vals) :=
  ⟨readImm w lo, readImm_eq w lo, readFields_cons (k := .imm8) rfl⟩

end

/-! ### Decode with a legal opcode (R64) -/

/-- With a legal opcode decode always gives an instruction: no operand field fails (R51). -/
theorem Format.decode_legal_ok {F : Format} (hF : F.layoutOk = true) {w : Word} (hop : F.opcode w ∈ F.ops) :
    ∃ vals, F.decode w = .ok ⟨F.tag, F.opcode w, vals⟩ := by
  obtain ⟨vals, hread, -⟩ := readFields_spec w F.tag (F.opcode w) F.fields
  exact ⟨vals, by rw [Format.decode_legal hF hop, Format.operandBits, hread, Result.map]⟩

/-- What decodes to an instruction has its operands read from directly below the opcode (R65). -/
theorem Format.readFields_of_decode {F : Format} {w : Word} {i : Instruction} (h : F.decode w = .ok i) :
    readFields w F.tag (F.opcode w) (F.below - F.opWidth) F.fields = .ok i.vals := by
  unfold Format.decode at h
  split at h
  · cases hread : readFields w F.tag (F.opcode w) (F.below - F.opWidth) F.fields with
    | ok vals => rw [hread] at h; cases h; rfl
    | err e => rw [hread] at h; cases h
  · cases h

/-- Every format of a well-formed catalog has its layout right (R39, R41). -/
theorem layoutOk_of_mem {cat : Catalog} (h : cat.wf = true) {F : Format} (hF : F ∈ cat) :
    F.layoutOk = true := by
  obtain ⟨-, -, hl, -⟩ := Catalog.wf_iff.mp h
  exact List.all_eq_true.mp hl F hF

/-- Every legal opcode of a well-formed catalog fits its field (R44). -/
theorem op_lt_of_mem {cat : Catalog} (h : cat.wf = true) {F : Format} (hF : F ∈ cat) {op : Nat}
    (hop : op ∈ F.ops) : op < 2 ^ F.opWidth := by
  obtain ⟨-, -, -, -, -, hfit, -⟩ := Catalog.wf_iff.mp h
  exact of_decide_eq_true (List.all_eq_true.mp (List.all_eq_true.mp hfit F hF) op hop)

/-- Settles O6: the matched format decides, and reads no operand before it has tested the opcode. -/
theorem opcodeIsCheckedBeforeOperands : Obligations.OpcodeIsCheckedBeforeOperands := by
  intro cat h w F hF hpfx
  rw [decode_eq_of_matches h hF (decide_eq_true hpfx)]
  exact ⟨Format.decode_legal_ok (layoutOk_of_mem h hF), Format.decode_illegal⟩

/-- The last operand field of a format whose widths fill the word ends at bit 0 (R41). -/
theorem fieldLow_last {F : Format} (hF : F.layoutOk = true) {j : Nat} (hj : j + 1 = F.fields.length) :
    fieldLow F j = 0 := by
  obtain ⟨hsum, -⟩ := layoutOk_iff.mp hF
  unfold Format.operandBits at hsum
  rw [fieldLow, List.take_of_length_le hj.ge]
  omega

/-- Settles O7: `readFields` takes the fields in order, and the layout puts the last one at bit 0. -/
theorem operandFieldsAreReadInOrder : Obligations.OperandFieldsAreReadInOrder := by
  intro cat h w i F hF hw hi
  rw [decode_eq_of_matches h hF hw] at hi
  have hread := Format.readFields_of_decode hi
  refine ⟨readFields_length hread, fun j => fieldLow_last (layoutOk_of_mem h hF), fun j k x hk hx => ?_⟩
  have hop : k.operand (field w (fieldLow F j) k.width) = some x := readFields_getElem? hread hk hx
  cases k with
  | intReg =>
    obtain ⟨r, hr, rfl⟩ := Option.map_eq_some_iff.mp hop
    exact ⟨r, hr, rfl⟩
  | ratioReg =>
    obtain ⟨q, hq, rfl⟩ := Option.map_eq_some_iff.mp hop
    exact ⟨q, hq, rfl⟩
  | imm8 =>
    have hx : Operand.imm (readImm w (fieldLow F j)) = x := Option.some.inj hop
    rw [← hx, readImm_eq]

/-! ### Decode of encode (R67, R68) -/

/-- What it is to be an instruction of a format (R12), by name. -/
theorem Format.admits_iff {F : Format} {i : Instruction} : F.admits i = true ↔
    i.tag = F.tag ∧ i.op ∈ F.ops ∧ admitsAll F.fields i.vals = true := by
  simp only [Format.admits, Bool.and_eq_true, decide_eq_true_eq, List.contains_iff_mem, and_assoc]

/-- A word of `pfx`, opcode and operand bits, as a number, matches the format and carries that opcode. -/
theorem matches_and_opcode_of_toNat {F : Format} (hF : F.layoutOk = true) {op r : Nat}
    (hop : op < 2 ^ F.opWidth) (hr : r < 2 ^ F.operandBits) {w : Word}
    (hw : w.toNat = (F.pfx * 2 ^ F.opWidth + op) * 2 ^ F.operandBits + r) :
    F.matches w = true ∧ F.opcode w = op := by
  obtain ⟨hsum, -⟩ := layoutOk_iff.mp hF
  have hbelow : F.below = F.operandBits + F.opWidth := by unfold Format.below; omega
  have htop : w.toNat / 2 ^ F.operandBits = F.pfx * 2 ^ F.opWidth + op := by
    rw [hw, Nat.mul_comm, Nat.mul_add_div (Nat.two_pow_pos _), Nat.div_eq_of_lt hr, Nat.add_zero]
  constructor
  · rw [matches_iff hF, hbelow, Nat.pow_add, ← Nat.div_div_eq_div_mul, htop, Nat.mul_comm,
      Nat.mul_add_div (Nat.two_pow_pos _), Nat.div_eq_of_lt hop, Nat.add_zero]
  · rw [Format.opcode, hbelow, Nat.add_sub_cancel, field, htop, Nat.mul_comm, Nat.mul_add_mod,
      Nat.mod_eq_of_lt hop]

/-- The `pfx`, opcode and operand bits fit in a word (R41). -/
theorem word_parts_lt {F : Format} (hF : F.layoutOk = true) {op r : Nat}
    (hop : op < 2 ^ F.opWidth) (hr : r < 2 ^ F.operandBits) :
    (F.pfx * 2 ^ F.opWidth + op) * 2 ^ F.operandBits + r < 2 ^ 16 := by
  obtain ⟨hsum, hpfx⟩ := layoutOk_iff.mp hF
  have htop : F.pfx * 2 ^ F.opWidth + op < 2 ^ (F.pfxWidth + F.opWidth) := by
    rw [Nat.pow_add, Nat.mul_comm F.pfx]
    exact Nat.mul_add_lt_mul_of_lt_of_lt hpfx hop
  rw [← hsum, Nat.pow_add, Nat.mul_comm]
  exact Nat.mul_add_lt_mul_of_lt_of_lt htop hr

/-- A format decodes the word it encodes one of its instructions to, and the word matches it (R68). -/
theorem Format.decode_encode {F : Format} (hF : F.layoutOk = true) {i : Instruction}
    (hop : i.op < 2 ^ F.opWidth) (hi : F.admits i = true) :
    F.matches (F.encode i) = true ∧ F.decode (F.encode i) = .ok i := by
  obtain ⟨htag, hlegal, hvals⟩ := Format.admits_iff.mp hi
  obtain ⟨r, hr, happ, hread⟩ := appendFields_spec F.tag i.op F.fields i.vals hvals
  have hw : (F.encode i).toNat = (F.pfx * 2 ^ F.opWidth + i.op) * 2 ^ F.operandBits + r := by
    rw [Format.encode, happ, Nat.mod_eq_of_lt hop, BitVec.toNat_ofNat]
    exact Nat.mod_eq_of_lt (word_parts_lt hF hop hr)
  obtain ⟨hmatch, hopcode⟩ := matches_and_opcode_of_toNat hF hop hr hw
  have hlow : (F.encode i).toNat % 2 ^ F.operandBits = r := by
    rw [hw, Nat.mul_comm, Nat.mul_add_mod]
    exact Nat.mod_eq_of_lt hr
  refine ⟨hmatch, ?_⟩
  rw [Format.decode_legal hF (by rwa [hopcode]), hopcode, Format.operandBits, hread _ hlow, Result.map,
    ← htag]

/-- Under a well-formed catalog a format's word decodes to the instruction it was encoded from (R68). -/
theorem Catalog.decode_encode {cat : Catalog} (h : cat.wf = true) {F : Format} (hF : F ∈ cat)
    {i : Instruction} (hi : F.admits i = true) : cat.decode (F.encode i) = .ok i := by
  obtain ⟨-, hlegal, -⟩ := Format.admits_iff.mp hi
  obtain ⟨hmatch, hdecode⟩ :=
    Format.decode_encode (layoutOk_of_mem h hF) (op_lt_of_mem h hF hlegal) hi
  rw [decode_eq_of_matches h hF hmatch, hdecode]

/-- A catalog encodes each of its instructions by a format of its own that admits it (R67). -/
theorem Catalog.encode_of_admits {cat : Catalog} {i : Instruction} (hi : cat.admits i = true) :
    ∃ F ∈ cat, F.admits i = true ∧ cat.encode i = some (F.encode i) := by
  obtain ⟨F, hfind⟩ := Option.isSome_iff_exists.mp (List.find?_isSome.mpr (List.any_eq_true.mp hi))
  exact ⟨F, List.mem_of_find?_eq_some hfind, List.find?_some (p := (Format.admits · i)) hfind,
    by rw [Catalog.encode, hfind]⟩

/-- Settles O9: the format that encodes the instruction decodes its word, and the host's encode is the
catalog's. -/
theorem decodeOfEncodeForEveryCatalog : Obligations.DecodeOfEncodeForEveryCatalog := by
  intro cat h i hi
  obtain ⟨F, hF, hadm, henc⟩ := Catalog.encode_of_admits hi
  refine ⟨F.encode i, henc, Catalog.decode_encode h hF hadm, fun s hs => ?_⟩
  subst hs
  exact hostEncode_some h henc

/-! ### The order of the formats (R63) -/

/-- `prefixFree` is symmetric (R42). -/
theorem Format.prefixFree_comm (F G : Format) : F.prefixFree G = G.prefixFree F := by
  unfold Format.prefixFree
  rcases Nat.lt_trichotomy F.pfxWidth G.pfxWidth with hlt | heq | hgt
  · rw [if_pos hlt.le, if_neg (by omega)]
  · simp [heq, eq_comm]
  · rw [if_neg (by omega), if_pos hgt.le]

theorem pairwisePrefixFree_iff {cat : Catalog} : cat.pairwisePrefixFree = true ↔
    cat.Pairwise fun F G => F.prefixFree G = true := by
  induction cat with
  | nil => simp [Catalog.pairwisePrefixFree]
  | cons F rest ih =>
    rw [Catalog.pairwisePrefixFree, Bool.and_eq_true, List.all_eq_true, ih, List.pairwise_cons]

/-- Reordering the formats of a catalog leaves every check of R40 to R46 as it is. -/
theorem Catalog.wf_of_perm {cat cat' : Catalog} (hp : cat.Perm cat') (h : cat.wf = true) :
    cat'.wf = true := by
  obtain ⟨hlen, htags, hlayout, hfree, hsum, hops, himm, hzero⟩ := Catalog.wf_iff.mp h
  have hall {p : Format → Bool} (ha : cat.all p = true) : cat'.all p = true :=
    List.all_eq_true.mpr fun F hF => List.all_eq_true.mp ha F (hp.mem_iff.mpr hF)
  refine Catalog.wf_iff.mpr ⟨hp.length_eq ▸ hlen, (hp.map _).nodup_iff.mp htags, hall hlayout, ?free,
    ?sum, hall hops, hall himm, ?zero⟩
  case free =>
    rw [pairwisePrefixFree_iff] at hfree ⊢
    exact hp.pairwise hfree fun hFG => by rwa [Format.prefixFree_comm]
  case sum =>
    rw [Catalog.exhaustive, decide_eq_true_eq] at hsum ⊢
    rw [← hsum, (hp.map _).sum_eq]
  case zero =>
    obtain ⟨F, hF, hz⟩ := List.any_eq_true.mp hzero
    rw [Bool.and_eq_true] at hz
    obtain ⟨hpfx, hmax⟩ := hz
    exact List.any_eq_true.mpr ⟨F, hp.mem_iff.mp hF, by rw [hpfx, hall hmax]; rfl⟩

/-- Settles O11: the format a word matches is the same in both orders. -/
theorem formatOrderDoesNotMatter : Obligations.FormatOrderDoesNotMatter := by
  intro cat cat' h hp w
  have h' := Catalog.wf_of_perm hp h
  obtain ⟨F, hF, hw⟩ := exists_matches h w
  refine ⟨h', ?_⟩
  rw [decode_eq_of_matches h hF hw, decode_eq_of_matches h' (hp.mem_iff.mp hF) hw]

/-! ### Decode of encode for the typed instructions (R68) -/

/-- Appending an operand below the number of a bit string gives the number of the string with the operand's
bits `y` appended (R37, R67). -/
theorem appendFields_cons {n : Nat} (x : BitVec n) {k : FieldKind} {v : Operand} (y : BitVec k.width)
    (hv : v.bits = y.toNat) (ks : List FieldKind) (vals : List Operand) :
    appendFields x.toNat (k :: ks) (v :: vals) = appendFields (x ++ y).toNat ks vals := by
  rw [appendFields, append_toNat, hv, Nat.mod_eq_of_lt y.isLt]

section
variable {n : Nat} {x : BitVec n} {ks : List FieldKind} {vals : List Operand}

theorem appendFields_int (r : IntRegister) : appendFields x.toNat (.intReg :: ks) (.int r :: vals) =
    appendFields (x ++ r.code).toNat ks vals := appendFields_cons (k := .intReg) x r.code rfl ks vals

theorem appendFields_ratio (q : RatioRegister) : appendFields x.toNat (.ratioReg :: ks) (.ratio q :: vals) =
    appendFields (x ++ q.code).toNat ks vals := appendFields_cons (k := .ratioReg) x q.code rfl ks vals

theorem appendFields_imm (m : Int) : appendFields x.toNat (.imm8 :: ks) (.imm m :: vals) =
    appendFields (x ++ immBits m).toNat ks vals := appendFields_cons (k := .imm8) x (immBits m) rfl ks vals

end

/-- A last `Imm8` field holds any `i8` (R12, R52). -/
theorem admitsAll_imm {m : Int} (hm : immInRange m = true) : admitsAll [.imm8] [.imm m] = true := by
  rw [admitsAll, FieldKind.admits, hm]
  rfl

/-- A word that is the `pfx`, opcode and operands of a row of REF13, appended in order, decodes to that
row's instruction. -/
theorem ref13_decode_appended {F : Format} (hF : F ∈ ref13) {op : BitVec F.opWidth} {vals : List Operand}
    {w : Word} (hop : op.toNat ∈ F.ops) (hvals : admitsAll F.fields vals = true)
    (hw : appendFields (BitVec.ofNat F.pfxWidth F.pfx ++ op).toNat F.fields vals = w.toNat) :
    ref13.decode w = .ok ⟨F.tag, op.toNat, vals⟩ := by
  obtain ⟨-, hpfx⟩ := layoutOk_iff.mp (layoutOk_of_mem wf_ref13 hF)
  have henc : F.encode ⟨F.tag, op.toNat, vals⟩ = w := by
    rw [append_toNat, BitVec.toNat_ofNat, Nat.mod_eq_of_lt hpfx] at hw
    rw [Format.encode, Nat.mod_eq_of_lt op.isLt, hw, BitVec.ofNat_toNat, BitVec.setWidth_eq]
  rw [← henc]
  exact Catalog.decode_encode wf_ref13 hF (Format.admits_iff.mpr ⟨rfl, hop, hvals⟩)

theorem ref13_decode_wordF0 {op : BitVec 2} (a : IntRegister) {m : Int}
    (hop : op.toNat ∈ List.range 3) (hm : immInRange m = true) :
    ref13.decode (wordF0 op a m) = .ok (Machine.valueF0 op.toNat a m) :=
  ref13_decode_appended (F := ref13[0]) (List.getElem_mem _) hop (admitsAll_imm hm)
    ((appendFields_int a).trans (appendFields_imm m))

theorem ref13_decode_wordF1 {op : BitVec 3} (q : RatioRegister) {m : Int}
    (hop : op.toNat ∈ List.range 5) (hm : immInRange m = true) :
    ref13.decode (wordF1 op q m) = .ok (Machine.valueF1 op.toNat q m) :=
  ref13_decode_appended (F := ref13[1]) (List.getElem_mem _) hop (admitsAll_imm hm)
    ((appendFields_ratio q).trans (appendFields_imm m))

theorem ref13_decode_wordF2 {op : BitVec 5} {m : Int}
    (hop : op.toNat ∈ List.range 6) (hm : immInRange m = true) :
    ref13.decode (wordF2 op m) = .ok (Machine.valueF2 op.toNat m) :=
  ref13_decode_appended (F := ref13[2]) (List.getElem_mem _) hop (admitsAll_imm hm)
    (appendFields_imm m)

theorem ref13_decode_wordF3 {op : BitVec 4} (a b c : IntRegister) (hop : op.toNat ∈ List.range 10) :
    ref13.decode (wordF3 op a b c) = .ok (Machine.valueF3 op.toNat a b c) :=
  ref13_decode_appended (F := ref13[3]) (List.getElem_mem _) hop rfl
    ((appendFields_int a).trans <| (appendFields_int b).trans (appendFields_int c))

theorem ref13_decode_wordF4 {op : BitVec 7} (q r u : RatioRegister) (hop : op.toNat ∈ List.range 8) :
    ref13.decode (wordF4 op q r u) = .ok (Machine.valueF4 op.toNat q r u) :=
  ref13_decode_appended (F := ref13[4]) (List.getElem_mem _) hop rfl
    ((appendFields_ratio q).trans <| (appendFields_ratio r).trans (appendFields_ratio u))

theorem ref13_decode_wordF5 {op : BitVec 7} (a b : IntRegister) (hop : op.toNat ∈ List.range 12) :
    ref13.decode (wordF5 op a b) = .ok (Machine.valueF5 op.toNat a b) :=
  ref13_decode_appended (F := ref13[5]) (List.getElem_mem _) hop rfl
    ((appendFields_int a).trans (appendFields_int b))

theorem ref13_decode_wordF6 {op : BitVec 7} (a : IntRegister) (q : RatioRegister)
    (hop : op.toNat ∈ List.range 4) :
    ref13.decode (wordF6 op a q) = .ok (Machine.valueF6 op.toNat a q) :=
  ref13_decode_appended (F := ref13[6]) (List.getElem_mem _) hop rfl
    ((appendFields_int a).trans (appendFields_ratio q))

theorem ref13_decode_wordF7 {op : BitVec 7} (q : RatioRegister) (a : IntRegister)
    (hop : op.toNat ∈ List.range 4) :
    ref13.decode (wordF7 op q a) = .ok (Machine.valueF7 op.toNat q a) :=
  ref13_decode_appended (F := ref13[7]) (List.getElem_mem _) hop rfl
    ((appendFields_ratio q).trans (appendFields_int a))

theorem ref13_decode_wordF8 {op : BitVec 7} (q r : RatioRegister) (hop : op.toNat ∈ List.range 6) :
    ref13.decode (wordF8 op q r) = .ok (Machine.valueF8 op.toNat q r) :=
  ref13_decode_appended (F := ref13[8]) (List.getElem_mem _) hop rfl
    ((appendFields_ratio q).trans (appendFields_ratio r))

theorem ref13_decode_wordF9 {op : BitVec 8} (a : IntRegister) (hop : op.toNat ∈ List.range 8) :
    ref13.decode (wordF9 op a) = .ok (Machine.valueF9 op.toNat a) :=
  ref13_decode_appended (F := ref13[9]) (List.getElem_mem _) hop rfl (appendFields_int a)

theorem ref13_decode_wordF10 {op : BitVec 9} (q : RatioRegister) (hop : op.toNat ∈ List.range 4) :
    ref13.decode (wordF10 op q) = .ok (Machine.valueF10 op.toNat q) :=
  ref13_decode_appended (F := ref13[10]) (List.getElem_mem _) hop rfl (appendFields_ratio q)

theorem ref13_decode_wordF11 {op : BitVec 2} (a b : IntRegister) (q : RatioRegister)
    (hop : op.toNat ∈ List.range 2) :
    ref13.decode (wordF11 op a b q) = .ok (Machine.valueF11 op.toNat a b q) :=
  ref13_decode_appended (F := ref13[11]) (List.getElem_mem _) hop rfl
    ((appendFields_int a).trans <| (appendFields_int b).trans (appendFields_ratio q))

theorem ref13_decode_wordF12 {op : BitVec 10} (hop : op.toNat ∈ List.range 4) :
    ref13.decode (wordF12 op) = .ok (Machine.valueF12 op.toNat) :=
  ref13_decode_appended (F := ref13[12]) (List.getElem_mem _) hop rfl rfl

/-- The decode driven by REF13 gives back the value of every well-formed typed instruction. -/
theorem ref13_decode_encode {i : Instr} (h : i.wf = true) : ref13.decode (encode i) = .ok i.value := by
  cases i with
  | f0op0 a m | f0op1 a m | f0op2 a m =>
    exact ref13_decode_wordF0 a (by decide) h
  | f1op0 q m | f1op1 q m | f1op2 q m | f1op3 q m | f1op4 q m =>
    exact ref13_decode_wordF1 q (by decide) h
  | f2op0 m | f2op1 m | f2op2 m | f2op3 m | f2op4 m | f2op5 m =>
    exact ref13_decode_wordF2 (by decide) h
  | f3op0 a b c | f3op1 a b c | f3op2 a b c | f3op3 a b c | f3op4 a b c | f3op5 a b c
  | f3op6 a b c | f3op7 a b c | f3op8 a b c | f3op9 a b c =>
    exact ref13_decode_wordF3 a b c (by decide)
  | f4op0 q r u | f4op1 q r u | f4op2 q r u | f4op3 q r u | f4op4 q r u | f4op5 q r u
  | f4op6 q r u | f4op7 q r u =>
    exact ref13_decode_wordF4 q r u (by decide)
  | f5op0 a b | f5op1 a b | f5op2 a b | f5op3 a b | f5op4 a b | f5op5 a b | f5op6 a b
  | f5op7 a b | f5op8 a b | f5op9 a b | f5op10 a b | f5op11 a b =>
    exact ref13_decode_wordF5 a b (by decide)
  | f6op0 a q | f6op1 a q | f6op2 a q | f6op3 a q =>
    exact ref13_decode_wordF6 a q (by decide)
  | f7op0 q a | f7op1 q a | f7op2 q a | f7op3 q a =>
    exact ref13_decode_wordF7 q a (by decide)
  | f8op0 q r | f8op1 q r | f8op2 q r | f8op3 q r | f8op4 q r | f8op5 q r =>
    exact ref13_decode_wordF8 q r (by decide)
  | f9op0 a | f9op1 a | f9op2 a | f9op3 a | f9op4 a | f9op5 a | f9op6 a | f9op7 a =>
    exact ref13_decode_wordF9 a (by decide)
  | f10op0 q | f10op1 q | f10op2 q | f10op3 q =>
    exact ref13_decode_wordF10 q (by decide)
  | f11op0 a b q | f11op1 a b q =>
    exact ref13_decode_wordF11 a b q (by decide)
  | f12op0 | f12op1 | f12op2 | f12op3 =>
    exact ref13_decode_wordF12 (by decide)

/-- The typed decoder gives the one typed instruction whose value the decode driven by REF13 gives. -/
theorem decode_eq_of_ref13_decode {w : Word} {i : Instr} (h : ref13.decode w = .ok i.value) :
    decode w = .ok i := by
  have hv := decode_value w
  rw [h] at hv
  cases hd : decode w with
  | ok j =>
    rw [hd, Result.map, Result.ok.injEq] at hv
    rw [Instr.value_inj hv]
  | err e => rw [hd, Result.map] at hv; cases hv

/-- Settles O29: the decode driven by REF13 gives the instruction's value back, and the typed decoder
agrees with it. -/
theorem decodeOfEncode : Obligations.DecodeOfEncode := fun _ h =>
  decode_eq_of_ref13_decode (ref13_decode_encode h)

end Sys2Proof

namespace Sys2Proof.Machine

/-! ### The rows of REF13 (R70 to R82)

The words of a format's instructions are `wordF0_toNat` to `wordF12_toNat`, and their meanings `exec_eq`; the
decode clause reads the row's operand fields, the last one first, and is then `step_decode_row`. -/

/-- The decode of a word of a row `F` of REF13, as the host gets it: up to the last legal opcode the
instruction with the operands read, above it `UnknownOpcode` (R64). -/
theorem step_decode_row {s : State} (hs : s.cfg.catalog = ref13) {F : Format} (hF : F ∈ ref13) {last : Nat}
    (hops : F.ops = List.range (last + 1)) {w : Word} (hw : F.matches w = true) {vals : List Operand}
    (hread : readFields w F.tag (F.opcode w) F.operandBits F.fields = .ok vals) :
    (F.opcode w ≤ last → step (s.asks (.decode w)) =
      .next (s.answer (.ok (.instruction ⟨F.tag, F.opcode w, vals⟩)))) ∧
    (last < F.opcode w → step (s.asks (.decode w)) =
      .next (s.answer (.err (.decode (.unknownOpcode F.tag (F.opcode w)))))) := by
  have hstep : step (s.asks (.decode w)) = .next (s.answer ((F.decode w).map .instruction)) := by
    rw [step_asks, perform, hostDecode_wf (hs ▸ wf_ref13), hs, decode_eq_of_matches wf_ref13 hF hw]
  have hlegal : F.opcode w ∈ F.ops ↔ F.opcode w ≤ last := by rw [hops, List.mem_range, Nat.lt_succ_iff]
  rw [hstep]
  constructor <;> intro hop
  · rw [Format.decode_legal (layoutOk_of_mem wf_ref13 hF) (hlegal.mpr hop), hread, Result.map, Result.map]
  · rw [Format.decode_illegal (mt hlegal.mp hop.not_ge), Result.map]

/-- Settles O14: the row has a register at bit 8 and an immediate at bit 0. -/
theorem f0IntImmFormat : Obligations.F0IntImmFormat := by
  refine ⟨fun s w hs hw => ?decode, fun a m => ?words, fun s a m => ?meanings⟩
  case decode =>
    obtain ⟨a, ha, hreada⟩ := readFields_int w 8
    obtain ⟨m, hm, hreadm⟩ := readFields_imm w 0
    obtain ⟨hlegal, hillegal⟩ := step_decode_row hs (F := ref13[0]) (List.getElem_mem _) rfl
      (decide_eq_true hw) (hreada (hreadm rfl))
    exact ⟨fun hop => ⟨a, m, ha, hm, hlegal hop⟩, hillegal⟩
  case words => and_intros <;> exact wordF0_toNat _ a m
  case meanings => and_intros <;> exact exec_eq _ s

/-- Settles O15: the row has a register at bit 8 and an immediate at bit 0. -/
theorem f1RatioImmFormat : Obligations.F1RatioImmFormat := by
  refine ⟨fun s w hs hw => ?decode, fun q m => ?words, fun s q m => ?meanings⟩
  case decode =>
    obtain ⟨q, hq, hreadq⟩ := readFields_ratio w 8
    obtain ⟨m, hm, hreadm⟩ := readFields_imm w 0
    obtain ⟨hlegal, hillegal⟩ := step_decode_row hs (F := ref13[1]) (List.getElem_mem _) rfl
      (decide_eq_true hw) (hreadq (hreadm rfl))
    exact ⟨fun hop => ⟨q, m, hq, hm, hlegal hop⟩, hillegal⟩
  case words => and_intros <;> exact wordF1_toNat _ q m
  case meanings => and_intros <;> exact exec_eq _ s

/-- Settles O16: the row has an immediate at bit 0. -/
theorem f2ImmFormat : Obligations.F2ImmFormat := by
  refine ⟨fun s w hs hw => ?decode, fun m => ?words, fun s m => ?meanings⟩
  case decode =>
    obtain ⟨m, hm, hreadm⟩ := readFields_imm w 0
    obtain ⟨hlegal, hillegal⟩ := step_decode_row hs (F := ref13[2]) (List.getElem_mem _) rfl
      (decide_eq_true hw) (hreadm rfl)
    exact ⟨fun hop => ⟨m, hm, hlegal hop⟩, hillegal⟩
  case words => and_intros <;> exact wordF2_toNat _ m
  case meanings => and_intros <;> exact exec_eq _ s

/-- Settles O17: the row has registers at bits 6, 3 and 0. -/
theorem f3IntIntIntFormat : Obligations.F3IntIntIntFormat := by
  refine ⟨fun s w hs hw => ?decode, fun a b c => ?words, fun s a b c => ?meanings⟩
  case decode =>
    obtain ⟨a, ha, hreada⟩ := readFields_int w 6
    obtain ⟨b, hb, hreadb⟩ := readFields_int w 3
    obtain ⟨c, hc, hreadc⟩ := readFields_int w 0
    obtain ⟨hlegal, hillegal⟩ := step_decode_row hs (F := ref13[3]) (List.getElem_mem _) rfl
      (decide_eq_true hw) (hreada (hreadb (hreadc rfl)))
    exact ⟨fun hop => ⟨a, b, c, ha, hb, hc, hlegal hop⟩, hillegal⟩
  case words => and_intros <;> exact wordF3_toNat _ a b c
  case meanings => and_intros <;> exact exec_eq _ s

/-- Settles O18: the row has registers at bits 4, 2 and 0. -/
theorem f4RatioRatioRatioFormat : Obligations.F4RatioRatioRatioFormat := by
  refine ⟨fun s w hs hw => ?decode, fun q r u => ?words, fun s q r u => ?meanings⟩
  case decode =>
    obtain ⟨q, hq, hreadq⟩ := readFields_ratio w 4
    obtain ⟨r, hr, hreadr⟩ := readFields_ratio w 2
    obtain ⟨u, hu, hreadu⟩ := readFields_ratio w 0
    obtain ⟨hlegal, hillegal⟩ := step_decode_row hs (F := ref13[4]) (List.getElem_mem _) rfl
      (decide_eq_true hw) (hreadq (hreadr (hreadu rfl)))
    exact ⟨fun hop => ⟨q, r, u, hq, hr, hu, hlegal hop⟩, hillegal⟩
  case words => and_intros <;> exact wordF4_toNat _ q r u
  case meanings => and_intros <;> exact exec_eq _ s

/-- Settles O19: the row has registers at bits 3 and 0. -/
theorem f5IntIntFormat : Obligations.F5IntIntFormat := by
  refine ⟨fun s w hs hw => ?decode, fun a b => ?words, fun s a b => ?meanings⟩
  case decode =>
    obtain ⟨a, ha, hreada⟩ := readFields_int w 3
    obtain ⟨b, hb, hreadb⟩ := readFields_int w 0
    obtain ⟨hlegal, hillegal⟩ := step_decode_row hs (F := ref13[5]) (List.getElem_mem _) rfl
      (decide_eq_true hw) (hreada (hreadb rfl))
    exact ⟨fun hop => ⟨a, b, ha, hb, hlegal hop⟩, hillegal⟩
  case words => and_intros <;> exact wordF5_toNat _ a b
  case meanings => and_intros <;> exact exec_eq _ s

/-- Settles O20: the row has registers at bits 2 and 0. -/
theorem f6IntRatioFormat : Obligations.F6IntRatioFormat := by
  refine ⟨fun s w hs hw => ?decode, fun a q => ?words, fun s a q => ?meanings⟩
  case decode =>
    obtain ⟨a, ha, hreada⟩ := readFields_int w 2
    obtain ⟨q, hq, hreadq⟩ := readFields_ratio w 0
    obtain ⟨hlegal, hillegal⟩ := step_decode_row hs (F := ref13[6]) (List.getElem_mem _) rfl
      (decide_eq_true hw) (hreada (hreadq rfl))
    exact ⟨fun hop => ⟨a, q, ha, hq, hlegal hop⟩, hillegal⟩
  case words => and_intros <;> exact wordF6_toNat _ a q
  case meanings => and_intros <;> exact exec_eq _ s

/-- Settles O21: the row has registers at bits 3 and 0. -/
theorem f7RatioIntFormat : Obligations.F7RatioIntFormat := by
  refine ⟨fun s w hs hw => ?decode, fun q a => ?words, fun s q a => ?meanings⟩
  case decode =>
    obtain ⟨q, hq, hreadq⟩ := readFields_ratio w 3
    obtain ⟨a, ha, hreada⟩ := readFields_int w 0
    obtain ⟨hlegal, hillegal⟩ := step_decode_row hs (F := ref13[7]) (List.getElem_mem _) rfl
      (decide_eq_true hw) (hreadq (hreada rfl))
    exact ⟨fun hop => ⟨q, a, hq, ha, hlegal hop⟩, hillegal⟩
  case words => and_intros <;> exact wordF7_toNat _ q a
  case meanings => and_intros <;> exact exec_eq _ s

/-- Settles O22: the row has registers at bits 2 and 0. -/
theorem f8RatioRatioFormat : Obligations.F8RatioRatioFormat := by
  refine ⟨fun s w hs hw => ?decode, fun q r => ?words, fun s q r => ?meanings⟩
  case decode =>
    obtain ⟨q, hq, hreadq⟩ := readFields_ratio w 2
    obtain ⟨r, hr, hreadr⟩ := readFields_ratio w 0
    obtain ⟨hlegal, hillegal⟩ := step_decode_row hs (F := ref13[8]) (List.getElem_mem _) rfl
      (decide_eq_true hw) (hreadq (hreadr rfl))
    exact ⟨fun hop => ⟨q, r, hq, hr, hlegal hop⟩, hillegal⟩
  case words => and_intros <;> exact wordF8_toNat _ q r
  case meanings => and_intros <;> exact exec_eq _ s

/-- Settles O23: the row has a register at bit 0. -/
theorem f9IntFormat : Obligations.F9IntFormat := by
  refine ⟨fun s w hs hw => ?decode, fun a => ?words, fun s a => ?meanings⟩
  case decode =>
    obtain ⟨a, ha, hreada⟩ := readFields_int w 0
    obtain ⟨hlegal, hillegal⟩ := step_decode_row hs (F := ref13[9]) (List.getElem_mem _) rfl
      (decide_eq_true hw) (hreada rfl)
    exact ⟨fun hop => ⟨a, ha, hlegal hop⟩, hillegal⟩
  case words => and_intros <;> exact wordF9_toNat _ a
  case meanings => and_intros <;> exact exec_eq _ s

/-- Settles O24: the row has a register at bit 0. -/
theorem f10RatioFormat : Obligations.F10RatioFormat := by
  refine ⟨fun s w hs hw => ?decode, fun q => ?words, fun s q => ?meanings⟩
  case decode =>
    obtain ⟨q, hq, hreadq⟩ := readFields_ratio w 0
    obtain ⟨hlegal, hillegal⟩ := step_decode_row hs (F := ref13[10]) (List.getElem_mem _) rfl
      (decide_eq_true hw) (hreadq rfl)
    exact ⟨fun hop => ⟨q, hq, hlegal hop⟩, hillegal⟩
  case words => and_intros <;> exact wordF10_toNat _ q
  case meanings => and_intros <;> exact exec_eq _ s

/-- Settles O25: the row has registers at bits 5, 2 and 0. -/
theorem f11IntIntRatioFormat : Obligations.F11IntIntRatioFormat := by
  refine ⟨fun s w hs hw => ?decode, fun a b q => ?words, fun s a b q => ?meanings⟩
  case decode =>
    obtain ⟨a, ha, hreada⟩ := readFields_int w 5
    obtain ⟨b, hb, hreadb⟩ := readFields_int w 2
    obtain ⟨q, hq, hreadq⟩ := readFields_ratio w 0
    obtain ⟨hlegal, hillegal⟩ := step_decode_row hs (F := ref13[11]) (List.getElem_mem _) rfl
      (decide_eq_true hw) (hreada (hreadb (hreadq rfl)))
    exact ⟨fun hop => ⟨a, b, q, ha, hb, hq, hlegal hop⟩, hillegal⟩
  case words => and_intros <;> exact wordF11_toNat _ a b q
  case meanings => and_intros <;> exact exec_eq _ s

/-- Settles O26: the row has no operand field. -/
theorem f12NullaryFormat : Obligations.F12NullaryFormat := by
  refine ⟨fun s w hs hw => ?decode, ?words, fun s => ?meanings⟩
  case decode =>
    exact step_decode_row hs (F := ref13[12]) (List.getElem_mem _) rfl (decide_eq_true hw) rfl
  case words => and_intros <;> exact wordF12_toNat _
  case meanings => and_intros <;> exact exec_eq _ s

/-! ### The meaning of every instruction (R83) -/

/-- Settles O32: every instruction's meaning is one answer to the host, which leaves every other field. -/
theorem instructionsHaveNoEffectInTheBlock : Obligations.InstructionsHaveNoEffectInTheBlock := fun i s =>
  ⟨_, exec_eq i s, answer_reply s _, answer_map s _, answer_byteAt s _, answer_held s _, answer_cfg s _,
    answer_requests s _, answer_draws s _⟩

end Sys2Proof.Machine
end

section
/-! The family of spec/42_memory_device.md. An operation on a held card is the card's own operation, with
the card put back in its slot (`step_cardReadByte` and the like); `onlySlotChanges_setHeld` is the frame
of both writes. -/

namespace Sys2Proof.Machine

/-! ### The host's operations on a card it holds (R84 to R88) -/

section
variable {s : State} {slot : Nat} {c : Card} (hc : s.heldCard slot = some c) (a : Addr)
include hc

theorem step_cardSize : step (s.asks (.cardSize slot)) = .next (s.answer (.ok (.size c.size))) :=
  withHeld_some _ hc

theorem step_cardReadByte :
    step (s.asks (.cardReadByte slot a)) = .next (s.answer ((c.readByte a).map .byte)) :=
  withHeld_some _ hc

theorem step_cardReadWord :
    step (s.asks (.cardReadWord slot a)) = .next (s.answer ((c.readWord a).map .word)) :=
  withHeld_some _ hc

/-- A byte write inside the card puts the written card back in its slot (R87). -/
theorem step_cardWriteByte_ok {a : Addr} (v : Byte) (ha : a.toNat < c.size.toNat) :
    step (s.asks (.cardWriteByte slot a v)) =
      .next ((s.setHeld slot (some (c.setByte a.toNat v))).answer (.ok .unit)) := by
  rw [step_asks, perform, hostCardWriteByte, withHeld_some _ hc, writeByte_ok v ha]

/-- A byte write outside the card answers the error and changes nothing else (R87). -/
theorem step_cardWriteByte_err {a : Addr} (v : Byte) (ha : c.size.toNat ≤ a.toNat) :
    step (s.asks (.cardWriteByte slot a v)) = .next (s.answer (.err .address)) := by
  rw [step_asks, perform, hostCardWriteByte, withHeld_some _ hc, writeByte_err v ha]

/-- A word write puts the card it leaves back in its slot, whether it succeeds or not (R88). -/
theorem step_cardWriteWord (v : Word) :
    step (s.asks (.cardWriteWord slot a v)) =
      .next (((s.setHeld slot (some (c.writeWord s.cfg.failEffect s.nextDraw a v).1)).countDraw
        (c.drawsAt s.cfg.failEffect a)).answer
          ((c.writeWord s.cfg.failEffect s.nextDraw a v).2.map fun _ => .unit)) :=
  withHeld_some _ hc

/-- The card put into the slot of a held one is the card held there. -/
theorem setHeld_heldCard_of_held (d : Option Card) : (s.setHeld slot d).heldCard slot = d :=
  setHeld_heldCard_self s slot d (heldCard_lt hc)

/-- A held card of a good state is well-formed (R13). -/
theorem State.Inv.wf_of_heldCard (hs : s.Inv) : c.wf :=
  hs.held _ (mem_held_of_heldCard hc) c rfl

end

/-- Putting a card into a slot, with or without a draw, and answering touch only that slot. -/
theorem onlySlotChanges_setHeld (s : State) (slot : Nat) (d : Option Card) (drew : Bool)
    (r : Result Value) : onlySlotChanges s (((s.setHeld slot d).countDraw drew).answer r) slot := by
  refine ⟨by simp, fun k hk => ?_, by simp, by simp, by simp⟩
  rw [answer_heldCard, countDraw_heldCard, setHeld_heldCard_ne s slot d hk]

/-! ### The bytes a word write leaves alone (R88) -/

section
variable {c : Card} {a : Addr} (eff : WordWriteFailEffect) (draw : Bool) (v : Word)

/-- A failing word write touches no byte but the low one. -/
theorem writeWord_err_other (hout : c.size.toNat ≤ a.toNat + 1) {b : Nat} (hb : b ≠ a.toNat) :
    (c.writeWord eff draw a v).1.byteAt b = c.byteAt b := by
  obtain he | ⟨-, he⟩ := writeWord_err eff draw v hout <;> rw [he]
  exact setByte_other _ _ _ _ hb

/-- A failing word write leaves the low byte, or sets it to the word's when it is in bounds. -/
theorem writeWord_err_low (hc : c.wf) (hout : c.size.toNat ≤ a.toNat + 1) :
    (c.writeWord eff draw a v).1.byteAt a.toNat = c.byteAt a.toNat ∨
      (a.toNat < c.size.toNat ∧ (c.writeWord eff draw a v).1.byteAt a.toNat = lo8 v) := by
  obtain he | ⟨hin, he⟩ := writeWord_err eff draw v hout <;> rw [he]
  · exact .inl rfl
  · exact .inr ⟨hin, setByte_same c hc _ _⟩

/-- A word write touches no byte but the two of the word. -/
theorem writeWord_other {b : Nat} (hlo : b ≠ a.toNat) (hhi : b ≠ a.toNat + 1) :
    (c.writeWord eff draw a v).1.byteAt b = c.byteAt b := by
  rcases Nat.lt_or_ge (a.toNat + 1) c.size.toNat with hin | hout
  · rw [writeWord_ok eff draw v hin, setByte_other _ _ _ _ hhi, setByte_other _ _ _ _ hlo]
  · exact writeWord_err_other eff draw v hout hlo

end

/-! ### The obligations -/

/-- Settles O36: the written card differs in the one byte, and is put back in the one slot. -/
theorem cardByteWrite : Obligations.CardByteWrite := by
  intro s slot c a v hs hc
  exact ⟨fun hin => ⟨_, c.setByte a.toNat v, step_cardWriteByte_ok hc v hin, rfl,
      setHeld_heldCard_of_held hc _, rfl, setByte_same c (hs.wf_of_heldCard hc) _ v,
      fun b hb => setByte_other c _ b v hb, onlySlotChanges_setHeld s slot _ false _, rfl⟩,
    step_cardWriteByte_err hc v⟩

/-- Settles O37: a word write puts one card back in its slot, the two halves written when the word fits.
When it does not, `writeWord_err_low` and `writeWord_err_other` bound what the card can differ in, and
under NONE the card is as it was. -/
theorem cardWordWrite : Obligations.CardWordWrite := by
  intro s slot c a v hs hc
  have hwf : c.wf := hs.wf_of_heldCard hc
  have hstep := step_cardWriteWord hc a v
  have hheld := setHeld_heldCard_of_held hc (some (c.writeWord s.cfg.failEffect s.nextDraw a v).1)
  have hsize := writeWord_size c s.cfg.failEffect s.nextDraw a v
  refine ⟨fun hin => ?inside, fun hout => ⟨fun hnone => ?none, ?outside⟩⟩
  case inside =>
    obtain ⟨hlo, hhi⟩ := writeWord_halves hwf s.cfg.failEffect s.nextDraw v hin
    refine ⟨_, _, hstep, ?_, (countDraw_heldCard _ _ _).trans hheld, hsize, by rw [hlo, lo8_toNat],
      by rw [hhi, hi8_toNat], fun b => writeWord_other _ _ v, onlySlotChanges_setHeld _ _ _ _ _, ?_⟩
    · rw [answer_reply, writeWord_ok _ _ v hin, Result.map]
    · rw [drawsAt_ok _ hin, countDraw_false, answer_draws, setHeld_draws]
  case none =>
    rw [hstep, hnone, writeWord_err_nothing _ v hout, drawsAt_nothing, countDraw_false, setHeld_same hc,
      Result.map]
  case outside =>
    have hlow := writeWord_err_low s.cfg.failEffect s.nextDraw v hwf hout
    refine ⟨_, _, hstep, ?_, (countDraw_heldCard _ _ _).trans hheld, hsize,
      hlow.imp_right fun ⟨hin, hlo⟩ => ⟨hin, by rw [hlo, lo8_toNat]⟩,
      fun b => writeWord_err_other _ _ v hout, onlySlotChanges_setHeld _ _ _ _ _⟩
    rw [answer_reply, writeWord_result_err _ _ v hout, Result.map]

/-- Settles O35: each read answers what the card's own read gives, on either side of its bound. -/
theorem cardReads : Obligations.CardReads := by
  intro s slot c hc
  refine ⟨step_cardSize hc, fun a => ⟨fun hin => ?byte, fun hout => ?byteErr, fun hin => ?word,
    fun hout => ?wordErr⟩⟩
  case byte => rw [step_cardReadByte hc, readByte_ok hin, Result.map]
  case byteErr => rw [step_cardReadByte hc, readByte_err hout, Result.map]
  case word =>
    exact ⟨_, wordOfBytes_toNat _ _, by rw [step_cardReadWord hc, readWord_ok hin, Result.map]⟩
  case wordErr => rw [step_cardReadWord hc, readWord_err hout, Result.map]

end Sys2Proof.Machine
end

section
/-! The family of spec/43_multiplexer.md. Registration is decided by `registerDevice_overflow_iff` and
`registerDevice_overlap_iff` (R91). A routed write replaces one card by one that differs only where the
write stores (`Card.storesAt`), and the frame of the byte write and of both ends of the word write
follows from that. -/

namespace Sys2Proof.Machine

/-! ### Registration (R91, R92) -/

/-- The overflow check comes first, whatever else fails (R107). -/
theorem registerDevice_overflow_iff {map : List Entry} {addr : Addr} {dev : Card} :
    registerDevice map addr dev = .err (.registration .overflow) ↔
      0xFFFF < addr.toNat + dev.size.toNat := by
  rw [← checkedAdd_eq_none_iff]
  unfold registerDevice
  cases checkedAdd addr dev.size with
  | none => simp
  | some limit => simp only [reduceCtorEq, iff_false]; split_ifs <;> simp

/-- The range of `size` bytes at `addr` meets the entry `e` (R91): it has the entry's base, or one of the
two begins inside the other. -/
def Entry.meets (e : Entry) (addr : Addr) (size : BitVec 16) : Prop :=
  e.base = addr ∨
    (e.base.toNat < addr.toNat ∧ addr.toNat < e.base.toNat + e.dev.size.toNat) ∨
    (addr.toNat < e.base.toNat ∧ e.base.toNat < addr.toNat + size.toNat)

theorem hasBase_iff {map : List Entry} {addr : Addr} :
    hasBase map addr = true ↔ ∃ e ∈ map, e.base = addr := by
  simp [hasBase]

/-- Each of the three overlap checks finds an entry that the range meets; the last two come after the
first has found no entry at `addr`. -/
theorem exists_meets_of_registerDevice_overlap {map : List Entry} {addr : Addr} {dev : Card}
    (h : registerDevice map addr dev = .err (.registration .overlap)) :
    ∃ e ∈ map, e.meets addr dev.size := by
  unfold registerDevice at h
  cases hc : checkedAdd addr dev.size with
  | none => simp [hc] at h
  | some limit =>
    obtain ⟨hlimit, -⟩ := checkedAdd_some hc
    simp only [hc] at h
    by_cases hbase : ∃ e ∈ map, e.base = addr
    · obtain ⟨e, he, heq⟩ := hbase
      exact ⟨e, he, .inl heq⟩
    have hne : ∀ e ∈ map, e.base.toNat ≠ addr.toNat := fun e he heq =>
      hbase ⟨e, he, BitVec.eq_of_toNat_eq heq⟩
    rw [if_neg (mt hasBase_iff.mp hbase)] at h
    split_ifs at h with hbelow habove
    · obtain ⟨e, hn, hlt⟩ := (Option.any_eq_true _ _).mp hbelow
      obtain ⟨he, hle, -⟩ := nearestBelow_some hn
      exact ⟨e, he, .inr (.inl ⟨lt_of_le_of_ne hle (hne e he), of_decide_eq_true hlt⟩)⟩
    · obtain ⟨e, hn, hlt⟩ := (Option.any_eq_true _ _).mp habove
      obtain ⟨he, hle⟩ := nearestAbove_some hn
      exact ⟨e, he, .inr (.inr ⟨lt_of_le_of_ne hle (hne e he).symm,
        hlimit ▸ of_decide_eq_true hlt⟩)⟩

/-- In a good map a range that fits below 0xFFFF is rejected exactly when an entry meets it (R91). -/
theorem registerDevice_overlap_iff {map : List Entry} (hm : mapOk map) {addr : Addr} {dev : Card}
    (hfits : addr.toNat + dev.size.toNat ≤ 0xFFFF) :
    registerDevice map addr dev = .err (.registration .overlap) ↔
      ∃ e ∈ map, e.meets addr dev.size := by
  refine ⟨exists_meets_of_registerDevice_overlap, fun ⟨e, he, hmeets⟩ => ?_⟩
  cases hr : registerDevice map addr dev with
  | err x =>
    obtain rfl | rfl := registerDevice_err hr
    · have := registerDevice_overflow_iff.mp hr; omega
    · rfl
  | ok map' =>
    exfalso
    have hm' : mapOk map' := mapOk_registerDevice hm hr
    obtain ⟨rfl, -, hne, -⟩ := registerDevice_ok hr
    have he' : e ∈ insertEntry map ⟨addr, dev⟩ := mem_insertEntry.mpr (.inl he)
    have hnew : ⟨addr, dev⟩ ∈ insertEntry map ⟨addr, dev⟩ := mem_insertEntry.mpr (.inr rfl)
    obtain hb | ⟨hlt, hin⟩ | ⟨hlt, hin⟩ := hmeets
    · exact hne e he hb
    · exact absurd (mapOk_limit_le hm' he' hnew hlt) (Nat.not_le.mpr hin)
    · exact absurd (mapOk_limit_le hm' hnew he' hlt) (Nat.not_le.mpr hin)

/-- A range that fits and meets no entry is inserted (R91). -/
theorem registerDevice_clear {map : List Entry} {addr : Addr} {dev : Card}
    (hfits : addr.toNat + dev.size.toNat ≤ 0xFFFF) (hclear : ∀ e ∈ map, ¬ e.meets addr dev.size) :
    registerDevice map addr dev = .ok (insertEntry map ⟨addr, dev⟩) := by
  cases hr : registerDevice map addr dev with
  | ok map' => rw [(registerDevice_ok hr).1]
  | err x =>
    obtain rfl | rfl := registerDevice_err hr
    · have := registerDevice_overflow_iff.mp hr; omega
    · obtain ⟨e, he, hmeets⟩ := exists_meets_of_registerDevice_overlap hr
      exact absurd hmeets (hclear e he)

section
variable {s : State} {slot : Nat} {c : Card} {addr : Addr} (hc : s.heldCard slot = some c)
include hc

/-- A registration that passes its checks moves the card from its slot into the map. -/
theorem step_addDevice_ok {map : List Entry} (h : registerDevice s.map addr c = .ok map) :
    step (s.asks (.addDevice addr slot)) =
      .next ({ s.setHeld slot none with map := map }.answer (.ok .unit)) := by
  rw [step_asks, perform, hostAddDevice, withHeld_some _ hc, h]

/-- A rejected registration empties the card's slot and answers the error (D9). -/
theorem step_addDevice_err {x : Error} (h : registerDevice s.map addr c = .err x) :
    step (s.asks (.addDevice addr slot)) = .next ((s.setHeld slot none).answer (.err x)) := by
  rw [step_asks, perform, hostAddDevice, withHeld_some _ hc, h]

end

/-- Settles O40: the overflow check decides first, and of the ranges that fit exactly those that meet an
entry are rejected. -/
theorem addDeviceChecks : Obligations.AddDeviceChecks := by
  intro s slot c addr hs hc
  refine ⟨fun hover => step_addDevice_err hc (registerDevice_overflow_iff.mpr hover),
    fun hfits hmeets => step_addDevice_err hc ((registerDevice_overlap_iff hs.map hfits).mpr hmeets),
    fun hfits hapart => ?_⟩
  have hclear : ∀ e ∈ s.map, ¬ e.meets addr c.size := by
    intro e he hmeets
    obtain ⟨hne, hbelow, habove⟩ := hapart e he
    obtain hb | ⟨hlt, hin⟩ | ⟨hlt, hin⟩ := hmeets
    · exact hne hb
    · have := hbelow hlt; omega
    · have := habove hlt; omega
  exact ⟨_, step_addDevice_ok hc (registerDevice_clear hfits hclear), rfl, fun _ => mem_insertEntry,
    length_insertEntry _ _, setHeld_none_heldCard s slot, fun k => setHeld_heldCard_ne s slot none,
    rfl, rfl, rfl⟩

/-- Settles O41: of the two effects of a registration the one that answers an error is the rejection,
which writes nothing but the emptied slot. -/
theorem failedAddDeviceLeavesTheMap : Obligations.FailedAddDeviceLeavesTheMap := by
  intro s t slot addr e hstep hreply
  rw [step_asks] at hstep
  cases perform_effect hstep with
  | answers r unforced => cases unforced
  | registers _ _ => cases hreply
  | rejects _ _ => exact ⟨rfl, setHeld_none_heldCard s slot, rfl, rfl, rfl⟩

/-! ### Routed accesses (R93 to R97) -/

/-- A byte read answers what the multiplexer reads and changes nothing else (R94). -/
theorem step_readByte (s : State) (addr : Addr) :
    step (s.asks (.readByte addr)) = .next (s.answer ((s.byteAt addr).map .byte)) := rfl

/-- A byte write that routes to no card answers the error and changes nothing else (R96). -/
theorem step_writeByte_unrouted {s : State} {addr : Addr}
    (h : route s.cfg.addrMode s.map addr = none) (v : Byte) :
    step (s.asks (.writeByte addr v)) = .next (s.answer (.err .address)) := by
  simp [perform, hostWriteByte, h]

section
variable {s : State} {addr a : Addr} {e : Entry}
  (hr : route s.cfg.addrMode s.map addr = some (e, a)) {v : Byte}
include hr

/-- A routed byte write that the card accepts puts the written card in its entry (R96). -/
theorem step_writeByte_ok {d : Card} (h : e.dev.writeByte a v = .ok d) :
    step (s.asks (.writeByte addr v)) =
      .next ({ s with map := replaceAt s.map e.base d }.answer (.ok .unit)) := by
  simp [perform, hostWriteByte, hr, h]

/-- A routed byte write that the card rejects answers its error and changes nothing else (R96). -/
theorem step_writeByte_err {x : Error} (h : e.dev.writeByte a v = .err x) :
    step (s.asks (.writeByte addr v)) = .next (s.answer (.err x)) := by
  simp [perform, hostWriteByte, hr, h]

/-- The byte at a routed address is the routed card's. -/
theorem byteAt_routed : s.byteAt addr = e.dev.readByte a := muxReadByte_some hr

end

/-- Settles O46: with no base at or below the address nothing is routed; the greatest such base is the
routed entry's, and each access is that card's own at the local address. -/
theorem routingSelectsTheGreatestBase : Obligations.RoutingSelectsTheGreatestBase := by
  intro s addr hs
  refine ⟨fun hnone b w => ?unrouted, fun e he hle hmax a ha => ?routed⟩
  case unrouted =>
    have hr : route s.cfg.addrMode s.map addr = none := by
      rw [route, nearestBelow_none_iff.mpr hnone, Option.map_none]
    exact ⟨by rw [step_readByte, State.byteAt, muxReadByte_none hr, Result.map],
      by rw [step_readWord, muxReadWord_none hr, Result.map],
      step_writeByte_unrouted hr b, step_writeWord_unrouted hr w⟩
  case routed =>
    obtain rfl : a = localAddr s.cfg.addrMode e.base addr :=
      BitVec.eq_of_toNat_eq (ha.trans (localAddr_toNat _ hle).symm)
    have hr := route_eq s.cfg.addrMode hs.map he hle hmax
    have hmem (d : Card) : ⟨e.base, d⟩ ∈ replaceAt s.map e.base d :=
      (mem_replaceAt hs.map he).mpr (.inl rfl)
    refine ⟨by rw [step_readByte, byteAt_routed hr], by rw [step_readWord, muxReadWord_some hr],
      fun b x hx => step_writeByte_err hr hx, fun b d hd => ⟨_, step_writeByte_ok hr hd, rfl, hmem d⟩,
      fun w => ⟨_, step_writeWord_routed hr w, rfl, ?_⟩⟩
    rw [answer_map, countDraw_map]
    exact hmem _

/-! ### What a routed write changes (R96, R97) -/

/-- The card `d` is `c` but for at most the `n` bytes at `a`. -/
structure Card.storesAt (c d : Card) (a n : Nat) : Prop where
  size  : d.size = c.size
  bytes : ∀ k, d.byteAt k ≠ c.byteAt k → a ≤ k ∧ k < a + n

theorem setByte_storesAt (c : Card) (a : Nat) (v : Byte) : c.storesAt (c.setByte a v) a 1 where
  size := rfl
  bytes k hk := by
    have : k = a := not_imp_comm.mp (setByte_other c a k v) hk
    omega

theorem writeWord_storesAt (c : Card) (eff : WordWriteFailEffect) (draw : Bool) (a : Addr) (v : Word) :
    c.storesAt (c.writeWord eff draw a v).1 a.toNat 2 where
  size := writeWord_size c eff draw a v
  bytes k hk := by
    by_contra hout
    exact hk (writeWord_other eff draw v (by omega) (by omega))

/-- A failing word write stores at most the low byte (R88). -/
theorem writeWord_err_storesAt {c : Card} {a : Addr} (eff : WordWriteFailEffect) (draw : Bool) (v : Word)
    (hout : c.size.toNat ≤ a.toNat + 1) : c.storesAt (c.writeWord eff draw a v).1 a.toNat 1 where
  size := writeWord_size c eff draw a v
  bytes k hk := by
    have : k = a.toNat := not_imp_comm.mp (writeWord_err_other eff draw v hout) hk
    omega

theorem readByte_congr {c d : Card} {a : Addr} (hsize : d.size = c.size)
    (hbyte : d.byteAt a.toNat = c.byteAt a.toNat) : d.readByte a = c.readByte a := by
  simp only [Card.readByte, hsize, hbyte]

/-- Global addresses at or above a base are as far apart as their local ones, in either mode. -/
theorem localAddr_add_iff (mode : MuxAddrMode) {base a b : Addr} (ha : base.toNat ≤ a.toNat)
    (hb : base.toNat ≤ b.toNat) (n : Nat) :
    (localAddr mode base a).toNat + n ≤ (localAddr mode base b).toNat ↔ a.toNat + n ≤ b.toNat := by
  rw [localAddr_toNat mode ha, localAddr_toNat mode hb]
  cases mode with
  | raw => rfl
  | offset => simp only; omega

section
variable {s : State} (hm : mapOk s.map) {addr a : Addr} {e : Entry}
  (hr : route s.cfg.addrMode s.map addr = some (e, a)) {d : Card}
include hr

/-- The byte at the address of a routed write is read from the written card. -/
theorem byteAt_replaceAt_routed :
    ({ s with map := replaceAt s.map e.base d } : State).byteAt addr = d.readByte a :=
  muxReadByte_some (e := { e with dev := d }) (by simp [route_replaceAt, hr])

include hm

/-- A byte outside the `n` at the address of a routed write reads as before: in another entry it is not
touched, and in the same entry its local address is as far from the write's. -/
theorem byteAt_replaceAt_other {n : Nat} (hd : e.dev.storesAt d a.toNat n) {b : Addr}
    (hb : b.toNat < addr.toNat ∨ addr.toNat + n ≤ b.toNat) :
    ({ s with map := replaceAt s.map e.base d } : State).byteAt b = s.byteAt b := by
  obtain ⟨hnone, -⟩ | ⟨e', hr', he, hle, -⟩ := route_cases s.cfg.addrMode s.map addr
  · rw [hnone] at hr; cases hr
  rw [hr'] at hr; cases hr
  have hroute := route_replaceAt s.cfg.addrMode s.map e.base d b
  obtain ⟨hnone, -⟩ | ⟨f, hf, hfm, hfle, -⟩ := route_cases s.cfg.addrMode s.map b
  · rw [hnone] at hroute
    exact (muxReadByte_none hroute).trans (muxReadByte_none hnone).symm
  rw [hf, Option.map_some] at hroute
  refine (muxReadByte_some hroute).trans (Eq.trans ?_ (muxReadByte_some hf).symm)
  split
  · rename_i hbase
    obtain rfl := mapOk_base_inj hm hfm he (congrArg _ hbase)
    refine readByte_congr hd.size (not_imp_comm.mp (hd.bytes _) fun ⟨hlo, hhi⟩ => ?_)
    have hlo' := (localAddr_add_iff s.cfg.addrMode hle hfle 0).mp hlo
    have hhi' := mt (localAddr_add_iff s.cfg.addrMode hle hfle n).mpr (Nat.not_le.mpr hhi)
    omega
  · rfl

/-- The frame of a routed write: the layout stays, and a byte that changes is one of those stored. -/
theorem onlyStoredBytesChange_replaceAt {n : Nat} (hd : e.dev.storesAt d a.toNat n) (drew : Bool)
    (r : Result Value) : onlyStoredBytesChange s
      (({ s with map := replaceAt s.map e.base d }.countDraw drew).answer r) addr n := by
  have he : e ∈ s.map := mem_of_route hr
  refine ⟨by simpa [sameLayout] using sameLayout_replaceAt hm he hd.size, fun i f g k hf hg hk => ?_,
    by simp, by simp, by simp⟩
  rw [answer_map, countDraw_map, replaceAt, List.getElem?_map, hf, Option.map_some,
    Option.some_inj] at hg
  subst hg
  split at hk
  · rename_i hbase
    obtain rfl := mapOk_base_inj hm (List.mem_of_getElem? hf) he (congrArg _ hbase)
    exact ⟨a, hr, hd.bytes k hk⟩
  · exact absurd rfl hk

end

/-- An answer alone stores nothing. -/
theorem onlyStoredBytesChange_answer (s : State) (r : Result Value) (addr : Addr) (n : Nat) :
    onlyStoredBytesChange s (s.answer r) addr n := by
  refine ⟨rfl, fun i e f k he hf hk => ?_, rfl, rfl, rfl⟩
  rw [answer_map, he, Option.some_inj] at hf
  exact absurd (by rw [hf]) hk

/-- An address other than `a` lies outside the one byte at `a`. -/
theorem lt_or_add_one_le_of_ne {a b : Addr} (h : b ≠ a) : b.toNat < a.toNat ∨ a.toNat + 1 ≤ b.toNat :=
  Nat.lt_or_gt_of_ne (mt BitVec.eq_of_toNat_eq h)

/-- Settles O50: a byte access is decided by the routed card's bound alone, for reads and writes alike, and
the card written there differs in the one byte. -/
theorem muxByteWrite : Obligations.MuxByteWrite := by
  intro s addr v hs
  obtain ⟨hr, -⟩ | ⟨e, hr, he, -⟩ := route_cases s.cfg.addrMode s.map addr
  · have hread : s.byteAt addr = .err .address := muxReadByte_none hr
    exact ⟨fun ⟨x, hx⟩ => by simp [hread] at hx, fun _ => step_writeByte_unrouted hr v⟩
  have hread := byteAt_routed hr
  rcases Nat.lt_or_ge (localAddr s.cfg.addrMode e.base addr).toNat e.dev.size.toNat with hin | hout
  · refine ⟨fun _ => ?_, fun herr => by simp [hread, readByte_ok hin] at herr⟩
    have hd := setByte_storesAt e.dev (localAddr s.cfg.addrMode e.base addr).toNat v
    refine ⟨_, step_writeByte_ok hr (writeByte_ok v hin), rfl, ?_,
      fun b hb => byteAt_replaceAt_other hs.map hr hd (lt_or_add_one_le_of_ne hb),
      onlyStoredBytesChange_replaceAt hs.map hr hd false _, rfl⟩
    rw [answer_byteAt, byteAt_replaceAt_routed hr,
      readByte_ok (c := e.dev.setByte _ v) hin, setByte_same _ (hs.cards e he)]
  · exact ⟨fun ⟨x, hx⟩ => by simp [hread, readByte_err hout] at hx,
      fun _ => step_writeByte_err hr (writeByte_err v hout)⟩

/-- After a word write into the routed card a word read at the same address gives the word back. -/
theorem muxReadWord_after_writeWord {s : State} (hs : s.Inv) {addr a : Addr} {e : Entry}
    (hr : route s.cfg.addrMode s.map addr = some (e, a)) (hin : a.toNat + 1 < e.dev.size.toNat)
    (v : Word) : muxReadWord s.cfg.addrMode
      (replaceAt s.map e.base (e.dev.writeWord s.cfg.failEffect s.nextDraw a v).1) addr = .ok v := by
  obtain ⟨hlo, hhi⟩ := writeWord_halves (hs.cards e (mem_of_route hr)) s.cfg.failEffect s.nextDraw v hin
  have hsize := writeWord_size e.dev s.cfg.failEffect s.nextDraw a v
  have hr' : route s.cfg.addrMode
      (replaceAt s.map e.base (e.dev.writeWord s.cfg.failEffect s.nextDraw a v).1) addr =
      some (⟨e.base, (e.dev.writeWord s.cfg.failEffect s.nextDraw a v).1⟩, a) := by
    simp [route_replaceAt, hr]
  rw [muxReadWord_some hr', readWord_ok (by rw [hsize]; exact hin), hlo, hhi, wordOfBytes_halves]

/-- Under NONE a word write that the routed card rejects changes nothing but the answer (R97). -/
theorem step_writeWord_err_nothing {s : State} (hm : mapOk s.map) {addr a : Addr} {e : Entry}
    (hr : route s.cfg.addrMode s.map addr = some (e, a)) (hout : e.dev.size.toNat ≤ a.toNat + 1)
    (v : Word) (hnone : s.cfg.failEffect = .nothing) :
    step (s.asks (.writeWord addr v)) = .next (s.answer (.err .address)) := by
  rw [step_writeWord_routed hr, hnone, writeWord_err_nothing _ v hout, drawsAt_nothing,
    countDraw_false, replaceAt_same hm (mem_of_route hr), Result.map]

/-- After a failing word write the low byte reads as before, or as the word's when it is in bounds (R88). -/
theorem readByte_writeWord_err {c : Card} (hc : c.wf) {a : Addr} (eff : WordWriteFailEffect)
    (draw : Bool) (v : Word) (hout : c.size.toNat ≤ a.toNat + 1) :
    (c.writeWord eff draw a v).1.readByte a = c.readByte a ∨
      ((∃ x, c.readByte a = .ok x) ∧
        ∃ y : Byte, y.toNat = v.toNat % 256 ∧ (c.writeWord eff draw a v).1.readByte a = .ok y) := by
  have hsize := writeWord_size c eff draw a v
  obtain hsame | ⟨hin, hlo⟩ := writeWord_err_low eff draw v hc hout
  · exact .inl (readByte_congr hsize hsame)
  · exact .inr ⟨⟨_, readByte_ok hin⟩, lo8 v, lo8_toNat v, by rw [readByte_ok (hsize ▸ hin), hlo]⟩

/-- Settles O51: whether a word can be read is whether it fits in the routed card; then the write stores
its two halves, and otherwise it stores nothing, or under LOW_MAY_BE_WRITTEN at most the low byte. -/
theorem muxWordWrite : Obligations.MuxWordWrite := by
  intro s addr v hs
  refine ⟨fun ⟨x, hx⟩ => ?inside, fun herr => ?outside⟩
  case inside =>
    obtain ⟨e, a, hr, hin, -⟩ := muxReadWord_ok hx
    have hd := writeWord_storesAt e.dev s.cfg.failEffect s.nextDraw a v
    refine ⟨_, step_writeWord_routed hr v, ?_, ?_, fun b hne hne' => ?_,
      onlyStoredBytesChange_replaceAt hs.map hr hd _ _, ?_⟩
    · rw [answer_reply, writeWord_ok _ _ v hin, Result.map]
    · rw [step_readWord, answer_map, answer_cfg, countDraw_map, countDraw_cfg,
        muxReadWord_after_writeWord hs hr hin, Result.map]
    · rw [answer_byteAt, countDraw_byteAt]
      have := lt_or_add_one_le_of_ne hne
      exact byteAt_replaceAt_other hs.map hr hd (by omega)
    · rw [answer_draws, drawsAt_ok _ hin, countDraw_false]
  case outside =>
    obtain ⟨hr, -⟩ | ⟨e, hr, he, -⟩ := route_cases s.cfg.addrMode s.map addr
    · have hstep := step_writeWord_unrouted hr v
      exact ⟨fun _ => hstep, _, hstep, rfl, fun _ _ => rfl, .inl rfl,
        onlyStoredBytesChange_answer s _ addr 1⟩
    have hout : e.dev.size.toNat ≤ (localAddr s.cfg.addrMode e.base addr).toNat + 1 := by
      by_contra hin
      rw [muxReadWord_some hr, readWord_ok (by omega)] at herr
      cases herr
    have hd := writeWord_err_storesAt s.cfg.failEffect s.nextDraw v hout
    refine ⟨step_writeWord_err_nothing hs.map hr hout v, _, step_writeWord_routed hr v, ?_,
      fun b hb => ?_, ?_, onlyStoredBytesChange_replaceAt hs.map hr hd _ _⟩
    · rw [answer_reply, writeWord_result_err _ _ v hout, Result.map]
    · rw [answer_byteAt, countDraw_byteAt]
      exact byteAt_replaceAt_other hs.map hr hd (lt_or_add_one_le_of_ne hb)
    · rw [answer_byteAt, countDraw_byteAt, byteAt_replaceAt_routed hr, byteAt_routed hr]
      exact readByte_writeWord_err (hs.cards e he) _ _ v hout

end Sys2Proof.Machine
end

section
/-! The family of spec/60_exceptions.md. A legal operation is performed (`perform_of_legal`); its effect
returns a result and keeps a good state (`Effect.keeps_inv`); and an effect that returns an error is
that answer alone, or the rejection of a card (`Effect.of_err`). -/

namespace Sys2Proof.Machine

/-! ### A legal operation is performed (R102) -/

theorem hostWriteByte_returns (addr : Addr) (v : Byte) (s : State) :
    ∃ t, hostWriteByte addr v s = .next t := by
  obtain ⟨hr, -⟩ | ⟨e, hr, -⟩ := route_cases s.cfg.addrMode s.map addr
  · exact ⟨_, step_writeByte_unrouted hr v⟩
  · cases hw : e.dev.writeByte (localAddr s.cfg.addrMode e.base addr) v with
    | ok d => exact ⟨_, step_writeByte_ok hr hw⟩
    | err x => exact ⟨_, step_writeByte_err hr hw⟩

theorem hostWriteWord_returns (addr : Addr) (v : Word) (s : State) :
    ∃ t, hostWriteWord addr v s = .next t := by
  obtain ⟨hr, -⟩ | ⟨e, hr, -⟩ := route_cases s.cfg.addrMode s.map addr
  · exact ⟨_, step_writeWord_unrouted hr v⟩
  · exact ⟨_, step_writeWord_routed hr v⟩

/-- Only a codec operation needs the catalog, and only one on a device needs the device. -/
theorem perform_of_legal {s : State} (hcat : s.cfg.catalog.wf = true) {q : Request}
    (hq : q.legal s = true) : ∃ t, perform q s = .next t := by
  cases q with
  | intCode | intFromCode | ratioCode | ratioFromCode | cardNew | muxNew | readByte | readWord =>
    exact ⟨_, rfl⟩
  | decode w => exact ⟨_, hostDecode_wf hcat w⟩
  | encode i =>
    obtain ⟨F, -, -, henc⟩ := Catalog.encode_of_admits hq
    exact ⟨_, hostEncode_some hcat henc⟩
  | cardSize | cardReadByte | cardReadWord | cardWriteByte | cardWriteWord | addDevice =>
    obtain ⟨c, hc⟩ := Option.isSome_iff_exists.mp hq
    exact ⟨_, withHeld_some _ hc⟩
  | writeByte addr v => exact hostWriteByte_returns addr v s
  | writeWord addr v => exact hostWriteWord_returns addr v s

/-- A performed operation returns a result, and the host's next operations are the ones it issued. -/
theorem Effect.returns {s t : State} {q : Request} (h : Effect s q t) :
    (∃ r, t.reply = some r) ∧ t.requests = s.requests := by
  cases h with
  | answers | cardNew | cardWriteByte | muxNew | registers | rejects | writeByte =>
    exact ⟨⟨_, rfl⟩, rfl⟩
  | cardWriteWord | writeWord => exact ⟨⟨_, rfl⟩, countDraw_requests _ _⟩

/-! ### Every effect keeps a good state -/

/-- The invariant does not speak of the reply, nor of the count of draws. -/
theorem State.Inv.answer {s : State} (hs : s.Inv) (r : Result Value) : (s.answer r).Inv :=
  ⟨hs.catalog, hs.map, hs.cards, hs.held⟩

theorem State.Inv.countDraw {s : State} (hs : s.Inv) (drew : Bool) : (s.countDraw drew).Inv := by
  cases drew with
  | false => exact hs
  | true => exact ⟨hs.catalog, hs.map, hs.cards, hs.held⟩

/-- A slot may be emptied, or given a well-formed card. -/
theorem State.Inv.setHeld {s : State} (hs : s.Inv) (slot : Nat) {c : Option Card}
    (hc : ∀ d ∈ c, d.wf) : (s.setHeld slot c).Inv := by
  refine ⟨hs.catalog, hs.map, hs.cards, fun x hx => ?_⟩
  obtain hx | rfl := List.mem_or_eq_of_mem_set hx
  · exact hs.held x hx
  · exact hc

theorem State.Inv.cardNew {s : State} (hs : s.Inv) (size : BitVec 16) :
    ({ s with held := s.held ++ [some (Card.new size)] } : State).Inv := by
  refine ⟨hs.catalog, hs.map, hs.cards, fun x hx => ?_⟩
  obtain hx | hx := List.mem_append.mp hx
  · exact hs.held x hx
  · obtain rfl := List.mem_singleton.mp hx
    rintro d ⟨⟩
    exact new_wf size

theorem State.Inv.register {s : State} (hs : s.Inv) {addr : Addr} {c : Card} (hc : c.wf)
    {map : List Entry} (hr : registerDevice s.map addr c = .ok map) :
    ({ s with map := map } : State).Inv := by
  refine ⟨hs.catalog, mapOk_registerDevice hs.map hr, fun e he => ?_, hs.held⟩
  obtain ⟨rfl, -⟩ := registerDevice_ok hr
  obtain he | rfl := mem_insertEntry.mp he
  · exact hs.cards e he
  · exact hc

/-- A registered card may be replaced by a well-formed one of its size. -/
theorem State.Inv.replaceAt {s : State} (hs : s.Inv) {e : Entry} (he : e ∈ s.map) {d : Card}
    (hd : d.wf) (hsize : d.size = e.dev.size) :
    ({ s with map := replaceAt s.map e.base d } : State).Inv := by
  refine ⟨hs.catalog, mapOk_replaceAt hs.map he hsize, fun f hf => ?_, hs.held⟩
  obtain rfl | ⟨hf, -⟩ := (mem_replaceAt hs.map he).mp hf
  · exact hd
  · exact hs.cards f hf

/-- Every operation leaves a good state: the cards it writes stay well-formed (R13), the map good (R101). -/
theorem Effect.keeps_inv {s t : State} {q : Request} (h : Effect s q t) (hs : s.Inv) : t.Inv := by
  cases h with
  | answers r => exact hs.answer r
  | cardNew size => exact (hs.cardNew size).answer _
  | cardWriteByte v hc ha =>
    have hwf := setByte_wf _ (hs.wf_of_heldCard hc) _ v ha
    exact (hs.setHeld _ (by rintro d ⟨⟩; exact hwf)).answer _
  | cardWriteWord a v hc =>
    obtain ⟨hwf, -⟩ := writeWord_wf (hs.wf_of_heldCard hc) s.cfg.failEffect s.nextDraw a v
    exact ((hs.setHeld _ (by rintro d ⟨⟩; exact hwf)).countDraw _).answer _
  | muxNew => exact ⟨hs.catalog, ⟨by simp, .nil⟩, by simp, hs.held⟩
  | registers hc hr =>
    exact ((hs.setHeld _ (by simp)).register (hs.wf_of_heldCard hc) hr).answer _
  | rejects => exact (hs.setHeld _ (by simp)).answer _
  | writeByte v hr ha =>
    have he := mem_of_route hr
    exact (hs.replaceAt he (setByte_wf _ (hs.cards _ he) _ v ha) rfl).answer _
  | writeWord v hr =>
    have he := mem_of_route hr
    obtain ⟨hwf, hsize⟩ := writeWord_wf (hs.cards _ he) s.cfg.failEffect s.nextDraw _ v
    exact ((hs.replaceAt he hwf hsize).countDraw _).answer _

/-! ### What an error leaves (R102) -/

/-- A word write that fails under NONE leaves the card as it was (R88). -/
theorem writeWord_nothing_of_err {α : Type} {c : Card} {a : Addr} {draw : Bool} {v : Word}
    {f : Unit → α} {x : Error} (h : (c.writeWord .nothing draw a v).2.map f = .err x) :
    c.writeWord .nothing draw a v = (c, .err x) := by
  rcases Nat.lt_or_ge (a.toNat + 1) c.size.toNat with hin | hout
  · rw [writeWord_ok _ _ v hin] at h; cases h
  · rw [writeWord_err_nothing _ v hout] at h ⊢; cases h; rfl

/-- An operation that returns an error only answers it, but for the rejected card of a registration (D9)
and for a word write under LOW_MAY_BE_WRITTEN (R88). -/
theorem Effect.of_err {s t : State} {q : Request} (h : Effect s q t) (hm : mapOk s.map) {x : Error}
    (herr : t.reply = some (.err x))
    (hcond : s.cfg.failEffect = .nothing ∨
      ((∀ slot a v, q ≠ .cardWriteWord slot a v) ∧ ∀ addr v, q ≠ .writeWord addr v)) :
    t = s.answer (.err x) ∨
      ∃ addr slot, q = .addDevice addr slot ∧ t = (s.setHeld slot none).answer (.err x) := by
  cases h with
  | answers r => cases herr; exact .inl rfl
  | cardNew | cardWriteByte | muxNew | registers | writeByte => cases herr
  | rejects => cases herr; exact .inr ⟨_, _, rfl, rfl⟩
  | cardWriteWord a v hc =>
    have hnone := hcond.resolve_right fun ⟨hcard, _⟩ => hcard _ _ _ rfl
    rw [answer_reply, Option.some_inj, hnone] at herr
    rw [hnone, writeWord_nothing_of_err herr, setHeld_same hc]
    exact .inl rfl
  | writeWord v hr =>
    have hnone := hcond.resolve_right fun ⟨_, hmux⟩ => hmux _ _ rfl
    rw [answer_reply, Option.some_inj, hnone] at herr
    rw [hnone, writeWord_nothing_of_err herr, replaceAt_same hm (mem_of_route hr)]
    exact .inl rfl

/-- Settles O55: the operation is performed, its effect returns a result and keeps the good state, and an
effect that returns an error is that answer, or the rejection of a card. -/
theorem everyLegalOperationReturns : Obligations.EveryLegalOperationReturns := by
  intro s q hs hq
  obtain ⟨t, ht⟩ := perform_of_legal hs.catalog hq
  have heff : Effect s q t := perform_effect ht
  obtain ⟨⟨r, hreply⟩, hrequests⟩ := heff.returns
  refine ⟨t, r, ht, hreply, heff.keeps_inv hs, hrequests, fun x hx hcond => ?_⟩
  obtain rfl | ⟨addr, slot, rfl, rfl⟩ := heff.of_err hs.map (hx ▸ hreply) hcond
  · exact ⟨rfl, rfl, rfl, fun _ => rfl⟩
  · exact ⟨rfl, rfl, rfl, fun hne => absurd rfl (hne addr slot)⟩

end Sys2Proof.Machine
end

section
/-! The statements about the codec as a whole. Under a well-formed catalog two formats are `prefixFree` of
each other (`prefixFree_of_ne`) and a tag names one format (`eq_of_tag`), so the format that decodes a word
is the one that encodes it again (`Catalog.encode_decode`). The typed codec of REF13 follows its catalog's. -/

namespace Sys2Proof

/-! ### The formats of a well-formed catalog (R40, R42, R43, R47) -/

/-- Two formats of a well-formed catalog are `prefixFree`, whichever comes first in the list (R42). -/
theorem prefixFree_of_ne {cat : Catalog} (h : cat.wf = true) {F G : Format} (hF : F ∈ cat) (hG : G ∈ cat)
    (hne : F ≠ G) : F.prefixFree G = true := by
  obtain ⟨-, -, -, hp, -⟩ := Catalog.wf_iff.mp h
  have : Std.Symm fun F G : Format => F.prefixFree G = true :=
    ⟨fun F G hFG => by rwa [Format.prefixFree_comm]⟩
  exact (pairwisePrefixFree_iff.mp hp).forall hF hG hne

/-- A well-formed catalog has a format other than any one format (R40). -/
theorem exists_format_ne {cat : Catalog} (h : cat.wf = true) (F : Format) : ∃ G ∈ cat, G ≠ F := by
  obtain ⟨hlen, htags, -⟩ := Catalog.wf_iff.mp h
  have hcard : 1 < cat.toFinset.card := by
    rw [List.toFinset_card_of_nodup htags.of_map, hlen]
    decide
  obtain ⟨G, hG, hne⟩ := Finset.exists_mem_ne hcard F
  exact ⟨G, List.mem_toFinset.mp hG, hne⟩

/-- A tag names one format of a well-formed catalog (R40). -/
theorem eq_of_tag {cat : Catalog} (h : cat.wf = true) {F G : Format} (hF : F ∈ cat) (hG : G ∈ cat)
    (htag : F.tag = G.tag) : F = G := by
  obtain ⟨-, htags, -⟩ := Catalog.wf_iff.mp h
  exact List.inj_on_of_nodup_map htags hF hG htag

/-- A `pfx` of no bits is a part of every other, so `prefixFree` holds of it and no other format. -/
theorem not_prefixFree_of_pfxWidth_zero {F G : Format} (hF : F.layoutOk = true) (hG : G.layoutOk = true)
    (hzero : F.pfxWidth = 0) : F.prefixFree G = false := by
  obtain ⟨-, hpfxF⟩ := layoutOk_iff.mp hF
  obtain ⟨-, hpfxG⟩ := layoutOk_iff.mp hG
  have hpfx : F.pfx = 0 := by rw [hzero] at hpfxF; omega
  simp [Format.prefixFree, hzero, hpfx, Nat.div_eq_of_lt hpfxG]

/-- Settles O4: the layout bounds the width above; a `pfx` of no bits would not be free of the other
formats, and there are others. -/
theorem prefixWidthsAreOneToSixteen : Obligations.PrefixWidthsAreOneToSixteen := by
  intro cat h F hF
  have hlayout := layoutOk_of_mem h hF
  obtain ⟨hsum, -⟩ := layoutOk_iff.mp hlayout
  refine ⟨Nat.one_le_iff_ne_zero.mpr fun hzero => ?_, by omega⟩
  obtain ⟨G, hG, hne⟩ := exists_format_ne h F
  have hfree := prefixFree_of_ne h hF hG hne.symm
  rw [not_prefixFree_of_pfxWidth_zero hlayout (layoutOk_of_mem h hG) hzero] at hfree
  cases hfree

/-- Settles O5: `exhaustive_iff` gives a format for every word, and a second one would not be `prefixFree`
of it. -/
theorem everyWordMatchesExactlyOneFormat : Obligations.EveryWordMatchesExactlyOneFormat := by
  refine ⟨fun cat h w => ?_, fun cat => exhaustive_iff⟩
  obtain ⟨F, hF, hw⟩ := exists_matches h w
  refine ⟨F, hF, hw, fun G hG hwG => ?_⟩
  by_contra hne
  have hnot := not_matches_of_prefixFree (layoutOk_of_mem h hF) (layoutOk_of_mem h hG)
    (prefixFree_of_ne h hF hG (Ne.symm hne)) hw
  rw [hwG] at hnot
  cases hnot

/-! ### Encode of decode under any well-formed catalog (R69) -/

/-- A word of a format is its `pfx`, its opcode field and its operand bits. -/
theorem toNat_eq_of_matches {F : Format} (hF : F.layoutOk = true) {w : Word} (hw : F.matches w = true) :
    w.toNat = (F.pfx * 2 ^ F.opWidth + F.opcode w) * 2 ^ F.operandBits + w.toNat % 2 ^ F.operandBits := by
  obtain ⟨hsum, -⟩ := layoutOk_iff.mp hF
  have hbelow : F.below = F.opWidth + F.operandBits := by unfold Format.below; omega
  have hpfx := (matches_iff hF w).mp hw
  have hlow := mod_eq_field_add w F.operandBits F.opWidth
  have hopcode : F.opcode w = field w F.operandBits F.opWidth := by
    rw [Format.opcode, hbelow, Nat.add_sub_cancel_left]
  calc w.toNat = 2 ^ F.below * (w.toNat / 2 ^ F.below) + w.toNat % 2 ^ F.below :=
        (Nat.div_add_mod _ _).symm
    _ = _ := by rw [hpfx, hbelow, hlow, ← hopcode, Nat.pow_add]; ring

/-- What a format decodes one of its words to is an instruction of the format, and the format encodes it to
that word (R69). -/
theorem Format.encode_decode {F : Format} (hF : F.layoutOk = true) {w : Word} (hw : F.matches w = true)
    {i : Instruction} (h : F.decode w = .ok i) : F.admits i = true ∧ F.encode i = w := by
  by_cases hop : F.opcode w ∈ F.ops
  · obtain ⟨vals, hread, hvals, happ⟩ := readFields_spec w F.tag (F.opcode w) F.fields
    rw [Format.decode_legal hF hop, Format.operandBits, hread, Result.map, Result.ok.injEq] at h
    subst h
    refine ⟨Format.admits_iff.mpr ⟨rfl, hop, hvals⟩, ?_⟩
    have hlt : F.opcode w < 2 ^ F.opWidth := field_lt _ _ _
    rw [Format.encode, happ, Nat.mod_eq_of_lt hlt, ← Format.operandBits, ← toNat_eq_of_matches hF hw,
      BitVec.ofNat_toNat, BitVec.setWidth_eq]
  · rw [Format.decode_illegal hop] at h
    cases h

/-- A catalog encodes an instruction by the one format that admits it. -/
theorem Catalog.encode_eq {cat : Catalog} (h : cat.wf = true) {F : Format} (hF : F ∈ cat)
    {i : Instruction} (hi : F.admits i = true) : cat.encode i = some (F.encode i) := by
  obtain ⟨G, hG, hadm, henc⟩ := Catalog.encode_of_admits (List.any_eq_true.mpr ⟨F, hF, hi⟩)
  obtain ⟨htagF, -⟩ := Format.admits_iff.mp hi
  obtain ⟨htagG, -⟩ := Format.admits_iff.mp hadm
  rw [henc, eq_of_tag h hG hF (htagG.symm.trans htagF)]

/-- Under a well-formed catalog what a word decodes to is an instruction that is encoded to that
word (R69). -/
theorem Catalog.encode_decode {cat : Catalog} (h : cat.wf = true) {w : Word} {i : Instruction}
    (hi : cat.decode w = .ok i) : cat.admits i = true ∧ cat.encode i = some w := by
  obtain ⟨F, hF, hw⟩ := exists_matches h w
  rw [decode_eq_of_matches h hF hw] at hi
  obtain ⟨hadm, henc⟩ := Format.encode_decode (layoutOk_of_mem h hF) hw hi
  exact ⟨List.any_eq_true.mpr ⟨F, hF, hadm⟩, by rw [Catalog.encode_eq h hF hadm, henc]⟩

/-- Under a well-formed catalog the word an instruction is encoded to decodes to it (R68). -/
theorem Catalog.decode_of_encode {cat : Catalog} (h : cat.wf = true) {w : Word} {i : Instruction}
    (hi : cat.admits i = true) (hw : cat.encode i = some w) : cat.decode w = .ok i := by
  obtain ⟨F, hF, hadm, henc⟩ := Catalog.encode_of_admits hi
  rw [hw, Option.some_inj] at henc
  rw [henc, Catalog.decode_encode h hF hadm]

/-- Settles O10: the format that decodes the word encodes the instruction, since its tag names no other;
both injectivities follow from the two round trips. -/
theorem encodeOfDecodeForEveryCatalog : Obligations.EncodeOfDecodeForEveryCatalog := by
  refine fun cat h => ⟨fun w i => Catalog.encode_decode h, fun w v i hw hv => ?decode,
    fun i j hi hj heq => ?encode⟩
  case decode =>
    obtain ⟨-, henc⟩ := Catalog.encode_decode h hw
    obtain ⟨-, henc'⟩ := Catalog.encode_decode h hv
    exact Option.some.inj (henc.symm.trans henc')
  case encode =>
    obtain ⟨F, -, -, henc⟩ := Catalog.encode_of_admits hi
    have hdec := Catalog.decode_of_encode h hi henc
    have hdec' := Catalog.decode_of_encode h hj (heq ▸ henc)
    exact Result.ok.inj (hdec.symm.trans hdec')

/-! ### REF13 and its typed codec (R55, R68, R69) -/

/-- Settles O13: every check and every count is evaluated. -/
theorem referenceCatalogIsWellFormed : Obligations.ReferenceCatalogIsWellFormed :=
  ⟨wf_ref13, by decide, by decide, by decide⟩

/-- Settles O31: each word is evaluated. -/
theorem sampleWordsDecode : Obligations.SampleWordsDecode := by
  unfold Obligations.SampleWordsDecode
  decide

/-- Settles O27: `decode_value`, format by format. -/
theorem typedDecodeIsCatalogDecode : Obligations.TypedDecodeIsCatalogDecode := fun w =>
  (decode_value w).symm

/-- The immediates among the values of operand fields are `i8`s (R12, R52). -/
theorem immInRange_of_admitsAll {ks : List FieldKind} {vals : List Operand}
    (h : admitsAll ks vals = true) {m : Int} (hm : .imm m ∈ vals) : immInRange m = true := by
  induction vals generalizing ks with
  | nil => cases hm
  | cons x xs ih =>
    cases ks with
    | nil => cases h
    | cons k ks =>
      rw [admitsAll, Bool.and_eq_true] at h
      obtain ⟨hx, hxs⟩ := h
      obtain rfl | hm := List.mem_cons.mp hm
      · cases k with
        | intReg | ratioReg => cases hx
        | imm8 => exact hx
      · exact ih hxs hm

/-- A typed instruction whose value carries no immediate but `i8`s is well-formed. -/
theorem Instr.wf_of_value {i : Instr} (h : ∀ m, .imm m ∈ i.value.vals → immInRange m = true) :
    i.wf = true := by
  cases i with
  | f0op0 _ m | f0op1 _ m | f0op2 _ m | f1op0 _ m | f1op1 _ m | f1op2 _ m | f1op3 _ m | f1op4 _ m =>
    exact h m (.tail _ (.head _))
  | f2op0 m | f2op1 m | f2op2 m | f2op3 m | f2op4 m | f2op5 m => exact h m (.head _)
  | _ => rfl

/-- A typed instruction whose value a catalog admits is well-formed. -/
theorem Instr.wf_of_admits {cat : Catalog} {i : Instr} (h : cat.admits i.value = true) : i.wf = true := by
  obtain ⟨F, -, hF⟩ := List.any_eq_true.mp h
  obtain ⟨-, -, hvals⟩ := Format.admits_iff.mp hF
  exact Instr.wf_of_value fun m => immInRange_of_admitsAll hvals

/-- The decode driven by REF13 of a word that the typed decoder reads. -/
theorem ref13_decode_of_decode {w : Word} {i : Instr} (h : decode w = .ok i) :
    ref13.decode w = .ok i.value := by rw [← decode_value, h, Result.map]

/-- What the decode driven by REF13 gives is the value of the instruction that the typed decoder gives. -/
theorem exists_decode_of_ref13_decode {w : Word} {v : Instruction} (h : ref13.decode w = .ok v) :
    ∃ i, decode w = .ok i ∧ i.value = v := by
  rw [← decode_value] at h
  cases hd : decode w with
  | ok i => rw [hd, Result.map, Result.ok.injEq] at h; exact ⟨i, rfl, h⟩
  | err e => rw [hd, Result.map] at h; cases h

/-- What the typed decoder reads is well-formed. -/
theorem wf_of_decode {w : Word} {i : Instr} (h : decode w = .ok i) : i.wf = true := by
  obtain ⟨hadm, -⟩ := Catalog.encode_decode wf_ref13 (ref13_decode_of_decode h)
  exact Instr.wf_of_admits hadm

/-- REF13 admits the value of a well-formed typed instruction and encodes it to the typed encoder's word. -/
theorem ref13_encode_value {i : Instr} (h : i.wf = true) :
    ref13.admits i.value = true ∧ ref13.encode i.value = some (encode i) :=
  Catalog.encode_decode wf_ref13 (ref13_decode_encode h)

/-- Settles O28: the typed encoder's word decodes to the value, so REF13 encodes the value to that word; and
a value REF13 admits has a word, which the typed decoder reads. -/
theorem typedEncodeIsCatalogEncode : Obligations.TypedEncodeIsCatalogEncode := by
  refine ⟨fun i => ref13_encode_value, fun v hv => ?_⟩
  obtain ⟨F, hF, hadm, -⟩ := Catalog.encode_of_admits hv
  obtain ⟨i, hi, hvalue⟩ := exists_decode_of_ref13_decode (Catalog.decode_encode wf_ref13 hF hadm)
  exact ⟨i, wf_of_decode hi, hvalue⟩

/-- Settles O30: what the typed decoder reads is well-formed, and both encoders give its word. -/
theorem encodeOfDecode : Obligations.EncodeOfDecode := by
  intro w i hi
  have hwf := wf_of_decode hi
  obtain ⟨-, henc⟩ := Catalog.encode_decode wf_ref13 (ref13_decode_of_decode hi)
  obtain ⟨-, henc'⟩ := ref13_encode_value hwf
  exact ⟨hwf, Option.some.inj (henc'.symm.trans henc)⟩

end Sys2Proof
end

section
/-! The statements about the block as a whole: what a step runs, what every operation leaves, and what
becomes of a card. Each is a case analysis of `Effect`, or one step written out. -/

namespace Sys2Proof

/-- The two bytes of a word's number make the word. -/
theorem wordOfBytes_ofNat {v : Nat} (h : v < 2 ^ 16) :
    wordOfBytes (BitVec.ofNat 8 v) (BitVec.ofNat 8 (v / 256)) = BitVec.ofNat 16 v := by
  apply BitVec.eq_of_toNat_eq
  rw [Machine.wordOfBytes_toNat, BitVec.toNat_ofNat, BitVec.toNat_ofNat, BitVec.toNat_ofNat]
  omega

/-- The table's decoder reads what the typed decoder reads from the word of the low 16 bits. -/
theorem decode_of_decodeTableWord {w : Nat} {i : Instr} (h : decodeTableWord 16 w = some i) :
    decode (BitVec.ofNat 16 (w % 2 ^ 16)) = .ok i := by
  simp only [decodeTableWord, decodeBytes, wordOfBytes_ofNat (Nat.mod_lt w (Nat.two_pow_pos 16))] at h
  split at h
  · next hd => cases h; exact hd
  · cases h

end Sys2Proof

namespace Sys2Proof.Machine

/-! ### What a step runs (R17, R28) -/

/-- Under REF13 the step of a decode is the meaning of the instruction that the word decodes to. -/
theorem step_decode_ref13 {s : State} (hc : s.cfg.catalog = ref13) {w : Word} {i : Instr}
    (hi : decode w = .ok i) : step (s.asks (.decode w)) = exec i s := by
  rw [step_asks, perform, hostDecode, if_pos hc, decodeRef13, hi]

/-- Settles O33: the step of a decode under REF13, which `withFetchWord` makes the catalog. -/
theorem stepRunsTheDecodedInstruction : Obligations.StepRunsTheDecodedInstruction := by
  refine ⟨fun s w rest i hr hc hi => ?issued, fun s w i hi => ?fetched, step_idle⟩
  case issued =>
    exact (congrArg step (eq_asks_of_requests s _ hr)).trans
      (step_decode_ref13 (s := { s with requests := rest }) hc hi)
  case fetched =>
    exact step_decode_ref13 (s := { s with cfg := { s.cfg with catalog := ref13 } }) rfl
      (decode_of_decodeTableWord hi)

/-- A step with an operation issued has that operation's effect. -/
theorem effect_of_step_asks {s t : State} {q : Request} (h : step (s.asks q) = .next t) : Effect s q t :=
  perform_effect h

/-! ### The parameters (R6, R9) -/

/-- No operation writes a parameter. -/
theorem Effect.keeps_cfg {s t : State} {q : Request} (h : Effect s q t) : t.cfg = s.cfg := by
  cases h with
  | answers | cardNew | cardWriteByte | muxNew | registers | rejects | writeByte => rfl
  | cardWriteWord | writeWord => exact countDraw_cfg _ _

/-- Settles O57: no effect writes the parameters. -/
theorem parametersNeverChange : Obligations.ParametersNeverChange := by
  intro s t h
  obtain rfl | ⟨q, rest, -, he⟩ := step_effect h
  · rfl
  · exact he.keeps_cfg

/-! ### The invariant (R13, R15, R48) -/

/-- The invariant does not speak of the operations the host issues. -/
theorem State.Inv.withRequests {s : State} (hs : s.Inv) (rest : List Request) :
    ({ s with requests := rest } : State).Inv :=
  ⟨hs.catalog, hs.map, hs.cards, hs.held⟩

/-- Settles O43: a step changes nothing or has an effect, and every effect keeps a good state. -/
theorem stepKeepsTheInvariant : Obligations.StepKeepsTheInvariant := by
  intro s t hs h
  obtain rfl | ⟨q, rest, -, he⟩ := step_effect h
  · exact hs
  · exact he.keeps_inv (hs.withRequests rest)

/-- The reset state with the parameters of a well-formed catalog is a good one: it has no card. -/
theorem inv_reset_of_wf {cfg : Config} (h : cfg.catalog.wf = true) :
    ({ State.reset with cfg := cfg } : State).Inv where
  catalog := h
  map := ⟨by simp [State.reset], .nil⟩
  cards := by simp [State.reset]
  held := by simp [State.reset]

/-- Settles O44: reset has REF13, and a block is built only with a well-formed catalog. -/
theorem resetMeetsTheInvariant : Obligations.ResetMeetsTheInvariant := by
  refine ⟨inv_reset_of_wf (cfg := defaultConfig) wf_ref13, fun cfg s h => ?_⟩
  obtain ⟨hwf, rfl⟩ := build_next h
  exact inv_reset_of_wf hwf

/-! ### Held cards (R14, R89) -/

theorem heldCard_append_length (s : State) (c : Card) :
    ({ s with held := s.held ++ [some c] } : State).heldCard s.held.length = some c := by
  simp [State.heldCard]

/-- A new slot takes none of the former ones over. -/
theorem heldCard_append {s : State} {slot : Nat} {c : Card} (hc : s.heldCard slot = some c)
    (l : List (Option Card)) : ({ s with held := s.held ++ l } : State).heldCard slot = some c := by
  rw [State.heldCard, List.getElem?_append_left (heldCard_lt hc)]
  exact hc

/-- Settles O34: the new card stands in the last slot and lists no byte. -/
theorem newCardIsZero : Obligations.NewCardIsZero := by
  intro s n
  have hheld := heldCard_append_length s (Card.new n)
  refine ⟨_, Card.new n, rfl, rfl, rfl, hheld, new_size n, new_byteAt n, fun a ha => ?_, rfl, rfl, rfl,
    rfl⟩
  refine (step_cardReadByte hheld a).trans ?_
  rw [readByte_ok (by rwa [new_size]), new_byteAt]
  rfl

/-- A registration needs a held card and leaves its slot, and no other, empty (R14, D9). -/
theorem Effect.addDevice_held {s t : State} {addr : Addr} {slot : Nat}
    (h : Effect s (.addDevice addr slot) t) : (∃ c, s.heldCard slot = some c) ∧
      t.heldCard slot = none ∧ ∀ k, k ≠ slot → t.heldCard k = s.heldCard k := by
  cases h with
  | answers r unforced => cases unforced
  | registers hc | rejects hc =>
    exact ⟨⟨_, hc⟩, setHeld_none_heldCard s slot, fun k => setHeld_heldCard_ne s slot none⟩

/-- Settles O38: the registered or rejected card has left its slot, and every operation on an empty slot
is refused. -/
theorem noAliasSurvivesRegistration : Obligations.NoAliasSurvivesRegistration := by
  intro s t slot addr h
  obtain ⟨hc, hnone, hothers⟩ := (effect_of_step_asks h).addDevice_held
  exact ⟨hc, hnone, hothers, fun a v w => ⟨withHeld_none _ hnone, withHeld_none _ hnone,
    withHeld_none _ hnone, withHeld_none _ hnone, withHeld_none _ hnone, withHeld_none _ hnone⟩⟩

/-- A held card stays held when a slot that holds a card gets one of the same size. -/
theorem setHeld_keeps_heldCard {s : State} {k slot : Nat} {b c d : Card} (hb : s.heldCard k = some b)
    (hd : d.size = b.size) (hc : s.heldCard slot = some c) :
    ∃ c', (s.setHeld k (some d)).heldCard slot = some c' ∧ c'.size = c.size := by
  by_cases hk : slot = k
  · subst hk
    rw [hb, Option.some_inj] at hc
    exact ⟨d, setHeld_heldCard_of_held hb _, hc ▸ hd⟩
  · exact ⟨c, by rw [setHeld_heldCard_ne s k _ hk, hc], rfl⟩

/-- Every operation but a registration leaves every held card held, with its size (R13). -/
theorem Effect.keeps_heldCard {s t : State} {q : Request} (h : Effect s q t)
    (hq : ∀ addr slot, q ≠ .addDevice addr slot) {slot : Nat} {c : Card}
    (hc : s.heldCard slot = some c) : ∃ d, t.heldCard slot = some d ∧ d.size = c.size := by
  cases h with
  | answers | muxNew | writeByte => exact ⟨c, hc, rfl⟩
  | writeWord => exact ⟨c, by rwa [answer_heldCard, countDraw_heldCard], rfl⟩
  | cardNew => exact ⟨c, heldCard_append hc _, rfl⟩
  | cardWriteByte v hb => exact setHeld_keeps_heldCard hb (setByte_size _ _ v) hc
  | cardWriteWord a v hb =>
    rw [answer_heldCard, countDraw_heldCard]
    exact setHeld_keeps_heldCard hb (writeWord_size _ _ _ a v) hc
  | registers | rejects => exact absurd rfl (hq _ _)

/-! ### Registered cards (R13, R21, R114, R116) -/

/-- Every operation but `new()` and the multiplexer's writes leaves every entry (R114). -/
theorem Effect.keeps_entry {s t : State} {q : Request} (h : Effect s q t) (hnew : q ≠ .muxNew)
    (hbyte : ∀ addr v, q ≠ .writeByte addr v) (hword : ∀ addr v, q ≠ .writeWord addr v) {e : Entry}
    (he : e ∈ s.map) : e ∈ t.map := by
  cases h with
  | answers | cardNew | cardWriteByte | rejects => exact he
  | cardWriteWord => rwa [answer_map, countDraw_map]
  | muxNew => exact absurd rfl hnew
  | registers _ hr =>
    obtain ⟨rfl, -⟩ := registerDevice_ok hr
    exact mem_insertEntry.mpr (.inl he)
  | writeByte => exact absurd rfl (hbyte _ _)
  | writeWord => exact absurd rfl (hword _ _)

/-- An entry keeps its base and its size when a device is replaced by one of its size. -/
theorem replaceAt_keeps_layout {map : List Entry} (hm : mapOk map) {e f : Entry} (he : e ∈ map)
    (hf : f ∈ map) {d : Card} (hsize : d.size = e.dev.size) :
    ∃ g ∈ replaceAt map e.base d, g.base = f.base ∧ g.dev.size = f.dev.size := by
  by_cases hfe : f = e
  · subst hfe
    exact ⟨⟨f.base, d⟩, (mem_replaceAt hm he).mpr (.inl rfl), rfl, hsize⟩
  · exact ⟨f, (mem_replaceAt hm he).mpr (.inr ⟨hf, hfe⟩), rfl, rfl⟩

/-- Every operation but `new()` leaves every entry its base and its size (R13). -/
theorem Effect.keeps_layout {s t : State} {q : Request} (h : Effect s q t) (hm : mapOk s.map)
    (hnew : q ≠ .muxNew) {e : Entry} (he : e ∈ s.map) :
    ∃ f ∈ t.map, f.base = e.base ∧ f.dev.size = e.dev.size := by
  have hentry := h.keeps_entry hnew (e := e)
  cases h with
  | answers => exact ⟨e, he, rfl, rfl⟩
  | writeByte v hr => exact replaceAt_keeps_layout hm (mem_of_route hr) he (setByte_size _ _ v)
  | writeWord v hr =>
    rw [answer_map, countDraw_map]
    exact replaceAt_keeps_layout hm (mem_of_route hr) he (writeWord_size _ _ _ _ v)
  | _ => exact ⟨e, hentry nofun nofun he, rfl, rfl⟩

/-- Settles O58: the three clauses are what every effect keeps of the map and of the held cards. -/
theorem registeredCardsStay : Obligations.RegisteredCardsStay := by
  intro s t q hs h
  have heff := effect_of_step_asks h
  exact ⟨fun hnew e => heff.keeps_layout hs.map hnew, fun hnew hbyte hword e =>
    heff.keeps_entry hnew hbyte hword, fun hq slot c => heff.keeps_heldCard hq⟩

/-- A registration that answers `Ok` has inserted the held card at its address. -/
theorem Effect.addDevice_ok {s t : State} {addr : Addr} {slot : Nat} {c : Card}
    (h : Effect s (.addDevice addr slot) t) (hc : s.heldCard slot = some c)
    (hok : t.reply = some (.ok .unit)) : (⟨addr, c⟩ : Entry) ∈ t.map := by
  cases h with
  | answers r unforced => cases unforced
  | registers hc' hr =>
    rw [hc, Option.some_inj] at hc'
    subst hc'
    obtain ⟨rfl, -⟩ := registerDevice_ok hr
    exact mem_insertEntry.mpr (.inr rfl)
  | rejects => cases hok

/-- Settles O42: after the first registration its entry meets the second range, which is then rejected. -/
theorem firstRegisteredRangeWins : Obligations.FirstRegisteredRangeWins := by
  intro s t p q c d addr addr' hs hp hq hpq hfits hbelow habove h hok
  have heff := effect_of_step_asks h
  obtain ⟨-, -, hothers⟩ := heff.addDevice_held
  have hmem : (⟨addr, c⟩ : Entry) ∈ t.map := heff.addDevice_ok hp hok
  have hmeets : Entry.meets ⟨addr, c⟩ addr' d.size := by
    rcases Nat.lt_trichotomy addr.toNat addr'.toNat with hlt | heq | hgt
    · exact .inr (.inl ⟨hlt, habove⟩)
    · exact .inl (BitVec.eq_of_toNat_eq heq)
    · exact .inr (.inr ⟨hgt, hbelow⟩)
  have hrejected : registerDevice t.map addr' d = .err (.registration .overlap) :=
    (registerDevice_overlap_iff (heff.keeps_mapOk hs.map) hfits).mpr ⟨_, hmem, hmeets⟩
  exact ⟨_, step_addDevice_err ((hothers q hpq.symm).trans hq) hrejected, rfl, rfl, hmem⟩

/-! ### Reads and fetches (R23, R29, R34) -/

/-- Settles O54: a read only answers, and what it answers does not depend on the last answer. -/
theorem readsHaveNoSideEffect : Obligations.ReadsHaveNoSideEffect := fun s addr =>
  ⟨⟨_, step_readByte s addr, step_readByte (s.answer _) addr⟩,
    ⟨_, step_readWord s addr, step_readWord (s.answer _) addr⟩⟩

/-- Settles O59: a word write is read back by O51, and the decode of an encoded instruction runs it. -/
theorem fetchSeesTheWordJustWritten : Obligations.FetchSeesTheWordJustWritten := by
  intro s addr i hs hc hi hword
  obtain ⟨hinside, -⟩ := muxWordWrite s addr (encode i) hs
  obtain ⟨t, hwrite, -, hread, -⟩ := hinside hword
  have hcfg : t.cfg = s.cfg := (effect_of_step_asks hwrite).keeps_cfg
  refine ⟨t, _, hwrite, hread, rfl, step_decode_ref13 ?_ (decodeOfEncode i hi)⟩
  rw [answer_cfg, hcfg, hc]

end Sys2Proof.Machine
end

section
/-! Which addresses an access reaches. A registered card serves the `n` bytes at an address when they lie in
it under the card's own addressing (`Entry.serves`); then the address is routed to it (`route_of_serves`),
and the reachable bytes and words of both modes are the served ones. -/

namespace Sys2Proof.Machine

/-! ### What a card serves (R93) -/

/-- The `n` bytes at the global address lie in the entry's card, at the address the card receives. -/
def Entry.serves (mode : MuxAddrMode) (e : Entry) (addr : Addr) (n : Nat) : Prop :=
  e.base.toNat ≤ addr.toNat ∧ (localAddr mode e.base addr).toNat + n ≤ e.dev.size.toNat

theorem serves_raw_iff {e : Entry} {addr : Addr} {n : Nat} : e.serves .raw addr n ↔
    e.base.toNat ≤ addr.toNat ∧ addr.toNat + n ≤ e.dev.size.toNat := Iff.rfl

theorem serves_offset_iff {e : Entry} {addr : Addr} {n : Nat} : e.serves .offset addr n ↔
    e.base.toNat ≤ addr.toNat ∧ addr.toNat + n ≤ e.base.toNat + e.dev.size.toNat := by
  refine and_congr_right fun hle => ?_
  rw [localAddr_toNat .offset hle]
  simp only
  omega

/-- Under OFFSET a card that serves an address receives the distance from its base. -/
theorem serves_offset_and_iff {e : Entry} {addr : Addr} {n : Nat} (P : Nat → Prop) :
    e.serves .offset addr n ∧ P (localAddr .offset e.base addr).toNat ↔
      e.base.toNat ≤ addr.toNat ∧ addr.toNat + n ≤ e.base.toNat + e.dev.size.toNat ∧
        P (addr.toNat - e.base.toNat) := by
  rw [serves_offset_iff, and_assoc]
  refine and_congr_right fun hle => ?_
  rw [localAddr_toNat .offset hle]

/-- A routed entry whose card holds the `n` bytes at the local address serves them. -/
theorem serves_of_route {mode : MuxAddrMode} {map : List Entry} {addr a : Addr} {e : Entry} {n : Nat}
    (hr : route mode map addr = some (e, a)) (hin : a.toNat + n ≤ e.dev.size.toNat) :
    e ∈ map ∧ e.serves mode addr n ∧ a = localAddr mode e.base addr := by
  obtain ⟨f, hf, heq⟩ := Option.map_eq_some_iff.mp hr
  cases heq
  obtain ⟨he, hle, -⟩ := nearestBelow_some hf
  exact ⟨he, ⟨hle, hin⟩, rfl⟩

/-- An address that a registered card serves is routed to it: the served byte is below the entry's end, and
an entry with a greater base begins at or after that end (R15 (c)). -/
theorem route_of_serves {mode : MuxAddrMode} {map : List Entry} (hm : mapOk map) {e : Entry} (he : e ∈ map)
    {addr : Addr} {n : Nat} (hn : 0 < n) (h : e.serves mode addr n) :
    route mode map addr = some (e, localAddr mode e.base addr) := by
  obtain ⟨hle, hin⟩ := h
  have hlocal := le_base_add_localAddr mode hle
  refine route_eq mode hm he hle fun f hf hfle => ?_
  by_contra hlt
  have hend : e.base.toNat + e.dev.size.toNat ≤ f.base.toNat := mapOk_limit_le hm he hf (by omega)
  omega

theorem eq_wordOfBytes_iff {w : Word} {lo hi : Byte} :
    w = wordOfBytes lo hi ↔ w.toNat = lo.toNat + 256 * hi.toNat := by
  rw [← BitVec.toNat_inj, wordOfBytes_toNat]

section
variable {s : State} (hm : mapOk s.map) {addr : Addr}
include hm

/-- A byte can be read exactly from a card that serves it (R94). -/
theorem byteAt_eq_ok_iff {v : Byte} : s.byteAt addr = .ok v ↔
    ∃ e ∈ s.map, e.serves s.cfg.addrMode addr 1 ∧
      v = e.dev.byteAt (localAddr s.cfg.addrMode e.base addr).toNat := by
  constructor
  · intro h
    obtain ⟨hr, -⟩ | ⟨e, hr, he, hle, -⟩ := route_cases s.cfg.addrMode s.map addr
    · rw [State.byteAt, muxReadByte_none hr] at h; cases h
    · rw [byteAt_routed hr] at h
      rcases Nat.lt_or_ge (localAddr s.cfg.addrMode e.base addr).toNat e.dev.size.toNat with hin | hout
      · rw [readByte_ok hin] at h; cases h; exact ⟨e, he, ⟨hle, hin⟩, rfl⟩
      · rw [readByte_err hout] at h; cases h
  · rintro ⟨e, he, h, rfl⟩
    rw [byteAt_routed (route_of_serves hm he one_pos h), readByte_ok h.2]

/-- A word can be read exactly from a card that serves both of its bytes (R95). -/
theorem muxReadWord_eq_ok_iff {w : Word} : muxReadWord s.cfg.addrMode s.map addr = .ok w ↔
    ∃ e ∈ s.map, e.serves s.cfg.addrMode addr 2 ∧
      w.toNat = (e.dev.byteAt (localAddr s.cfg.addrMode e.base addr).toNat).toNat +
        256 * (e.dev.byteAt ((localAddr s.cfg.addrMode e.base addr).toNat + 1)).toNat := by
  constructor
  · intro h
    obtain ⟨e, a, hr, hin, rfl⟩ := muxReadWord_ok h
    obtain ⟨he, hserves, rfl⟩ := serves_of_route (n := 2) hr hin
    exact ⟨e, he, hserves, wordOfBytes_toNat _ _⟩
  · rintro ⟨e, he, h, hw⟩
    rw [muxReadWord_some (route_of_serves hm he two_pos h), readWord_ok h.2, eq_wordOfBytes_iff.mpr hw]

/-- A byte write succeeds exactly on a card that serves the byte (R96). -/
theorem writeByte_succeeds_iff (v : Byte) :
    (∃ t, step (s.asks (.writeByte addr v)) = .next t ∧ t.reply = some (.ok .unit)) ↔
      ∃ e ∈ s.map, e.serves s.cfg.addrMode addr 1 := by
  constructor
  · rintro ⟨t, h, hok⟩
    obtain ⟨hr, -⟩ | ⟨e, hr, he, hle, -⟩ := route_cases s.cfg.addrMode s.map addr
    · rw [step_writeByte_unrouted hr] at h; cases h; cases hok
    · rcases Nat.lt_or_ge (localAddr s.cfg.addrMode e.base addr).toNat e.dev.size.toNat with hin | hout
      · exact ⟨e, he, hle, hin⟩
      · rw [step_writeByte_err hr (writeByte_err v hout)] at h; cases h; cases hok
  · rintro ⟨e, he, h⟩
    exact ⟨_, step_writeByte_ok (route_of_serves hm he one_pos h) (writeByte_ok v h.2), rfl⟩

/-- A word write succeeds exactly on a card that serves both of its bytes (R97). -/
theorem writeWord_succeeds_iff (v : Word) :
    (∃ t, step (s.asks (.writeWord addr v)) = .next t ∧ t.reply = some (.ok .unit)) ↔
      ∃ e ∈ s.map, e.serves s.cfg.addrMode addr 2 := by
  constructor
  · rintro ⟨t, h, hok⟩
    obtain ⟨e, a, hr, hin⟩ := writeWord_unit h hok
    obtain ⟨he, hserves, -⟩ := serves_of_route (n := 2) hr hin
    exact ⟨e, he, hserves⟩
  · rintro ⟨e, he, h⟩
    refine ⟨_, step_writeWord_routed (route_of_serves hm he two_pos h) v, ?_⟩
    rw [answer_reply, writeWord_ok _ _ v h.2, Result.map]

end

/-! ### Reachable bytes and words (R99, R100) -/

/-- An answer of a mapped result is `Ok` of a value exactly when the result is. -/
theorem answer_map_eq_ok_iff {α : Type} {f : α → Value} (hf : f.Injective) {s : State} {r : Result α}
    {v : α} : (.next (s.answer (r.map f)) : Host.Outcome State Fault Refusal) =
      .next (s.answer (.ok (f v))) ↔ r = .ok v := by
  refine ⟨fun h => ?_, fun h => by rw [h, Result.map]⟩
  have hreply := congrArg State.reply (Host.Outcome.next.inj h)
  cases r with
  | ok x => rw [hf (Result.ok.inj (Option.some.inj hreply))]
  | err e => cases hreply

theorem step_readByte_ok_iff {s : State} {addr : Addr} {v : Byte} :
    step (s.asks (.readByte addr)) = .next (s.answer (.ok (.byte v))) ↔ s.byteAt addr = .ok v := by
  rw [step_readByte]
  exact answer_map_eq_ok_iff fun _ _ => Value.byte.inj

theorem step_readWord_ok_iff {s : State} {addr : Addr} {w : Word} :
    step (s.asks (.readWord addr)) = .next (s.answer (.ok (.word w))) ↔
      muxReadWord s.cfg.addrMode s.map addr = .ok w := by
  rw [step_readWord]
  exact answer_map_eq_ok_iff fun _ _ => Value.word.inj

/-- Settles O47: under RAW the served bytes are those from the base up to the card's size. -/
theorem rawReachableBytes : Obligations.RawReachableBytes := by
  intro s addr v hs hraw
  refine ⟨(step_readByte_ok_iff.trans (byteAt_eq_ok_iff hs.map)).trans ?_,
    (writeByte_succeeds_iff hs.map v).trans ?_⟩ <;> rw [hraw]
  · exact exists_congr fun e => and_congr_right fun _ => and_assoc
  · exact exists_congr fun e => and_congr_right fun _ => serves_raw_iff

/-- Settles O48: under OFFSET the served bytes are those of the entry's range. -/
theorem offsetReachableBytes : Obligations.OffsetReachableBytes := by
  intro s addr hs hoffset
  refine ⟨fun v => ⟨?readByte, ?writeByte⟩, fun w => ⟨?readWord, ?writeWord⟩⟩
  case readByte =>
    refine (step_readByte_ok_iff.trans (byteAt_eq_ok_iff hs.map)).trans ?_
    rw [hoffset]
    exact exists_congr fun e => and_congr_right fun _ => serves_offset_and_iff (v = e.dev.byteAt ·)
  case writeByte =>
    refine (writeByte_succeeds_iff hs.map v).trans ?_
    rw [hoffset]
    exact exists_congr fun e => and_congr_right fun _ => serves_offset_iff
  case readWord =>
    refine (step_readWord_ok_iff.trans (muxReadWord_eq_ok_iff hs.map)).trans ?_
    rw [hoffset]
    exact exists_congr fun e => and_congr_right fun _ => serves_offset_and_iff fun a =>
      w.toNat = (e.dev.byteAt a).toNat + 256 * (e.dev.byteAt (a + 1)).toNat
  case writeWord =>
    refine (writeWord_succeeds_iff hs.map w).trans ?_
    rw [hoffset]
    exact exists_congr fun e => and_congr_right fun _ => serves_offset_iff

/-! ### Accesses that always fail (R26, R30, R98) -/

/-- Every access at an address that is routed to no card fails and changes nothing (R93). -/
theorem accesses_fail_of_unrouted {s : State} {addr : Addr}
    (hr : route s.cfg.addrMode s.map addr = none) (b : Byte) (w : Word) :
    step (s.asks (.readByte addr)) = .next (s.answer (.err .address)) ∧
    step (s.asks (.readWord addr)) = .next (s.answer (.err .address)) ∧
    step (s.asks (.writeByte addr b)) = .next (s.answer (.err .address)) ∧
    step (s.asks (.writeWord addr w)) = .next (s.answer (.err .address)) :=
  ⟨by rw [step_readByte, State.byteAt, muxReadByte_none hr, Result.map],
    by rw [step_readWord, muxReadWord_none hr, Result.map],
    step_writeByte_unrouted hr b, step_writeWord_unrouted hr w⟩

/-- Settles O39: on an empty map nothing is routed, and `new()` is one assignment. -/
theorem everyAccessFailsOnAnEmptyMap : Obligations.EveryAccessFailsOnAnEmptyMap := by
  refine ⟨rfl, fun s => ⟨_, rfl, rfl, rfl, rfl, rfl, rfl, rfl⟩, fun s hempty addr => ?_⟩
  exact accesses_fail_of_unrouted (by rw [hempty]; rfl)

/-- A word write at a low byte outside the card draws nothing and leaves the card (R88). -/
theorem writeWord_outside {c : Card} {a : Addr} (eff : WordWriteFailEffect) (draw : Bool) (v : Word)
    (hout : c.size.toNat ≤ a.toNat) :
    c.writeWord eff draw a v = (c, .err .address) ∧ c.drawsAt eff a = false := by
  constructor
  · exact (writeWord_err eff draw v (by omega)).resolve_right fun ⟨hin, _⟩ => by omega
  · cases eff with
    | nothing => rfl
    | lowMayBeWritten => simp [Card.drawsAt, hout]

/-- Every access routed to a card that does not hold the address fails and changes nothing. -/
theorem accesses_fail_of_outside {s : State} (hm : mapOk s.map) {addr a : Addr} {e : Entry}
    (hr : route s.cfg.addrMode s.map addr = some (e, a)) (hout : e.dev.size.toNat ≤ a.toNat)
    (b : Byte) (w : Word) :
    step (s.asks (.readByte addr)) = .next (s.answer (.err .address)) ∧
    step (s.asks (.readWord addr)) = .next (s.answer (.err .address)) ∧
    step (s.asks (.writeByte addr b)) = .next (s.answer (.err .address)) ∧
    step (s.asks (.writeWord addr w)) = .next (s.answer (.err .address)) := by
  obtain ⟨hwrite, hdraw⟩ := writeWord_outside s.cfg.failEffect s.nextDraw w hout
  refine ⟨by rw [step_readByte, byteAt_routed hr, readByte_err hout, Result.map],
    by rw [step_readWord, muxReadWord_some hr, readWord_err (by omega), Result.map],
    step_writeByte_err hr (writeByte_err b hout), ?_⟩
  rw [step_writeWord_routed hr, hwrite, hdraw, replaceAt_same hm (mem_of_route hr), countDraw_false,
    Result.map]

/-- Settles O49: no entry reaches 0xFFFF, and a card's last byte is routed to it but holds no word. -/
theorem lastAddressAlwaysFails : Obligations.LastAddressAlwaysFails := by
  refine ⟨fun s hs b w => ?top, fun s e addr w hs he hle hlast => ?lastByte,
    fun s slot c a w hc hlast => ?held⟩
  case top =>
    obtain ⟨hr, -⟩ | ⟨e, hr, he, hle, -⟩ := route_cases s.cfg.addrMode s.map 0xFFFF
    · exact accesses_fail_of_unrouted hr b w
    · have hlimit : e.base.toNat + e.dev.size.toNat ≤ 0xFFFF := hs.map.1 e he
      have hlocal : 0xFFFF ≤ e.base.toNat + _ := le_base_add_localAddr s.cfg.addrMode hle
      exact accesses_fail_of_outside hs.map hr (by omega) b w
  case lastByte =>
    have hlocal : (localAddr s.cfg.addrMode e.base addr).toNat + 1 = e.dev.size.toNat := by
      rw [localAddr_toNat _ hle]
      cases hmode : s.cfg.addrMode with
      | raw => simpa only [hmode] using hlast
      | offset => simp only [hmode] at hlast ⊢; omega
    have hr := route_of_serves hs.map he one_pos ⟨hle, hlocal.le⟩
    refine ⟨by rw [step_readWord, muxReadWord_some hr, readWord_err hlocal.ge, Result.map],
      _, step_writeWord_routed hr w, ?_⟩
    rw [answer_reply, writeWord_result_err _ _ w hlocal.ge, Result.map]
  case held =>
    have hout : c.size.toNat ≤ a.toNat + 1 := by have := c.size.isLt; omega
    refine ⟨by rw [step_cardReadWord hc, readWord_err hout, Result.map], _, step_cardWriteWord hc a w, ?_⟩
    rw [answer_reply, writeWord_result_err _ _ w hout, Result.map]

/-! ### A readable byte stays until it is written (R32) -/

/-- A registration leaves every readable byte: the card that serves it stays, and the map stays good. -/
theorem byteAt_registered {s : State} (hm : mapOk s.map) {addr base : Addr} {v : Byte} {c : Card}
    {map : List Entry} (hv : s.byteAt addr = .ok v) (hr : registerDevice s.map base c = .ok map) :
    ({ s with map := map } : State).byteAt addr = .ok v := by
  have hm' := mapOk_registerDevice hm hr
  obtain ⟨rfl, -⟩ := registerDevice_ok hr
  obtain ⟨e, he, h⟩ := (byteAt_eq_ok_iff hm).mp hv
  exact (byteAt_eq_ok_iff hm').mpr ⟨e, mem_insertEntry.mpr (.inl he), h⟩

/-- A readable byte keeps its value through every operation but `new()` and a write that stores it. -/
theorem Effect.keeps_byteAt {s t : State} {q : Request} (h : Effect s q t) (hm : mapOk s.map) {addr : Addr}
    {v : Byte} (hv : s.byteAt addr = .ok v) (hnew : q ≠ .muxNew) (hbyte : ∀ x, q ≠ .writeByte addr x)
    (hword : ∀ a w, q = .writeWord a w → a ≠ addr ∧ a.toNat + 1 ≠ addr.toNat) :
    t.byteAt addr = .ok v := by
  cases h with
  | answers | cardNew | cardWriteByte | rejects => exact hv
  | cardWriteWord => rw [answer_byteAt, countDraw_byteAt]; exact hv
  | muxNew => exact absurd rfl hnew
  | registers hc hr => exact byteAt_registered hm hv hr
  | writeByte x hr hin =>
    have hne : addr ≠ _ := fun heq => hbyte x (by rw [heq])
    rw [← hv, answer_byteAt]
    exact byteAt_replaceAt_other hm hr (setByte_storesAt _ _ x) (lt_or_add_one_le_of_ne hne)
  | writeWord w hr =>
    obtain ⟨hlo, hhi⟩ := hword _ w rfl
    have hapart := lt_or_add_one_le_of_ne hlo.symm
    rw [← hv, answer_byteAt, countDraw_byteAt]
    exact byteAt_replaceAt_other hm hr (writeWord_storesAt _ _ _ _ w) (by omega)

/-- Settles O56: no effect but `new()` and the writes of the byte reaches it. -/
theorem bytesStayUntilWritten : Obligations.BytesStayUntilWritten := by
  intro s t q addr v hs hv hnew hbyte hword h
  exact (effect_of_step_asks h).keeps_byteAt hs.map hv hnew hbyte hword

end Sys2Proof.Machine
end
